-- ==== Sys2Proof/Word.lean ====
section
/-! DEFINITION. The word types of the CCE: bytes, 32-bit registers and bus addresses, and the byte orders of a command's data. -/

namespace Sys2Proof

/-- An unsigned 8-bit value, the unit of bus memory (00_scope R7, 20_memory R70). -/
abbrev Byte := BitVec 8

/-- A 32-bit register, command word or bus address (10_state R30, 00_scope R6 `ADDR_W`, `LEN_W`). -/
abbrev Word := BitVec 32

/-- The number of byte addresses of the bus memory space (20_memory R70, R71). -/
abbrev addrSpace : Nat := 4294967296

/-- The byte order of a command's multi-byte data (00_scope R9, R10). -/
inductive Endian where
  | big
  | little
  deriving DecidableEq, Repr

end Sys2Proof
end

