-- ==== Sys2Proof/Config.lean ====
section
/-! DEFINITION. What an implementation fixes: the parameters of 00_scope R6 as plain data (`Params`, a field of State that
no step changes), the fixed parameters as constants, and the free values of 93_implementation_defined (`any value`). -/

namespace Sys2Proof

/-- The reading of the end of the AC1350 covered region, parameter `AC1350_REGION_END` (00_scope R6, 41_integrity R156). -/
inductive RegionEnd where
  | fieldL        -- the default: the region ends at `L`
  | twentyPlusL   -- the region ends at `20 + L`
  deriving DecidableEq, Repr

/-- A kind of memory access, the second argument of `busFault` (00_scope R6). -/
inductive AccessKind where
  | read
  | write
  deriving DecidableEq, Repr

/-- How the platform's bus answers an access it does not serve: with an error (20_memory R73), or never (70_reset R293). -/
inductive BusAnswer where
  | error
  | never
  deriving DecidableEq, Repr

/-- The half-open range `[base, base + size)` of bus addresses, on unbounded naturals (00_scope R7, R8). -/
structure Span where
  base : Nat
  size : Nat
  deriving DecidableEq, Repr

/-- One entry of the platform's `busFault` predicate: the accesses of one kind to one span get this answer. -/
structure BusRule where
  span   : Span
  kind   : AccessKind
  answer : BusAnswer
  deriving DecidableEq, Repr

/-- The parameters of the block (00_scope R6). A predicate on addresses is given as finitely many spans, which can
express every predicate on the `2^32` addresses. -/
structure Params where
  /-- `DES_KEY`, key byte 0 in the most significant byte (00_scope R12). -/
  desKey    : BitVec 64
  /-- `CCE_BASE`, the bus address of the register window (10_state R30). -/
  cceBase   : Word
  /-- `AC1350_REGION_END`. -/
  regionEnd : RegionEnd
  /-- `busFault`, and the addresses whose accesses the bus never answers: the first rule that applies gives the answer. -/
  busRules  : List BusRule
  /-- The spans that are no ordinary memory: devices with read side effects (20_memory R82). -/
  devices   : List Span
  deriving DecidableEq, Repr

/-- `DES_BLOCK`: the DES block size in bytes (00_scope R6). -/
abbrev desBlock : Nat := 8
/-- `DIGEST_LEN`: the length of an MD5 digest in bytes (00_scope R6). -/
abbrev digestLen : Nat := 16
/-- `PROBE_MAX`: the number of candidates of the trailing-length probe (00_scope R6). -/
abbrev probeMax : Nat := 8
/-- `2^HASH_BITS`: the number of slots of the match finder (00_scope R6). -/
abbrev hashSlots : Nat := 8192
/-- `HASH_K`: the hash multiplier (00_scope R6). -/
abbrev hashK : Nat := 0x13D
/-- `MIN_MATCH`: the minimum accepted match length (00_scope R6). -/
abbrev minMatch : Nat := 4
/-- `TAIL_LITERALS`: with fewer source bytes remaining, only literals (00_scope R6). -/
abbrev tailLiterals : Nat := 5
/-- `WINDOW_BITS`: control bits per control word (00_scope R6). -/
abbrev windowBits : Nat := 16
/-- The value the `ID` register reads (10_state R31). -/
abbrev idWord : Word := 0x43434501#32

/-- FREE VALUE: the `k`-th byte of draw `n`: a byte of memory the spec leaves unspecified (93 U10, U11, U15). -/
opaque Config.freeByte (n k : Nat) : Byte
/-- FREE VALUE: the `k`-th word of draw `n`: a register read or result register the spec leaves unspecified (93 U11, U12, U14). -/
opaque Config.freeWord (n k : Nat) : Word
/-- FREE VALUE: the `k`-th choice of draw `n`, taken modulo the number of alternatives. Within one draw every choice has a `k`
of its own, so that none decides another: 0 which of several unserved accesses is reported (93 U16); 1 and 2 the flag and
the error code of a raced completion (U11); 3 `BUS_ERROR` or `DST_OVERFLOW` of `COMPRESS` (U17). -/
opaque Config.freeChoice (n k : Nat) : Nat

end Sys2Proof
end

