-- ==== Sys2Proof/Syntax.lean ====
section
/-! DEFINITION. The seven commands of the block, one constructor per row of spec/opcode_table.json. -/

namespace Sys2Proof

/-- A command (30_encoding R91) with the two option fields of its word (R90): `le` is field `LE`, `ovl` is field `OVL`.
Every command word carries both fields; a command that does not use one ignores it (R92). The other operands are the
latched registers (R93). -/
inductive Instr where
  | desDecrypt   (le : Endian) (ovl : Bool)   -- DES_DECRYPT, OP 1
  | desEncrypt   (le : Endian) (ovl : Bool)   -- DES_ENCRYPT, OP 2
  | verify       (le : Endian) (ovl : Bool)   -- VERIFY, OP 3
  | verifyAc1350 (le : Endian) (ovl : Bool)   -- VERIFY_AC1350, OP 4
  | digest       (le : Endian) (ovl : Bool)   -- DIGEST, OP 5
  | decompress   (le : Endian) (ovl : Bool)   -- DECOMPRESS, OP 6
  | compress     (le : Endian) (ovl : Bool)   -- COMPRESS, OP 7
  deriving DecidableEq, Repr

end Sys2Proof
end

