-- ==== Sys2Proof/Machine/State.lean ====
section
/-! DEFINITION. The state of the machine as plain data: the register window, the latches, the engine's working state, the
bus memory, the platform's parameters and what the outside does next. -/

namespace Sys2Proof.Machine

/-- The sequencer phase (10_state R53); `STATUS.BUSY` is 1 exactly in phase `busy`. -/
inductive Phase where
  | idle
  | busy
  deriving DecidableEq, Repr

/-- The error codes a command can report (60_exceptions R250). -/
inductive ErrCode where
  | invalidSize
  | decryptionFailure
  | integrityMismatch
  | badCommand
  | badRegion
  | dstOverflow
  | srcUnderrun
  | badMatch
  | badLength
  | busError
  deriving DecidableEq, Repr

/-- The MD5 chaining state, the working state of `DIGEST` (10_state R57, 00_scope R13). -/
structure Md5State where
  a : Word
  b : Word
  c : Word
  d : Word
  deriving DecidableEq, Repr

/-- The working state of `DECOMPRESS` (10_state R57, 42_codec R175). -/
structure DecState where
  /-- source cursor -/
  s    : Nat
  /-- output cursor -/
  d    : Nat
  /-- current control word -/
  win  : BitVec 16
  /-- its unread bits -/
  cnt  : Nat
  /-- `dict_ld` accumulator -/
  acc  : Nat
  /-- decompressed length -/
  size : Nat
  deriving DecidableEq, Repr

/-- The hash table `T` (10_state R56): the slots that are not `EMPTY` with their source position, slots rising. -/
abbrev HashTable := List (Nat × Nat)

/-- The working state of `COMPRESS` (10_state R57, 42_codec R190), the hash table `T` among it. -/
structure CompState where
  /-- source cursor -/
  cur   : Nat
  /-- insertion pointer: the next source position not yet inserted -/
  h     : Nat
  /-- output so far -/
  out   : List Byte
  /-- position of the open control window in `out` -/
  wpos  : Nat
  /-- bits of the open window -/
  wbits : BitVec 16
  /-- number of bits in the open window -/
  wcnt  : Nat
  /-- hash table `T` -/
  table : HashTable
  deriving DecidableEq, Repr

/-- The working registers of the three units (10_state R57). -/
structure Work where
  /-- cipher block index `j` (40_cipher R132) -/
  block : Nat
  /-- `VERIFY` candidate count `i` (41_integrity R151) -/
  probe : Nat
  /-- `VERIFY_AC1350` length field `L` (41_integrity R156) -/
  acLen : Nat
  /-- `DIGEST` chaining state (41_integrity R160) -/
  md5   : Md5State
  dec   : DecState
  comp  : CompState
  deriving DecidableEq, Repr

/-- Bus memory (20_memory R70): the bytes that differ from what an unlisted address reads as, addresses rising. -/
abbrev Memory := List Host.Cell

/-- One thing the outside does to the block (70_reset R294, R280; 30_encoding R120). Register accesses carry their bus
address and their width in bytes (10_state R50). -/
inductive Input where
  /-- a store to bus address `addr` on the block's slave port (`WR`) -/
  | regWrite (addr : Word) (width : Nat) (value : Word)
  /-- a load from bus address `addr` on the block's slave port (`RD`) -/
  | regRead (addr : Word) (width : Nat)
  /-- repeat a 32-bit load until `value read & mask = value` (`POLL`) -/
  | poll (addr : Word) (mask value : Word)
  /-- another agent, the host included, writes bytes to bus memory (`MEMW`) -/
  | memWrite (addr : Nat) (bytes : List Byte)
  /-- another agent reads `n` bytes of bus memory (`MEMR`) -/
  | memRead (addr n : Nat)
  /-- the platform asserts the reset input (70_reset R280) -/
  | resetAssert
  /-- the platform deasserts the reset input -/
  | resetRelease
  /-- the host does nothing: the block's own step, if it has one, comes now (70_reset R292) -/
  | engine
  deriving DecidableEq, Repr

/-- The state of the machine. INVENTORY.md, State, names the rule of every field. -/
structure State where
  cfg       : Params
  irqEn     : Bool
  cmd       : Word
  phase     : Phase
  done      : Bool
  err       : Bool
  errCode   : BitVec 8
  srcAddr   : Word
  srcLen    : Word
  dstAddr   : Word
  dstCap    : Word
  resultLen : Word
  resultAux : Word
  errInfo   : Word
  lCmd      : Word
  lSrc      : Word
  lSLen     : Word
  lDst      : Word
  lDCap     : Word
  work      : Work
  mem       : Memory
  resetHeld : Bool
  raced     : Bool
  inputs    : List Input
  rdata     : Word
  mdata     : List Byte
  draws     : Nat
  deriving DecidableEq, Repr

/-- Why the machine stops with a fault. -/
inductive Fault where
  /-- Raised by a command whose memory access the bus never answers (70_reset R293; 93 U25, treatment `stuck`). Safe: the
  hardware stays BUSY and makes no further step of its own. -/
  | busNeverAnswers
  /-- Raised by a memory access of another agent past the last bus address (20_memory R71): no such byte exists. Safe. -/
  | noSuchAddress
  deriving DecidableEq, Repr

/-- Why the machine gives a step no meaning. -/
inductive Refusal where
  /-- Raised by no meaning: an instruction rejected by name in `exec`. Safe. -/
  | notModelled (mnemonic : String)
  /-- Raised by a command whose source or destination region covers the block's own register window or a device: 20_memory
  R82 gives it no meaning (93 U24, treatment `refuse`). Safe. -/
  | regionNotMemory
  /-- Raised by a memory access of another agent to a device of the platform, whose behaviour the spec does not give. Safe. -/
  | deviceAccess
  deriving DecidableEq, Repr

/-- The parameters of a block at the defaults of 00_scope R6. DESIGN CHOICE (log 5, 6, 15): `CCE_BASE` is OPEN, and the
bus answers every access and has no device. -/
def defaultParams : Params where
  desKey := 0x478DA50BF9E3D2CF#64
  cceBase := 0x40000000#32
  regionEnd := .fieldL
  busRules := []
  devices := []

/-- The working state right after reset. DESIGN CHOICE (log 3): 10_state R59 leaves it unspecified. -/
def Work.reset : Work where
  block := 0
  probe := 0
  acLen := 0
  md5 := ⟨0, 0, 0, 0⟩
  dec := ⟨0, 0, 0, 0, 0, 0⟩
  comp := ⟨0, 0, [], 0, 0, 0, []⟩

/-- The machine right after reset (10_state R59, 70_reset R280). DESIGN CHOICE (log 1, 3, 4, 10, 28): memory lists
nothing, the latches and the working state hold 0, and the model's own fields are empty. -/
def State.reset : State where
  cfg := defaultParams
  irqEn := false
  cmd := 0
  phase := .idle
  done := false
  err := false
  errCode := 0
  srcAddr := 0
  srcLen := 0
  dstAddr := 0
  dstCap := 0
  resultLen := 0
  resultAux := 0
  errInfo := 0
  lCmd := 0
  lSrc := 0
  lSLen := 0
  lDst := 0
  lDCap := 0
  work := Work.reset
  mem := []
  resetHeld := false
  raced := false
  inputs := []
  rdata := 0
  mdata := []
  draws := 0

end Sys2Proof.Machine
end

