-- ==== Sys2Proof/Machine/Bytes.lean ====
section
/-! DEFINITION. Multi-byte values inside a command's data, assembled by the command's endianness (00_scope R9, 20_memory
R74), and the byte sequences of rule R7. A byte past the end of a sequence reads 0; every rule checks its bounds first. -/

namespace Sys2Proof.Machine

/-- The byte of a sequence at index `i`. -/
def byteAt (b : List Byte) (i : Nat) : Byte := b.getD i 0

/-- `b[a..c)` (00_scope R7): empty when `c ≤ a`. -/
def slice (b : List Byte) (a c : Nat) : List Byte := (b.drop a).take (c - a)

/-- `get16(b, i, E)` (00_scope R9). -/
def get16 (b : List Byte) (i : Nat) : Endian → Nat
  | .big => (byteAt b i).toNat * 2 ^ 8 + (byteAt b (i + 1)).toNat
  | .little => (byteAt b (i + 1)).toNat * 2 ^ 8 + (byteAt b i).toNat

/-- `get32(b, i, E)` (00_scope R9). -/
def get32 (b : List Byte) (i : Nat) : Endian → Nat
  | .big => (byteAt b i).toNat * 2 ^ 24 + (byteAt b (i + 1)).toNat * 2 ^ 16
      + (byteAt b (i + 2)).toNat * 2 ^ 8 + (byteAt b (i + 3)).toNat
  | .little => (byteAt b (i + 3)).toNat * 2 ^ 24 + (byteAt b (i + 2)).toNat * 2 ^ 16
      + (byteAt b (i + 1)).toNat * 2 ^ 8 + (byteAt b i).toNat

/-- Byte `k` of a natural, byte 0 the least significant. -/
def natByte (v k : Nat) : Byte := BitVec.ofNat 8 (v >>> (8 * k))

/-- `put16(v, E)`: two bytes holding `v mod 2^16` (00_scope R9). -/
def put16 (v : Nat) : Endian → List Byte
  | .big => [natByte v 1, natByte v 0]
  | .little => [natByte v 0, natByte v 1]

/-- `put32(v, E)`: four bytes holding `v mod 2^32` (00_scope R9). -/
def put32 (v : Nat) : Endian → List Byte
  | .big => [natByte v 3, natByte v 2, natByte v 1, natByte v 0]
  | .little => [natByte v 0, natByte v 1, natByte v 2, natByte v 3]

end Sys2Proof.Machine
end

