-- ==== Sys2Proof/Machine/Des.lean ====
section
/-! DEFINITION. The Data Encryption Standard block cipher of FIPS PUB 46-3 (00_scope R12), PRESUMED (log 8): the spec
names the standard and pins it by vectors (95 §2.1). DES bit 1 is the most significant bit. -/

namespace Sys2Proof.Machine

/-- Selects bits of `x` by a table of DES bit numbers (1 is the most significant bit of `x`), first entry first. -/
def permute {n : Nat} (m : Nat) (tbl : List Nat) (x : BitVec n) : BitVec m :=
  BitVec.ofNat m (tbl.foldl (fun acc p => 2 * acc + (x.getMsbD (p - 1)).toNat) 0)

/-- Initial permutation IP. -/
def desIp : List Nat :=
  [58, 50, 42, 34, 26, 18, 10, 2, 60, 52, 44, 36, 28, 20, 12, 4] ++
  [62, 54, 46, 38, 30, 22, 14, 6, 64, 56, 48, 40, 32, 24, 16, 8] ++
  [57, 49, 41, 33, 25, 17, 9, 1, 59, 51, 43, 35, 27, 19, 11, 3] ++
  [61, 53, 45, 37, 29, 21, 13, 5, 63, 55, 47, 39, 31, 23, 15, 7]

/-- Final permutation, the inverse of IP. -/
def desFp : List Nat :=
  [40, 8, 48, 16, 56, 24, 64, 32, 39, 7, 47, 15, 55, 23, 63, 31] ++
  [38, 6, 46, 14, 54, 22, 62, 30, 37, 5, 45, 13, 53, 21, 61, 29] ++
  [36, 4, 44, 12, 52, 20, 60, 28, 35, 3, 43, 11, 51, 19, 59, 27] ++
  [34, 2, 42, 10, 50, 18, 58, 26, 33, 1, 41, 9, 49, 17, 57, 25]

/-- Expansion E, 32 bits to 48. -/
def desExpand : List Nat :=
  [32, 1, 2, 3, 4, 5, 4, 5, 6, 7, 8, 9, 8, 9, 10, 11, 12, 13, 12, 13, 14, 15, 16, 17] ++
  [16, 17, 18, 19, 20, 21, 20, 21, 22, 23, 24, 25, 24, 25, 26, 27, 28, 29, 28, 29, 30, 31, 32, 1]

/-- Permutation P of the round function. -/
def desP : List Nat :=
  [16, 7, 20, 21, 29, 12, 28, 17, 1, 15, 23, 26, 5, 18, 31, 10] ++
  [2, 8, 24, 14, 32, 27, 3, 9, 19, 13, 30, 6, 22, 11, 4, 25]

/-- Permuted choice 1, 64 key bits to 56: the parity bits 8, 16, … 64 do not occur. -/
def desPc1 : List Nat :=
  [57, 49, 41, 33, 25, 17, 9, 1, 58, 50, 42, 34, 26, 18, 10, 2, 59, 51, 43, 35, 27, 19, 11, 3, 60, 52, 44, 36] ++
  [63, 55, 47, 39, 31, 23, 15, 7, 62, 54, 46, 38, 30, 22, 14, 6, 61, 53, 45, 37, 29, 21, 13, 5, 28, 20, 12, 4]

/-- Permuted choice 2, 56 bits to a 48-bit subkey. -/
def desPc2 : List Nat :=
  [14, 17, 11, 24, 1, 5, 3, 28, 15, 6, 21, 10, 23, 19, 12, 4, 26, 8, 16, 7, 27, 20, 13, 2] ++
  [41, 52, 31, 37, 47, 55, 30, 40, 51, 45, 33, 48, 44, 49, 39, 56, 34, 53, 46, 42, 50, 36, 29, 32]

/-- The left shifts of the 16 rounds of the key schedule. -/
def desShifts : List Nat := [1, 1, 2, 2, 2, 2, 2, 2, 1, 2, 2, 2, 2, 2, 2, 1]

/-- The S-boxes S1 to S8, each its four rows of sixteen values one after another. -/
def desSBoxes : List (List Nat) :=
  [ [14, 4, 13, 1, 2, 15, 11, 8, 3, 10, 6, 12, 5, 9, 0, 7, 0, 15, 7, 4, 14, 2, 13, 1, 10, 6, 12, 11, 9, 5, 3, 8] ++
    [4, 1, 14, 8, 13, 6, 2, 11, 15, 12, 9, 7, 3, 10, 5, 0, 15, 12, 8, 2, 4, 9, 1, 7, 5, 11, 3, 14, 10, 0, 6, 13],
    [15, 1, 8, 14, 6, 11, 3, 4, 9, 7, 2, 13, 12, 0, 5, 10, 3, 13, 4, 7, 15, 2, 8, 14, 12, 0, 1, 10, 6, 9, 11, 5] ++
    [0, 14, 7, 11, 10, 4, 13, 1, 5, 8, 12, 6, 9, 3, 2, 15, 13, 8, 10, 1, 3, 15, 4, 2, 11, 6, 7, 12, 0, 5, 14, 9],
    [10, 0, 9, 14, 6, 3, 15, 5, 1, 13, 12, 7, 11, 4, 2, 8, 13, 7, 0, 9, 3, 4, 6, 10, 2, 8, 5, 14, 12, 11, 15, 1] ++
    [13, 6, 4, 9, 8, 15, 3, 0, 11, 1, 2, 12, 5, 10, 14, 7, 1, 10, 13, 0, 6, 9, 8, 7, 4, 15, 14, 3, 11, 5, 2, 12],
    [7, 13, 14, 3, 0, 6, 9, 10, 1, 2, 8, 5, 11, 12, 4, 15, 13, 8, 11, 5, 6, 15, 0, 3, 4, 7, 2, 12, 1, 10, 14, 9] ++
    [10, 6, 9, 0, 12, 11, 7, 13, 15, 1, 3, 14, 5, 2, 8, 4, 3, 15, 0, 6, 10, 1, 13, 8, 9, 4, 5, 11, 12, 7, 2, 14] ] ++
  [ [2, 12, 4, 1, 7, 10, 11, 6, 8, 5, 3, 15, 13, 0, 14, 9, 14, 11, 2, 12, 4, 7, 13, 1, 5, 0, 15, 10, 3, 9, 8, 6] ++
    [4, 2, 1, 11, 10, 13, 7, 8, 15, 9, 12, 5, 6, 3, 0, 14, 11, 8, 12, 7, 1, 14, 2, 13, 6, 15, 0, 9, 10, 4, 5, 3],
    [12, 1, 10, 15, 9, 2, 6, 8, 0, 13, 3, 4, 14, 7, 5, 11, 10, 15, 4, 2, 7, 12, 9, 5, 6, 1, 13, 14, 0, 11, 3, 8] ++
    [9, 14, 15, 5, 2, 8, 12, 3, 7, 0, 4, 10, 1, 13, 11, 6, 4, 3, 2, 12, 9, 5, 15, 10, 11, 14, 1, 7, 6, 0, 8, 13],
    [4, 11, 2, 14, 15, 0, 8, 13, 3, 12, 9, 7, 5, 10, 6, 1, 13, 0, 11, 7, 4, 9, 1, 10, 14, 3, 5, 12, 2, 15, 8, 6] ++
    [1, 4, 11, 13, 12, 3, 7, 14, 10, 15, 6, 8, 0, 5, 9, 2, 6, 11, 13, 8, 1, 4, 10, 7, 9, 5, 0, 15, 14, 2, 3, 12],
    [13, 2, 8, 4, 6, 15, 11, 1, 10, 9, 3, 14, 5, 0, 12, 7, 1, 15, 13, 8, 10, 3, 7, 4, 12, 5, 6, 11, 0, 14, 9, 2] ++
    [7, 11, 4, 1, 9, 12, 14, 2, 0, 6, 10, 13, 15, 3, 5, 8, 2, 1, 14, 7, 4, 10, 8, 13, 15, 12, 9, 0, 3, 5, 6, 11] ]

/-- The value of one S-box on a 6-bit input: the outer bits select the row, the inner four the column. -/
def desSBox (box : List Nat) (x : Nat) : Nat := box.getD (32 * (x / 32) + 16 * (x % 2) + x / 2 % 16) 0

/-- The eight S-boxes on 48 bits, S1 on the most significant six. -/
def desSubstitute (x : BitVec 48) : BitVec 32 :=
  BitVec.ofNat 32 ((List.range 8).foldl
    (fun acc i => 16 * acc + desSBox (desSBoxes.getD i []) (x.toNat / 2 ^ (42 - 6 * i) % 64)) 0)

/-- The round function `f(R, K)`. -/
def desRound (r : BitVec 32) (k : BitVec 48) : BitVec 32 :=
  permute 32 desP (desSubstitute (permute 48 desExpand r ^^^ k))

/-- Rotation of a 28-bit half of the key schedule to the left. -/
def desRotate (x : BitVec 28) (n : Nat) : BitVec 28 := (x <<< n) ||| (x >>> (28 - n))

/-- The subkeys of the remaining rounds from the halves `C`, `D`. -/
def desKeySchedule (c d : BitVec 28) : List Nat → List (BitVec 48)
  | [] => []
  | n :: rest =>
    let c' := desRotate c n
    let d' := desRotate d n
    permute 48 desPc2 (c' ++ d' : BitVec 56) :: desKeySchedule c' d' rest

/-- The sixteen subkeys of a key, in encryption order. -/
def desSubkeys (key : BitVec 64) : List (BitVec 48) :=
  let cd : BitVec 56 := permute 56 desPc1 key
  desKeySchedule (cd.extractLsb' 28 28) (cd.extractLsb' 0 28) desShifts

/-- The rounds: `(L, R)` becomes `(R, L xor f(R, K))` for each subkey. -/
def desRounds : List (BitVec 48) → BitVec 32 → BitVec 32 → BitVec 32 × BitVec 32
  | [], l, r => (l, r)
  | k :: rest, l, r => desRounds rest r (l ^^^ desRound r k)

/-- The cipher on one block under a list of subkeys: IP, the rounds, the final swap of halves, the inverse of IP. -/
def desCrypt (keys : List (BitVec 48)) (x : BitVec 64) : BitVec 64 :=
  let y : BitVec 64 := permute 64 desIp x
  let lr := desRounds keys (y.extractLsb' 32 32) (y.extractLsb' 0 32)
  permute 64 desFp (lr.2 ++ lr.1 : BitVec 64)

/-- `DES_E(K, x)` on a 64-bit block (00_scope R12). -/
def desEncryptBlock (key x : BitVec 64) : BitVec 64 := desCrypt (desSubkeys key) x

/-- `DES_D(K, x)` on a 64-bit block (00_scope R12): the subkeys in reverse order. -/
def desDecryptBlock (key x : BitVec 64) : BitVec 64 := desCrypt (desSubkeys key).reverse x

/-- Eight bytes as a DES block, byte 0 bit 7 being DES bit 1 (00_scope R12). -/
def blockOfBytes (b : List Byte) : BitVec 64 :=
  BitVec.ofNat 64 (b.foldl (fun acc x => 256 * acc + x.toNat) 0)

/-- A DES block as eight bytes, the same way (00_scope R12). -/
def bytesOfBlock (x : BitVec 64) : List Byte :=
  [x.extractLsb' 56 8, x.extractLsb' 48 8, x.extractLsb' 40 8, x.extractLsb' 32 8] ++
  [x.extractLsb' 24 8, x.extractLsb' 16 8, x.extractLsb' 8 8, x.extractLsb' 0 8]

/-- DES-ECB framing over the first `m` 8-byte blocks: each block on its own, no chaining, no padding (30_encoding R101). -/
def ecb (f : BitVec 64 → BitVec 64) : Nat → List Byte → List Byte
  | 0, _ => []
  | m + 1, b => bytesOfBlock (f (blockOfBytes (b.take desBlock))) ++ ecb f m (b.drop desBlock)

end Sys2Proof.Machine
end

