-- ==== Sys2Proof/Machine/Flags.lean ====
section
/-! DEFINITION. The flags: the `STATUS` and `CTRL` words, the error codes' numbers and the interrupt wire. -/

namespace Sys2Proof.Machine

/-- The number of an error code in `STATUS.ERRCODE` (60_exceptions R250). -/
def ErrCode.number : ErrCode → BitVec 8
  | .invalidSize => 0x01#8
  | .decryptionFailure => 0x02#8
  | .integrityMismatch => 0x03#8
  | .badCommand => 0x10#8
  | .badRegion => 0x11#8
  | .dstOverflow => 0x12#8
  | .srcUnderrun => 0x13#8
  | .badMatch => 0x14#8
  | .badLength => 0x15#8
  | .busError => 0x16#8

/-- Every error code the block can report (60_exceptions R250; the others are reserved, R251). -/
def ErrCode.all : List ErrCode :=
  [.invalidSize, .decryptionFailure, .integrityMismatch, .badCommand, .badRegion, .dstOverflow, .srcUnderrun,
    .badMatch, .badLength, .busError]

/-- `STATUS.BUSY` (10_state R37, R53). -/
def State.busy (s : State) : Bool := s.phase == .busy

/-- The word a read of `STATUS` returns (10_state R37): reserved bits 31:16 and 7:3 read 0. -/
def State.statusWord (s : State) : Word :=
  (0#16 ++ s.errCode ++ 0#5 ++ BitVec.ofBool s.err ++ BitVec.ofBool s.done ++ BitVec.ofBool s.busy : BitVec 32)

/-- The word a read of `CTRL` returns: `IRQ_EN << 2` (10_state R32). -/
def State.ctrlWord (s : State) : Word := (0#29 ++ BitVec.ofBool s.irqEn ++ 0#2 : BitVec 32)

/-- The interrupt output, an active-high level (10_state R58, 60_exceptions R266). -/
def State.irq (s : State) : Bool := s.irqEn && (s.done || s.err)

end Sys2Proof.Machine
end

