-- ==== Sys2Proof/Machine/Ops.lean ====
section
/-! DEFINITION. The named operations: sorted sparse lists, bus memory and the bus's answers, starting a command, the two
completions (the block's exception entry and its normal end), the acknowledgement (its return) and the soft reset. -/

namespace Sys2Proof.Machine

/-! ### Sparse lists sorted by key -/

/-- The entry at key `k`. -/
def sparseFind {α : Type} (k : Nat) : List (Nat × α) → Option α
  | [] => none
  | c :: rest => if c.1 = k then some c.2 else sparseFind k rest

/-- Sets the entry at key `k`, keys staying in rising order. -/
def sparseSet {α : Type} (k : Nat) (v : α) : List (Nat × α) → List (Nat × α)
  | [] => [(k, v)]
  | c :: rest =>
    if k < c.1 then (k, v) :: c :: rest
    else if c.1 = k then (k, v) :: rest
    else c :: sparseSet k v rest

/-- Removes every entry at key `k`. -/
def sparseErase {α : Type} (k : Nat) (l : List (Nat × α)) : List (Nat × α) := l.filter (fun c => c.1 ≠ k)

/-! ### Bus memory -/

/-- What an address that nothing has written reads as. DESIGN CHOICE (log 1): the spec gives no contents. -/
def Memory.unlisted : Byte := 0#8

/-- The byte at bus address `a` (`MemRead(a, 1)`, 20_memory R72). -/
def Memory.read (m : Memory) (a : Nat) : Byte := (sparseFind a m).getD Memory.unlisted

/-- Stores byte `v` at bus address `a` (`MemWrite(a, 1, v)`, 20_memory R72), in canonical form. -/
def Memory.write (m : Memory) (a : Nat) (v : Byte) : Memory :=
  if v = Memory.unlisted then sparseErase a m else sparseSet a v m

/-- The `n` bytes from bus address `a` on. -/
def Memory.readBytes (m : Memory) (a : Nat) : Nat → List Byte
  | 0 => []
  | n + 1 => Memory.read m a :: Memory.readBytes m (a + 1) n

/-- Stores a byte sequence from bus address `a` on, ascending. -/
def Memory.writeBytes (m : Memory) (a : Nat) : List Byte → Memory
  | [] => m
  | b :: rest => Memory.writeBytes (Memory.write m a b) (a + 1) rest

/-- The canonical form of memory: addresses rise strictly, lie in the bus memory space, and no entry equals what an
unlisted address reads as. -/
abbrev Memory.wf (m : Memory) : Prop :=
  m.Pairwise (fun c c' => c.1 < c'.1) ∧ ∀ c ∈ m, c.1 < addrSpace ∧ c.2 ≠ Memory.unlisted

/-! ### The bus's answers -/

/-- Why a command does not complete successfully: `raise ERR(code, info)` (60_exceptions R255), or the bus never answers. -/
inductive Stop where
  | error (code : ErrCode) (info : Nat)
  | stall
  deriving DecidableEq, Repr

/-- The address lies in the span. -/
def spanHas (r : Span) (a : Nat) : Bool := r.base ≤ a && a < r.base + r.size

/-- The bus's answer to one access, where it is not served: `BUS_ERROR` with the address (20_memory R73), or none ever. -/
def busStop (cfg : Params) (a : Nat) (k : AccessKind) : Option Stop :=
  match cfg.busRules.find? (fun r => decide (r.kind = k) && spanHas r.span a) with
  | none => none
  | some r =>
    match r.answer with
    | .error => some (.error .busError a)
    | .never => some .stall

/-- The first access of an ordered sequence that the bus does not serve (60_exceptions R253, R254). -/
def firstStop (cfg : Params) : List (Nat × AccessKind) → Option Stop
  | [] => none
  | x :: rest =>
    match busStop cfg x.1 x.2 with
    | some st => some st
    | none => firstStop cfg rest

/-- One of the accesses that the bus does not serve, where their order is not fixed: a free choice among them, made by
draw `t` (60_exceptions R254, 93 U16). -/
def anyStop (cfg : Params) (t : Nat) (accs : List (Nat × AccessKind)) : Option Stop :=
  match accs.filterMap (fun x => busStop cfg x.1 x.2) with
  | [] => none
  | [st] => some st
  | st :: rest => some ((st :: rest).getD (Config.freeChoice t 0 % (rest.length + 1)) st)

/-- The accesses of one kind to the `n` addresses from `a` on. -/
def accesses (k : AccessKind) (a n : Nat) : List (Nat × AccessKind) := (List.range n).map (fun i => (a + i, k))

/-- The accesses that assemble one multi-byte value: in ascending order for Big, as `get16` and `get32` write them; for
Little the order is left open (log 13). -/
def valueStop (cfg : Params) (t : Nat) (e : Endian) (a n : Nat) : Option Stop :=
  match e with
  | .big => firstStop cfg (accesses .read a n)
  | .little => anyStop cfg t (accesses .read a n)

/-! ### START -/

/-- START (10_state R33, R48): the operands are latched, the flags and results cleared, `BUSY` set, in one step. -/
def State.start (s : State) : State :=
  { s with
    lCmd := s.cmd, lSrc := s.srcAddr, lSLen := s.srcLen, lDst := s.dstAddr, lDCap := s.dstCap
    done := false, err := false, errCode := 0
    resultLen := 0, resultAux := 0, errInfo := 0
    phase := .busy, raced := false }

/-! ### Completion -/

/-- Error completion, `raise ERR(code, info)` (60_exceptions R255): the block's exception entry. It saves no state and
sends control nowhere (R257). -/
def State.fail (s : State) (code : ErrCode) (info : Nat) : State :=
  { s with
    errCode := code.number, errInfo := BitVec.ofNat 32 info
    resultLen := 0, resultAux := 0
    err := true, done := false, phase := .idle
    raced := false, draws := s.draws + 1 }

/-- Successful completion (60_exceptions R256). -/
def State.succeed (s : State) (len aux : Nat) : State :=
  { s with
    resultLen := BitVec.ofNat 32 len, resultAux := BitVec.ofNat 32 aux
    errInfo := 0, errCode := 0
    done := true, err := false, phase := .idle
    raced := false }

/-- The bytes of `[lDST, lDST + lDCAP)` that exist (20_memory R71), each a free value of draw `s.draws`. -/
def State.freeDest (s : State) : List Byte :=
  (List.range (min s.lDCap.toNat (addrSpace - s.lDst.toNat))).map (Config.freeByte s.draws)

/-- Every byte of the destination region `[lDST, lDST + lDCAP)` becomes a free value of draw `s.draws` and no other byte
changes (20_memory R78, 70_reset R282; 93 U10, U15). DESIGN CHOICE (log 39): after a late error this covers source bytes too,
where the region reaches past `Dr` into the source; R78 says so, against R79. -/
def State.scramble (s : State) : State :=
  { s with mem := Memory.writeBytes s.mem s.lDst.toNat s.freeDest }

/-- The completion of a command whose regions another agent wrote while it ran (20_memory R80, 93 U11): every byte it may
write and every result register is a free value; it is a completion, so exactly one of `DONE` and `ERR` is 1 and no
reserved code is reported (10_state R39, 60_exceptions R251). -/
def State.completeRaced (s : State) (mayWrite : Bool) : State :=
  let t := s.draws
  let s' := if mayWrite then s.scramble else s
  let ok : Bool := Config.freeChoice t 1 % 2 = 0
  { s' with
    resultLen := Config.freeWord t 0, resultAux := Config.freeWord t 1, errInfo := Config.freeWord t 2
    errCode := if ok then 0 else (ErrCode.all.getD (Config.freeChoice t 2 % 10) .badCommand).number
    done := ok, err := !ok, phase := .idle
    raced := false, draws := t + 1 }

/-- How a command's execution phase ends. -/
inductive Ending where
  /-- it stores `out` from `lDST` on and completes successfully with these results -/
  | done (out : List Byte) (len aux : Nat) (work : Work)
  /-- it ends early; `dirty` says that a destination write came before (20_memory R78) -/
  | stopped (why : Stop) (dirty : Bool)
  deriving DecidableEq, Repr

/-- An error of the checks a command makes before any memory access: no byte of memory changes (20_memory R78). -/
def State.failChecks (s : State) (code : ErrCode) (info : Nat) : State :=
  if s.raced then s.completeRaced false else s.fail code info

/-- The completion step of a command that has passed those checks (60_exceptions R255, R256; 20_memory R78, R80).
DESIGN CHOICE (log 38): whether a raced command meets an access that the bus never answers is decided by the bytes found at
completion, before the race is looked at. -/
def State.complete (s : State) (hasDest : Bool) : Ending → Host.Outcome State Fault Refusal
  | .stopped .stall _ => .fault .busNeverAnswers
  | .stopped (.error code info) dirty =>
    if s.raced then .next (s.completeRaced hasDest)
    else if dirty then .next (s.scramble.fail code info)
    else .next (s.fail code info)
  | .done out len aux work =>
    if s.raced then .next (s.completeRaced hasDest)
    else .next ({ s with mem := Memory.writeBytes s.mem s.lDst.toNat out, work := work }.succeed len aux)

/-! ### Acknowledgement and reset -/

/-- A write of `v` to `STATUS` (10_state R38): bit 1 clears `DONE`, bit 2 clears `ERR` and `ERRCODE`. It is what the block
has in place of a return from an exception (60_exceptions R258). -/
def State.acknowledge (s : State) (v : Word) : State :=
  { s with
    done := s.done && !v.getLsbD 1
    err := s.err && !v.getLsbD 2
    errCode := if v.getLsbD 2 then 0 else s.errCode }

/-- Every register and flag at its value of 10_state R59; what R59 leaves unspecified (latches, working state) is kept,
and the key is not affected (R55, 70_reset R283). -/
def State.resetRegs (s : State) : State :=
  { s with
    irqEn := false, cmd := 0, phase := .idle, done := false, err := false, errCode := 0
    srcAddr := 0, srcLen := 0, dstAddr := 0, dstCap := 0
    resultLen := 0, resultAux := 0, errInfo := 0, raced := false }

end Sys2Proof.Machine
end

