-- ==== Sys2Proof/Machine/Operands.lean ====
section
/-! DEFINITION. The operands of a command (the latched registers, 30_encoding R93), its regions and their checks, and the
shared shape of every command: checks, then execution, then one completion. -/

namespace Sys2Proof.Machine

/-- `lSRC` as an unbounded natural (00_scope R8). -/
def State.src (s : State) : Nat := s.lSrc.toNat
/-- `lSLEN`. -/
def State.slen (s : State) : Nat := s.lSLen.toNat
/-- `lDST`. -/
def State.dst (s : State) : Nat := s.lDst.toNat
/-- `lDCAP`. -/
def State.dcap (s : State) : Nat := s.lDCap.toNat

/-- The bytes `SRC[0 .. lSLEN)` (20_memory R72). -/
def State.srcBytes (s : State) : List Byte := Memory.readBytes s.mem s.src s.slen

/-- How a command uses a destination (20_memory R76, R77). -/
inductive DestUse where
  | none     -- `VERIFY`, `VERIFY_AC1350`
  | cipher   -- `lSLEN` bytes, in place allowed
  | digest   -- 16 bytes
  | codec    -- up to `lDCAP` bytes
  deriving DecidableEq, Repr

/-- The command has a destination (20_memory R76 step 2). -/
def DestUse.hasDest : DestUse → Bool
  | .none => false
  | _ => true

/-- The destination use of each command (20_memory R77). -/
def destUse : Instr → DestUse
  | .desDecrypt _ _ => .cipher
  | .desEncrypt _ _ => .cipher
  | .verify _ _ => .none
  | .verifyAc1350 _ _ => .none
  | .digest _ _ => .digest
  | .decompress _ _ => .codec
  | .compress _ _ => .codec

/-- `Sr = [lSRC, lSRC + lSLEN)` (20_memory R77). -/
def State.srcSpan (s : State) : Span := ⟨s.src, s.slen⟩

/-- The destination range `Dr` of 20_memory R77. -/
def State.destSpan (s : State) : DestUse → Span
  | .none => ⟨s.dst, 0⟩
  | .cipher => ⟨s.dst, s.slen⟩
  | .digest => ⟨s.dst, digestLen⟩
  | .codec => ⟨s.dst, s.dcap⟩

/-- The destination region `[lDST, lDST + lDCAP)` (00_scope R14), empty for a command without one. -/
def State.destRegion (s : State) (u : DestUse) : Span := ⟨s.dst, if u.hasDest then s.dcap else 0⟩

/-- Two ranges share an address (20_memory R77); an empty range overlaps nothing. -/
def spansOverlap (a b : Span) : Bool :=
  0 < a.size && 0 < b.size && a.base < b.base + b.size && b.base < a.base + a.size

/-- The overlap rule of 20_memory R77 is kept. -/
def State.overlapLegal (s : State) : DestUse → Bool
  | .none => true
  | .cipher => s.dst == s.src || !spansOverlap (s.destSpan .cipher) s.srcSpan
  | .digest => !spansOverlap (s.destSpan .digest) s.srcSpan
  | .codec => !spansOverlap (s.destSpan .codec) s.srcSpan

/-- The region checks in their order (20_memory R76): the `ERR_INFO` of the `BAD_REGION` error, if one is due. -/
def State.regionError (s : State) (u : DestUse) : Option Nat :=
  if addrSpace < s.src + s.slen then some 0
  else if u.hasDest && addrSpace < s.dst + s.dcap then some 1
  else if !s.overlapLegal u then some 2
  else none

/-- The register window `[CCE_BASE, CCE_BASE + 64)` (10_state R30), and the part of it past `2^32`, empty unless
`CCE_BASE` is above `2^32 - 64`. DESIGN CHOICE (log 36): the spec says nothing of such a window; it wraps to address 0, as
the offsets of register accesses do (log 27). -/
def regWindows (cfg : Params) : List Span := [⟨cfg.cceBase.toNat, 64⟩, ⟨0, cfg.cceBase.toNat + 64 - addrSpace⟩]

/-- The address lies in the register window. -/
def inWindow (cfg : Params) (a : Nat) : Bool := (regWindows cfg).any (fun r => spanHas r a)

/-- The source or destination region is no ordinary memory (20_memory R82): it covers a byte of the block's own register
window (wrapped where it passes `2^32`, log 36) or of a device. -/
def State.regionNotMemory (s : State) (u : DestUse) : Bool :=
  (regWindows s.cfg ++ s.cfg.devices).any (fun r => spansOverlap s.srcSpan r || spansOverlap (s.destRegion u) r)

/-- Every command (60_exceptions R253): the region checks, then the command's own checks `own` that read no memory, then
its execution `body` and one completion. A command whose regions are no ordinary memory is refused before its first
access (20_memory R82). -/
def State.runCommand (s : State) (u : DestUse) (own : Option (ErrCode × Nat)) (body : Ending) :
    Host.Outcome State Fault Refusal :=
  match s.regionError u with
  | some info => .next (s.failChecks .badRegion info)
  | none =>
    match own with
    | some (code, info) => .next (s.failChecks code info)
    | none => if s.regionNotMemory u then .refused .regionNotMemory else s.complete u.hasDest body

end Sys2Proof.Machine
end

