-- ==== Sys2Proof/Machine/Cipher.lean ====
section
/-! DEFINITION. The CipherFrame commands DES_DECRYPT and DES_ENCRYPT (40_cipher). -/

namespace Sys2Proof.Machine

/-- Steps 3 to 5 of the checking phase (40_cipher R131). -/
def cipherChecks (s : State) (decrypting : Bool) : Option (ErrCode × Nat) :=
  if s.slen % desBlock ≠ 0 then some (.invalidSize, s.slen)
  else if decrypting && s.slen == 0 then some (.decryptionFailure, 0)
  else if s.dcap < s.slen then some (.dstOverflow, s.slen)
  else none

/-- The memory accesses of a cipher command: every source byte is read and every output byte written, the blocks in any
order (40_cipher R132). -/
def cipherAccesses (s : State) : List (Nat × AccessKind) :=
  accesses .read s.src s.slen ++ accesses .write s.dst s.slen

/-- Some block can be read whole, so its writes may come before the access that is not served (40_cipher R132). -/
def cipherMayHaveWritten (s : State) : Bool :=
  (List.range (s.slen / desBlock)).any
    (fun j => (firstStop s.cfg (accesses .read (s.src + desBlock * j) desBlock)).isNone)

/-- The execution phase of both cipher commands with block function `f` (40_cipher R132). Each block is read whole before
it is written, so in place the output is that of the bytes at the start (20_memory R79). -/
def cipherBody (s : State) (f : BitVec 64 → BitVec 64 → BitVec 64) : Ending :=
  match anyStop s.cfg s.draws (cipherAccesses s) with
  | some st => .stopped st (cipherMayHaveWritten s)
  | none =>
    .done (ecb (f s.cfg.desKey) (s.slen / desBlock) s.srcBytes) s.slen 0
      { s.work with block := s.slen / desBlock }

/-- DES_DECRYPT (40_cipher R133): `LE` and `OVL` are ignored. -/
def execDesDecrypt (_le : Endian) (_ovl : Bool) (s : State) : Host.Outcome State Fault Refusal :=
  s.runCommand .cipher (cipherChecks s true) (cipherBody s desDecryptBlock)

/-- DES_ENCRYPT (40_cipher R136): `LE` and `OVL` are ignored. -/
def execDesEncrypt (_le : Endian) (_ovl : Bool) (s : State) : Host.Outcome State Fault Refusal :=
  s.runCommand .cipher (cipherChecks s false) (cipherBody s desEncryptBlock)

end Sys2Proof.Machine
end

