-- ==== Sys2Proof/Machine/Codec.lean ====
section
/-! DEFINITION. The BitDictionaryCodec commands DECOMPRESS and COMPRESS (42_codec; the stream format is 30_encoding R104
to R109). -/

namespace Sys2Proof.Machine

/-! ### DECOMPRESS -/

/-- What a decompression reads besides its working state: the bus, the draw of its free values, its regions, the source
bytes and the byte order. -/
structure DecJob where
  cfg  : Params
  draw : Nat
  lSrc : Nat
  lDst : Nat
  src  : List Byte
  e    : Endian
  deriving DecidableEq, Repr

/-- The decompression the latched operands ask for. -/
def State.decJob (s : State) (e : Endian) : DecJob :=
  { cfg := s.cfg, draw := s.draws, lSrc := s.src, lDst := s.dst, src := s.srcBytes, e := e }

/-- One access on the bus, before anything that depends on it. -/
def DecJob.access (j : DecJob) (a : Nat) (k : AccessKind) : Except Stop Unit :=
  match busStop j.cfg a k with
  | some st => .error st
  | none => .ok ()

/-- `getbyte()` (42_codec R170). -/
def getByte (j : DecJob) (w : DecState) : Except Stop (Byte × DecState) :=
  if j.src.length ≤ w.s then .error (.error .srcUnderrun w.s)
  else do
    j.access (j.lSrc + w.s) .read
    .ok (byteAt j.src w.s, { w with s := w.s + 1 })

/-- The fetch of the next control word, where the window is exhausted (42_codec R172). -/
def fetchWindow (j : DecJob) (w : DecState) : Except Stop DecState :=
  if w.cnt ≠ 0 then .ok w
  else if j.src.length < w.s + 2 then .error (.error .srcUnderrun w.s)
  else
    match valueStop j.cfg j.draw j.e (j.lSrc + w.s) 2 with
    | some st => .error st
    | none => .ok { w with win := BitVec.ofNat 16 (get16 j.src w.s j.e), s := w.s + 2, cnt := windowBits }

/-- `getbit()` (42_codec R172): bit 15 of a control word first, bit 0 last. -/
def getBit (j : DecJob) (w : DecState) : Except Stop (Bool × DecState) := do
  let w ← fetchWindow j w
  .ok (w.win.getLsbD (w.cnt - 1), { w with cnt := w.cnt - 1 })

/-- The loop of `dict_ld()` (42_codec R173) with at most `fuel` iterations; 32 suffice (70_reset R293), since the
accumulator at least doubles in each. -/
def dictLoop (j : DecJob) : Nat → DecState → Except Stop (Nat × DecState)
  | 0, w => .error (.error .badMatch w.d)
  | fuel + 1, w =>
    if 2 ^ 31 ≤ w.acc then .error (.error .badMatch w.d)
    else do
      let (b, w) ← getBit j w
      let w := { w with acc := 2 * w.acc + b.toNat }
      let (more, w) ← getBit j w
      if more then dictLoop j fuel w else .ok (w.acc, w)

/-- `dict_ld()` (42_codec R173): the accumulator starts at 1. -/
def dictLd (j : DecJob) (w : DecState) : Except Stop (Nat × DecState) := dictLoop j 32 { w with acc := 1 }

/-- The match copy (42_codec R175, R182): `len` bytes from output index `r` on, one at a time, each read after all
earlier bytes were written. `out` holds the output bytes written so far. -/
def copyMatch (j : DecJob) : Nat → Nat → List Byte → Except Stop (List Byte)
  | 0, _, out => .ok out
  | len + 1, r, out => do
    j.access (j.lDst + r) .read
    j.access (j.lDst + out.length) .write
    copyMatch j len (r + 1) (out ++ [byteAt out r])

/-- One match token after its flag bit (42_codec R175, R181). -/
def decMatch (j : DecJob) (w : DecState) (out : List Byte) : Except Stop (List Byte × DecState) := do
  let (v1, w) ← dictLd j w
  let (v2, w) ← dictLd j w
  let (lo, w) ← getByte j w
  let len := v1 + 2
  let dist := lo.toNat + 1 + (v2 - 2) * 2 ^ 8
  if w.d < dist ∨ w.size < w.d + len then .error (.error .badMatch w.d)
  else do
    let out ← copyMatch j len (w.d - dist) out
    .ok (out, { w with d := w.d + len })

/-- One literal token after its flag bit (42_codec R175). -/
def decLiteral (j : DecJob) (w : DecState) (out : List Byte) : Except Stop (List Byte × DecState) := do
  let (b, w) ← getByte j w
  j.access (j.lDst + w.d) .write
  .ok (out ++ [b], { w with d := w.d + 1 })

/-- One token (42_codec R175). -/
def decToken (j : DecJob) (w : DecState) (out : List Byte) : Except Stop (List Byte × DecState) := do
  let (flag, w) ← getBit j w
  if flag then decMatch j w out else decLiteral j w out

/-- The main loop (42_codec R175), at most `fuel` tokens; `size` suffice, since each produces a byte. -/
def decLoop (j : DecJob) : Nat → DecState → List Byte → Except Stop (List Byte × DecState)
  | 0, w, out => .ok (out, w)
  | fuel + 1, w, out =>
    if w.size ≤ w.d then .ok (out, w)
    else do
      let (out, w) ← decToken j w out
      decLoop j fuel w out

/-- Steps 3 to 6 of the checking phase (42_codec R174), before any destination write: the seed literal and the working
state at the start of the loop. DESIGN CHOICE (log 40): the header and the seed are memory reads in a checking phase, which
60_exceptions R254 says reads no memory; a bus error on one is `BUS_ERROR` at its place in R174's order, memory unchanged. -/
def decHeader (j : DecJob) (cap : Nat) : Except Stop (Byte × DecState) :=
  match valueStop j.cfg j.draw j.e j.lSrc 4 with
  | some st => .error st
  | none =>
    let size := get32 j.src 0 j.e
    if size = 0 then .error (.error .badLength 0)
    else if cap < size then .error (.error .dstOverflow size)
    else getByte j { s := 4, d := 0, win := 0, cnt := 0, acc := 1, size := size }

/-- The writing phase (42_codec R175), from the write of the seed literal on. -/
def decWrite (j : DecJob) (b0 : Byte) (w : DecState) : Except Stop (List Byte × DecState) := do
  j.access j.lDst .write
  decLoop j w.size { w with d := 1 } [b0]

/-- The check of `DECOMPRESS` that reads no memory (42_codec R174 step 2). -/
def decompressChecks (s : State) : Option (ErrCode × Nat) :=
  if s.slen < 4 then some (.srcUnderrun, 0) else none

/-- The execution of `DECOMPRESS` after that check (42_codec R174, R175). -/
def decompressBody (s : State) (e : Endian) : Ending :=
  match decHeader (s.decJob e) s.dcap with
  | .error st => .stopped st false
  | .ok (b0, w0) =>
    match decWrite (s.decJob e) b0 w0 with
    | .error st => .stopped st true
    | .ok (out, w) => .done out w.size w.s { s.work with dec := w }

/-- DECOMPRESS (42_codec R176): `OVL` is ignored. -/
def execDecompress (le : Endian) (_ovl : Bool) (s : State) : Host.Outcome State Fault Refusal :=
  s.runCommand .codec (decompressChecks s) (decompressBody s le)

/-! ### COMPRESS -/

/-- The hash of source position `p` (42_codec R192). -/
def hashAt (src : List Byte) (p : Nat) : Nat :=
  ((((byteAt src p).toNat * hashK + (byteAt src (p + 1)).toNat) * hashK + (byteAt src (p + 2)).toNat) * hashK
    + (byteAt src (p + 3)).toNat) % hashSlots

/-- `out[pos .. pos+2) <- b` for a two-byte sequence `b` (42_codec R193, R197). -/
def patch (out : List Byte) (pos : Nat) (b : List Byte) : List Byte :=
  (out.set pos (byteAt b 0)).set (pos + 1) (byteAt b 1)

/-- The flush of a full window when the next bit arrives, and the new window at the current write cursor (42_codec R193). -/
def flushWindow (e : Endian) (c : CompState) : CompState :=
  if c.wcnt = windowBits then
    { c with
      out := patch c.out c.wpos (put16 c.wbits.toNat e) ++ [0#8, 0#8]
      wpos := c.out.length, wbits := 0, wcnt := 0 }
  else c

/-- `putbit(b)` (42_codec R193). -/
def putBit (e : Endian) (b : Bool) (c : CompState) : CompState :=
  let c := flushWindow e c
  { c with wbits := (c.wbits <<< 1) ||| (BitVec.ofBool b).setWidth 16, wcnt := c.wcnt + 1 }

/-- The payload and continuation bits of `put_dict(v)` for the `k` low bits of `v` (42_codec R194). -/
def putDictBits (e : Endian) (v : Nat) : Nat → CompState → CompState
  | 0, c => c
  | k + 1, c => putDictBits e v k (putBit e (decide (0 < k)) (putBit e (v.testBit k) c))

/-- `put_dict(v)` for `v ≥ 2` (42_codec R194, 30_encoding R107). -/
def putDict (e : Endian) (v : Nat) (c : CompState) : CompState := putDictBits e v (Nat.log2 v) c

/-- `out <- out ++ [b]`. -/
def putByte (b : Byte) (c : CompState) : CompState := { c with out := c.out ++ [b] }

/-- The lazy insertion of `k` source positions from `p` on, ascending: a later position overwrites (42_codec R195). -/
def insertRange (src : List Byte) : Nat → Nat → HashTable → HashTable
  | 0, _, t => t
  | k + 1, p, t => insertRange src k (p + 1) (sparseSet (hashAt src p) p t)

/-- The byte-by-byte extension of a match from length `len` on, at most `fuel` bytes (42_codec R195). -/
def extendMatch (src : List Byte) (q cur : Nat) : Nat → Nat → Nat
  | 0, len => len
  | fuel + 1, len =>
    if cur + len < src.length ∧ byteAt src (q + len) = byteAt src (cur + len) then
      extendMatch src q cur fuel (len + 1)
    else len

/-- The insertion before a probe: every position below the cursor is in the table (42_codec R195). -/
def insertPending (src : List Byte) (c : CompState) : CompState :=
  { c with table := insertRange src (c.cur - c.h) c.h c.table, h := c.cur }

/-- The match at the cursor, where the probe finds one that is accepted: its source position and length (42_codec R195). -/
def findMatch (src : List Byte) (c : CompState) : Option (Nat × Nat) :=
  match sparseFind (hashAt src c.cur) c.table with
  | none => none
  | some q =>
    let len := extendMatch src q c.cur (src.length - c.cur) 0
    if minMatch ≤ len ∨ c.cur + len = src.length then some (q, len) else none

/-- The literal token (42_codec R195). -/
def putLiteral (src : List Byte) (e : Endian) (c : CompState) : CompState :=
  let c := putByte (byteAt src c.cur) (putBit e false c)
  { c with cur := c.cur + 1 }

/-- The match token of length `len` from position `q` (42_codec R195); with `OVL = 0` the insertion pointer jumps to the
new cursor (R196). -/
def putMatch (e : Endian) (ovl : Bool) (q len : Nat) (c : CompState) : CompState :=
  let dist := c.cur - q
  let c := putDict e ((dist - 1) / 2 ^ 8 + 2) (putDict e (len - 2) (putBit e true c))
  let c := putByte (BitVec.ofNat 8 (dist - 1)) c
  { c with cur := c.cur + len, h := if ovl then c.h else c.cur + len }

/-- One round of the main loop (42_codec R195): near the end only literals, without a probe (R199). DEDUCED (log 42): an
accepted match may run to the end of the data (R195, R198, R203), although R200 (f) says that the last 4 bytes are always
literals. -/
def compToken (src : List Byte) (e : Endian) (ovl : Bool) (c : CompState) : CompState :=
  if src.length - c.cur < tailLiterals then putLiteral src e c
  else
    let c := insertPending src c
    match findMatch src c with
    | some (q, len) => putMatch e ovl q len c
    | none => putLiteral src e c

/-- The main loop (42_codec R195), at most `fuel` tokens; the source length suffices, since each covers a byte. -/
def compLoop (src : List Byte) (e : Endian) (ovl : Bool) : Nat → CompState → CompState
  | 0, c => c
  | fuel + 1, c => if src.length ≤ c.cur then c else compLoop src e ovl fuel (compToken src e ovl c)

/-- The initial state of the compressor (42_codec R190): header, seed literal, reserved control word, every slot EMPTY. -/
def compInit (src : List Byte) (e : Endian) : CompState :=
  { cur := 1, h := 0, out := put32 src.length e ++ [byteAt src 0] ++ [0#8, 0#8], wpos := 5, wbits := 0, wcnt := 0
    table := [] }

/-- The flush of the final window, left-shifted so that its unused bits are 0 (42_codec R197). -/
def compFinish (e : Endian) (c : CompState) : CompState :=
  { c with out := patch c.out c.wpos (put16 (c.wbits <<< (windowBits - c.wcnt)).toNat e) }

/-- The compressor on a source of at least one byte (42_codec R190 to R197): its final working state, `out` complete. -/
def compressRun (src : List Byte) (e : Endian) (ovl : Bool) : CompState :=
  compFinish e (compLoop src e ovl src.length (compInit src e))

/-- The compressed stream of a source of at least one byte (42_codec R191). -/
def compressBytes (src : List Byte) (e : Endian) (ovl : Bool) : List Byte := (compressRun src e ovl).out

/-- The check of `COMPRESS` that reads no memory (42_codec R190). -/
def compressChecks (s : State) : Option (ErrCode × Nat) :=
  if s.slen = 0 then some (.badLength, 0) else none

/-- The end of `COMPRESS` once its output is complete (42_codec R197). Where the output overflows and a byte of it that
fits meets a bus error, which of the two is reported is a free choice (60_exceptions R254, 93 U17). DESIGN CHOICE (log 13):
R197 names no order of the writes `DST[0 .. |out|) <- out` and lets them be made progressively, so where several of them are
not served, which one is reported is a free choice among them. -/
def compressEnd (s : State) (c : CompState) : Ending :=
  let overflow := Stop.error .dstOverflow s.dcap
  match anyStop s.cfg s.draws (accesses .write s.dst (min c.out.length s.dcap)), decide (s.dcap < c.out.length) with
  | none, false => .done c.out c.out.length 0 { s.work with comp := c }
  | some st, false => .stopped st true
  | none, true => .stopped overflow true
  | some st, true => .stopped (if Config.freeChoice s.draws 3 % 2 = 0 then st else overflow) true

/-- The execution of `COMPRESS` (42_codec R191). The pseudocode touches the source bytes for the first time in ascending
order and touches all of them (log 13), so the first access that is not served is the lowest one; an implementation may
have written output by then (R197). -/
def compressBody (s : State) (e : Endian) (ovl : Bool) : Ending :=
  match firstStop s.cfg (accesses .read s.src s.slen) with
  | some st => .stopped st true
  | none => compressEnd s (compressRun s.srcBytes e ovl)

/-- COMPRESS (42_codec R191). -/
def execCompress (le : Endian) (ovl : Bool) (s : State) : Host.Outcome State Fault Refusal :=
  s.runCommand .codec (compressChecks s) (compressBody s le ovl)

end Sys2Proof.Machine
end

