-- ==== Sys2Proof/Machine/Md5.lean ====
section
/-! DEFINITION. The MD5 message digest of RFC 1321 (00_scope R13), PRESUMED (log 9): the spec names the standard and pins
it by vectors (95 §2.2). -/

namespace Sys2Proof.Machine

/-- The additive constants of the 64 steps. -/
def md5Table : List Nat :=
  [0xd76aa478, 0xe8c7b756, 0x242070db, 0xc1bdceee, 0xf57c0faf, 0x4787c62a, 0xa8304613, 0xfd469501] ++
  [0x698098d8, 0x8b44f7af, 0xffff5bb1, 0x895cd7be, 0x6b901122, 0xfd987193, 0xa679438e, 0x49b40821] ++
  [0xf61e2562, 0xc040b340, 0x265e5a51, 0xe9b6c7aa, 0xd62f105d, 0x02441453, 0xd8a1e681, 0xe7d3fbc8] ++
  [0x21e1cde6, 0xc33707d6, 0xf4d50d87, 0x455a14ed, 0xa9e3e905, 0xfcefa3f8, 0x676f02d9, 0x8d2a4c8a] ++
  [0xfffa3942, 0x8771f681, 0x6d9d6122, 0xfde5380c, 0xa4beea44, 0x4bdecfa9, 0xf6bb4b60, 0xbebfbc70] ++
  [0x289b7ec6, 0xeaa127fa, 0xd4ef3085, 0x04881d05, 0xd9d4d039, 0xe6db99e5, 0x1fa27cf8, 0xc4ac5665] ++
  [0xf4292244, 0x432aff97, 0xab9423a7, 0xfc93a039, 0x655b59c3, 0x8f0ccc92, 0xffeff47d, 0x85845dd1] ++
  [0x6fa87e4f, 0xfe2ce6e0, 0xa3014314, 0x4e0811a1, 0xf7537e82, 0xbd3af235, 0x2ad7d2bb, 0xeb86d391]

/-- The rotation of step `i`. -/
def md5Shift (i : Nat) : Nat :=
  match i / 16 with
  | 0 => [7, 12, 17, 22].getD (i % 4) 0
  | 1 => [5, 9, 14, 20].getD (i % 4) 0
  | 2 => [4, 11, 16, 23].getD (i % 4) 0
  | _ => [6, 10, 15, 21].getD (i % 4) 0

/-- The message word that step `i` uses. -/
def md5Index (i : Nat) : Nat :=
  match i / 16 with
  | 0 => i
  | 1 => (5 * i + 1) % 16
  | 2 => (3 * i + 5) % 16
  | _ => 7 * i % 16

/-- The auxiliary function of step `i` (RFC 1321 F, G, H, I). -/
def md5Mix (i : Nat) (b c d : Word) : Word :=
  match i / 16 with
  | 0 => (b &&& c) ||| (~~~b &&& d)
  | 1 => (b &&& d) ||| (c &&& ~~~d)
  | 2 => b ^^^ c ^^^ d
  | _ => c ^^^ (b ||| ~~~d)

/-- Rotation of a 32-bit word to the left by `0 < n < 32`. -/
def md5Rotate (x : Word) (n : Nat) : Word := (x <<< n) ||| (x >>> (32 - n))

/-- Step `i` on the message words `m`. -/
def md5Step (m : List Word) (st : Md5State) (i : Nat) : Md5State :=
  let f := st.a + md5Mix i st.b st.c st.d + BitVec.ofNat 32 (md5Table.getD i 0) + m.getD (md5Index i) 0
  { a := st.d, b := st.b + md5Rotate f (md5Shift i), c := st.b, d := st.c }

/-- The initial chaining state. -/
def md5Init : Md5State := ⟨0x67452301#32, 0xefcdab89#32, 0x98badcfe#32, 0x10325476#32⟩

/-- The sixteen words of a 64-byte chunk, each least significant byte first. -/
def md5Words (chunk : List Byte) : List Word :=
  (List.range 16).map (fun k => BitVec.ofNat 32 (get32 chunk (4 * k) .little))

/-- The compression of one 64-byte chunk into the chaining state. -/
def md5Chunk (st : Md5State) (chunk : List Byte) : Md5State :=
  let r := (List.range 64).foldl (md5Step (md5Words chunk)) st
  { a := st.a + r.a, b := st.b + r.b, c := st.c + r.c, d := st.d + r.d }

/-- The compression of the first `n` chunks of a padded message. -/
def md5Chunks : Nat → Md5State → List Byte → Md5State
  | 0, st, _ => st
  | n + 1, st, msg => md5Chunks n (md5Chunk st (msg.take 64)) (msg.drop 64)

/-- Padding: a byte `0x80`, zeros up to 56 modulo 64, and the length in bits modulo `2^64`, least significant byte first. -/
def md5Pad (msg : List Byte) : List Byte :=
  msg ++ (0x80#8 :: List.replicate ((119 - msg.length % 64) % 64) 0#8) ++
    (List.range 8).map (natByte (8 * msg.length))

/-- The chaining state after the whole message. -/
def md5State (msg : List Byte) : Md5State :=
  md5Chunks ((md5Pad msg).length / 64) md5Init (md5Pad msg)

/-- The digest of a chaining state: A, B, C, D, each least significant byte first (00_scope R13). -/
def md5Bytes (st : Md5State) : List Byte :=
  put32 st.a.toNat .little ++ put32 st.b.toNat .little ++ put32 st.c.toNat .little ++ put32 st.d.toNat .little

/-- `MD5(b)` (00_scope R13). -/
def md5 (msg : List Byte) : List Byte := md5Bytes (md5State msg)

end Sys2Proof.Machine
end

