-- ==== Sys2Proof/Machine/Integrity.lean ====
section
/-! DEFINITION. The IntegrityVerifier commands VERIFY, VERIFY_AC1350 and DIGEST (41_integrity). -/

namespace Sys2Proof.Machine

/-- The trailing-length probe (41_integrity R151): the first of the candidates `i, i + 1, …` (as many as the first
argument says) whose region `src[16 .. n - i)` has the stored digest `src[0..16)`; a candidate shorter than the digest
is not tested. -/
def probeTrailing (src : List Byte) : Nat → Nat → Option Nat
  | 0, _ => none
  | fuel + 1, i =>
    if i + digestLen ≤ src.length ∧ md5 (slice src digestLen (src.length - i)) = src.take digestLen then some i
    else probeTrailing src fuel (i + 1)

/-- The check of `VERIFY` that reads no memory (41_integrity R151): there is no complete stored digest. -/
def verifyChecks (s : State) : Option (ErrCode × Nat) :=
  if s.slen < digestLen then some (.integrityMismatch, 0) else none

/-- The execution phase of `VERIFY` (41_integrity R151). Candidate 0 covers the whole buffer, so every source byte is
read, in an order that is not fixed (60_exceptions R254). -/
def verifyBody (s : State) : Ending :=
  match anyStop s.cfg s.draws (accesses .read s.src s.slen) with
  | some st => .stopped st false
  | none =>
    match probeTrailing s.srcBytes probeMax 0 with
    | some i => .done [] 0 i { s.work with probe := i }
    | none => .stopped (.error .integrityMismatch 0) false

/-- VERIFY (41_integrity R152): `LE` and `OVL` are ignored, no memory is written. -/
def execVerify (_le : Endian) (_ovl : Bool) (s : State) : Host.Outcome State Fault Refusal :=
  s.runCommand .none (verifyChecks s) (verifyBody s)

/-- The check of `VERIFY_AC1350` that reads no memory (41_integrity R155). -/
def ac1350Checks (s : State) : Option (ErrCode × Nat) :=
  if s.slen < 20 then some (.integrityMismatch, 0) else none

/-- The end of the AC1350 covered region for length field `l` (41_integrity R156). -/
def regionEndOf (cfg : Params) (l : Nat) : Nat :=
  match cfg.regionEnd with
  | .fieldL => l
  | .twentyPlusL => 20 + l

/-- The execution phase of `VERIFY_AC1350` (41_integrity R156): the length field, the bound check that fails closed, then the
covered region and the stored digest, whose bytes are read in an order that is not fixed (20_memory R80, log 13). -/
def ac1350Body (s : State) (e : Endian) : Ending :=
  match valueStop s.cfg s.draws e (s.src + 16) 2 with
  | some st => .stopped st false
  | none =>
    let l := get16 s.srcBytes 16 e
    let stop := regionEndOf s.cfg l
    if stop < 20 ∨ s.slen < stop then .stopped (.error .integrityMismatch l) false
    else
      match anyStop s.cfg s.draws (accesses .read (s.src + 20) (stop - 20) ++ accesses .read s.src digestLen) with
      | some st => .stopped st false
      | none =>
        if md5 (slice s.srcBytes 20 stop) = s.srcBytes.take digestLen then .done [] 0 l { s.work with acLen := l }
        else .stopped (.error .integrityMismatch l) false

/-- VERIFY_AC1350 (41_integrity R157): `OVL` is ignored, no memory is written. -/
def execVerifyAc1350 (le : Endian) (_ovl : Bool) (s : State) : Host.Outcome State Fault Refusal :=
  s.runCommand .none (ac1350Checks s) (ac1350Body s le)

/-- The check of `DIGEST` that reads no memory (41_integrity R160). -/
def digestChecks (s : State) : Option (ErrCode × Nat) :=
  if s.dcap < digestLen then some (.dstOverflow, digestLen) else none

/-- The execution phase of `DIGEST` (41_integrity R160): the source is read, then the sixteen bytes are written, each in an
order that is not fixed (20_memory R80, log 13). -/
def digestBody (s : State) : Ending :=
  match anyStop s.cfg s.draws (accesses .read s.src s.slen) with
  | some st => .stopped st false
  | none =>
    match anyStop s.cfg s.draws (accesses .write s.dst digestLen) with
    | some st => .stopped st true
    | none =>
      let h := md5State s.srcBytes
      .done (md5Bytes h) digestLen 0 { s.work with md5 := h }

/-- DIGEST (41_integrity R161): `LE` and `OVL` are ignored. -/
def execDigest (_le : Endian) (_ovl : Bool) (s : State) : Host.Outcome State Fault Refusal :=
  s.runCommand .digest (digestChecks s) (digestBody s)

end Sys2Proof.Machine
end

