-- ==== Sys2Proof/Machine/Dispatch.lean ====
section
/-! DEFINITION. The dispatch: one arm per command, each one direct call of its meaning. -/

namespace Sys2Proof.Machine

def exec (i : Instr) (s : State) : Host.Outcome State Fault Refusal :=
  match i with
  | .desDecrypt le ovl => Sys2Proof.Machine.execDesDecrypt le ovl s
  | .desEncrypt le ovl => Sys2Proof.Machine.execDesEncrypt le ovl s
  | .verify le ovl => Sys2Proof.Machine.execVerify le ovl s
  | .verifyAc1350 le ovl => Sys2Proof.Machine.execVerifyAc1350 le ovl s
  | .digest le ovl => Sys2Proof.Machine.execDigest le ovl s
  | .decompress le ovl => Sys2Proof.Machine.execDecompress le ovl s
  | .compress le ovl => Sys2Proof.Machine.execCompress le ovl s

end Sys2Proof.Machine
end

