-- ==== Sys2Proof/WellFormed.lean ====
section
/-! DEFINITION. Which commands the host assembler can spell (30_encoding R121). The block itself runs every command,
well-formed or not: an ignored field changes nothing (R92). -/

namespace Sys2Proof

/-- The assembler's rule (30_encoding R121): `.LE` only on a command that uses `LE`, `.OVL` only on `COMPRESS`. -/
def Instr.wellFormed : Instr → Bool
  | .desDecrypt le ovl => le == .big && !ovl
  | .desEncrypt le ovl => le == .big && !ovl
  | .verify le ovl => le == .big && !ovl
  | .verifyAc1350 _ ovl => !ovl
  | .digest le ovl => le == .big && !ovl
  | .decompress _ ovl => !ovl
  | .compress _ _ => true

end Sys2Proof
end

