-- ==== Sys2Proof/Decode.lean ====
section
/-! DEFINITION. The decoder of the command word, total on every 32-bit word, and the encoder, both from the command
format and the opcode map (30_encoding R90, R91, R95). -/

namespace Sys2Proof

/-- Why a command word is illegal (30_encoding R95); either reason is the error `BAD_COMMAND`. -/
inductive DecodeError where
  | reservedBits  (rsv : BitVec 26)   -- `RSV` is not 0
  | illegalOpcode (op : BitVec 4)     -- `OP` is 0 or 8 to 15
  deriving DecidableEq, Repr

/-- Field `OP`, bits 3:0 (30_encoding R90). -/
def opField (w : Word) : BitVec 4 := w.extractLsb' 0 4

/-- Field `LE`, bit 4: 0 is Big, 1 is Little (30_encoding R90, 00_scope R10). -/
def leField (w : Word) : Endian := if w.getLsbD 4 then .little else .big

/-- Field `OVL`, bit 5 (30_encoding R90). -/
def ovlField (w : Word) : Bool := w.getLsbD 5

/-- Field `RSV`, bits 31:6 (30_encoding R90). -/
def rsvField (w : Word) : BitVec 26 := w.extractLsb' 6 26

/-- Decoding of a command word (30_encoding R91, R94, R95). -/
def decode (w : Word) : Except DecodeError Instr :=
  if rsvField w = 0 then
    match (opField w).toNat with
    | 1 => .ok (.desDecrypt (leField w) (ovlField w))
    | 2 => .ok (.desEncrypt (leField w) (ovlField w))
    | 3 => .ok (.verify (leField w) (ovlField w))
    | 4 => .ok (.verifyAc1350 (leField w) (ovlField w))
    | 5 => .ok (.digest (leField w) (ovlField w))
    | 6 => .ok (.decompress (leField w) (ovlField w))
    | 7 => .ok (.compress (leField w) (ovlField w))
    | _ => .error (.illegalOpcode (opField w))
  else .error (.reservedBits (rsvField w))

/-- Field `LE` of an instruction as a bit. -/
def Endian.bit : Endian → Bool
  | .big => false
  | .little => true

/-- A command word from its three fields, `RSV` 0 (30_encoding R90). -/
def commandWord (op : BitVec 4) (le : Endian) (ovl : Bool) : Word :=
  (0#26 ++ BitVec.ofBool ovl ++ BitVec.ofBool le.bit ++ op : BitVec 32)

/-- The command word of an instruction (30_encoding R90, R91). -/
def encode : Instr → Word
  | .desDecrypt le ovl => commandWord 1#4 le ovl
  | .desEncrypt le ovl => commandWord 2#4 le ovl
  | .verify le ovl => commandWord 3#4 le ovl
  | .verifyAc1350 le ovl => commandWord 4#4 le ovl
  | .digest le ovl => commandWord 5#4 le ovl
  | .decompress le ovl => commandWord 6#4 le ovl
  | .compress le ovl => commandWord 7#4 le ovl

/-- The instruction the decoder reads from the bits `w` of an opcode-table row; a command is one 32-bit word
(30_encoding R90), so bits at 32 and above are no command's. -/
def decodeTableWord (_nbits w : Nat) : Option Instr :=
  if w < addrSpace then (decode (BitVec.ofNat 32 w)).toOption else none

end Sys2Proof
end

