-- ==== Sys2Proof/Machine/HostPort.lean ====
section
/-! DEFINITION. What the outside does to the block: the register window, the reset input, and other agents' accesses to
bus memory. -/

namespace Sys2Proof.Machine

/-! ### The register window -/

/-- The registers of the window (10_state R30). -/
inductive Reg where
  | id
  | ctrl
  | cmd
  | status
  | srcAddr
  | srcLen
  | dstAddr
  | dstCap
  | resultLen
  | resultAux
  | errInfo
  | reserved   -- offsets `0x2C` to `0x3C`
  deriving DecidableEq, Repr

/-- The register at offset `4 * k` of the window (10_state R30), `k < 16`. -/
def regAt (k : Nat) : Reg :=
  match k with
  | 0 => .id
  | 1 => .ctrl
  | 2 => .cmd
  | 3 => .status
  | 4 => .srcAddr
  | 5 => .srcLen
  | 6 => .dstAddr
  | 7 => .dstCap
  | 8 => .resultLen
  | 9 => .resultAux
  | 10 => .errInfo
  | _ => .reserved

/-- The offset of a register in the window (10_state R30); `reserved` stands for its first offset. -/
def regOffset : Reg → Nat
  | .id => 0x00
  | .ctrl => 0x04
  | .cmd => 0x08
  | .status => 0x0C
  | .srcAddr => 0x10
  | .srcLen => 0x14
  | .dstAddr => 0x18
  | .dstCap => 0x1C
  | .resultLen => 0x20
  | .resultAux => 0x24
  | .errInfo => 0x28
  | .reserved => 0x2C

/-- The bus address of a register, `CCE_BASE + offset` (30_encoding R120). -/
def regAddr (cfg : Params) (r : Reg) : Word := cfg.cceBase + BitVec.ofNat 32 (regOffset r)

/-- The register that an access of `width` bytes at bus address `addr` reaches: only a 32-bit access at an offset that is
a multiple of 4 inside the window reaches one (10_state R30, R50). -/
def regOfAccess (cfg : Params) (addr : Word) (width : Nat) : Option Reg :=
  let off := (addr - cfg.cceBase).toNat
  if width = 4 ∧ off % 4 = 0 ∧ off < 64 then some (regAt (off / 4)) else none

/-- The value a register reads (10_state R31, R32, R36 to R46, R49). No read has a side effect (R51). -/
def State.readReg (s : State) : Reg → Word
  | .id => idWord
  | .ctrl => s.ctrlWord
  | .cmd => s.cmd
  | .status => s.statusWord
  | .srcAddr => s.srcAddr
  | .srcLen => s.srcLen
  | .dstAddr => s.dstAddr
  | .dstCap => s.dstCap
  | .resultLen => s.resultLen
  | .resultAux => s.resultAux
  | .errInfo => s.errInfo
  | .reserved => 0

/-! ### The running command -/

/-- The fetch of the block: decoding of the latched command word (30_encoding R94). -/
def State.fetch (s : State) : Except DecodeError Instr := decode s.lCmd

/-- The destination use of the running command; an illegal command word has none (30_encoding R95). -/
def State.runningUse (s : State) : DestUse :=
  match s.fetch with
  | .ok i => destUse i
  | .error _ => .none

/-- Another agent may not write this address: it lies in `Sr` or `Dr` of the running command (70_reset R286). An illegal
command word names no command and so no region (log 22). -/
def State.guarded (s : State) (a : Nat) : Bool :=
  s.busy && s.fetch.toBool && (spanHas s.srcSpan a || spanHas (s.destSpan s.runningUse) a)

/-- What this address holds is open while the command runs: it lies in the destination region (70_reset R286, R295). -/
def State.inFlux (s : State) (a : Nat) : Bool :=
  s.busy && (spanHas (s.destRegion s.runningUse) a || spanHas (s.destSpan s.runningUse) a)

/-- A reset while BUSY abandons the command, whichever it is: every byte of `[lDST, lDST + lDCAP)` becomes a free value
(70_reset R282). -/
def State.abandon (s : State) : State := if s.busy then { s.scramble with draws := s.draws + 1 } else s

/-- Soft reset (70_reset R283). -/
def State.softReset (s : State) : State := s.abandon.resetRegs

/-! ### Register writes -/

/-- A write of `v` to `CTRL` (10_state R32 to R35): `SRST` first, then START when not BUSY, and `IRQ_EN` from bit 2. -/
def State.writeCtrl (s : State) (v : Word) : State :=
  if v.getLsbD 1 then s.softReset
  else
    let s := { s with irqEn := v.getLsbD 2 }
    if v.getLsbD 0 && !s.busy then s.start else s

/-- A 32-bit write of `v` to a register (10_state R30). While BUSY the operand registers keep their values (R47). -/
def State.writeReg (s : State) (r : Reg) (v : Word) : State :=
  match r with
  | .ctrl => s.writeCtrl v
  | .status => s.acknowledge v
  | .cmd => if s.busy then s else { s with cmd := v }
  | .srcAddr => if s.busy then s else { s with srcAddr := v }
  | .srcLen => if s.busy then s else { s with srcLen := v }
  | .dstAddr => if s.busy then s else { s with dstAddr := v }
  | .dstCap => if s.busy then s else { s with dstCap := v }
  | .id => s
  | .resultLen => s
  | .resultAux => s
  | .errInfo => s
  | .reserved => s

/-- A store on the slave port: another width or alignment has no effect (10_state R50), nor has any while reset is
asserted (70_reset R280). -/
def State.storePort (s : State) (addr : Word) (width : Nat) (v : Word) : State :=
  if s.resetHeld then s
  else
    match regOfAccess s.cfg addr width with
    | some r => s.writeReg r v
    | none => s

/-- A load on the slave port, its value in `rdata`: a free value for another width or alignment (10_state R50) and while
reset is asserted (70_reset R280). -/
def State.loadPort (s : State) (addr : Word) (width : Nat) : State :=
  match regOfAccess s.cfg addr width, s.resetHeld with
  | some r, false => { s with rdata := s.readReg r }
  | _, _ => { s with rdata := Config.freeWord s.draws 0, draws := s.draws + 1 }

/-! ### Other agents on bus memory -/

/-- The access covers a byte of a device of the platform. -/
def State.hitsDevice (s : State) (a n : Nat) : Bool := s.cfg.devices.any (fun r => spansOverlap (Span.mk a n) r)

/-- Another agent stores one byte. A byte store into the register window has no effect (10_state R50); a store into a
region of the running command is a race (20_memory R80). -/
def State.agentStore (s : State) (a : Nat) (b : Byte) : State :=
  if inWindow s.cfg a then s
  else { s with mem := Memory.write s.mem a b, raced := s.raced || s.guarded a }

/-- Another agent stores bytes from address `a` on. -/
def State.agentStoreBytes (s : State) (a : Nat) : List Byte → State
  | [] => s
  | b :: rest => (s.agentStore a b).agentStoreBytes (a + 1) rest

/-- What another agent reads at an address: a free value in the register window (10_state R50) and in the destination
region of the running command (70_reset R286, R295). -/
def State.agentLoad (s : State) (a : Nat) : Byte :=
  if inWindow s.cfg a || s.inFlux a then Config.freeByte s.draws a else Memory.read s.mem a

/-- Another agent writes bus memory (`MEMW`, 30_encoding R120). DESIGN CHOICE (log 35): `busFault` (20_memory R73) speaks
of the block's accesses only, so no rule of `busRules` applies here and the bus serves every other agent. -/
def State.memWrite (s : State) (a : Nat) (bytes : List Byte) : Host.Outcome State Fault Refusal :=
  if addrSpace < a + bytes.length then .fault .noSuchAddress
  else if s.hitsDevice a bytes.length then .refused .deviceAccess
  else .next (s.agentStoreBytes a bytes)

/-- Another agent reads bus memory (`MEMR`, 30_encoding R120), the bytes in `mdata`. DESIGN CHOICE (log 35): as in
`State.memWrite`, no rule of `busRules` applies. -/
def State.memRead (s : State) (a n : Nat) : Host.Outcome State Fault Refusal :=
  if addrSpace < a + n then .fault .noSuchAddress
  else if s.hitsDevice a n then .refused .deviceAccess
  else .next { s with mdata := (List.range n).map (fun k => s.agentLoad (a + k)), draws := s.draws + 1 }

/-! ### The reset input -/

/-- The platform asserts reset (70_reset R280, R282): a running command is abandoned, and the registers already take their
reset values (log 17). -/
def State.assertReset (s : State) : State := { s.softReset with resetHeld := true }

/-- The platform deasserts reset: every piece of state holds its value of 10_state R59 (70_reset R280). -/
def State.releaseReset (s : State) : State := { s.softReset with resetHeld := false }

end Sys2Proof.Machine
end

