-- ==== Sys2Proof/Machine/Engine.lean ====
section
/-! DEFINITION. One step of the whole machine: the next input of the outside, or the engine's completion step. -/

namespace Sys2Proof.Machine

/-- The block's own step (10_state R53, 60_exceptions R275): idle it does nothing; busy it runs its command to completion
(20_memory R85). An illegal command word ends at once with `BAD_COMMAND` before any other check (30_encoding R95). -/
def State.engineStep (s : State) : Host.Outcome State Fault Refusal :=
  match s.phase with
  | .idle => .next s
  | .busy =>
    match s.fetch with
    | .error _ => .next (s.fail .badCommand s.lCmd.toNat)
    | .ok i => exec i s

/-- A `POLL` reads its register and is satisfied (30_encoding R120). -/
def State.pollHolds (s : State) (mask value : Word) : Bool := s.rdata &&& mask == value

/-- A step with input `x` at the head of the inputs and `rest` after it. A `POLL` that is not satisfied stays at the head
while the block takes its own step (log 34). -/
def State.inputStep (s : State) (x : Input) (rest : List Input) : Host.Outcome State Fault Refusal :=
  let t := { s with inputs := rest }
  match x with
  | .regWrite addr width v => .next (t.storePort addr width v)
  | .regRead addr width => .next (t.loadPort addr width)
  | .poll addr mask value =>
    let t := t.loadPort addr 4
    if t.pollHolds mask value then .next t else State.engineStep { t with inputs := x :: rest }
  | .memWrite a bytes => t.memWrite a bytes
  | .memRead a n => t.memRead a n
  | .resetAssert => .next t.assertReset
  | .resetRelease => .next t.releaseReset
  | .engine => t.engineStep

/-- One step: the outside moves while it has an input, else the block does (70_reset R292, weak fairness). -/
def State.advance (s : State) : Host.Outcome State Fault Refusal :=
  match s.inputs with
  | [] => s.engineStep
  | x :: rest => s.inputStep x rest

/-- The state with command word `w` started: `CMD` holds it and START has latched the operands (10_state R33, R48), no
input is pending and reset is not asserted, so that the next step runs it. -/
def State.startWord (s : State) (w : Word) : State :=
  { ({ s with cmd := w } : State).start with inputs := [], resetHeld := false }

end Sys2Proof.Machine
end

