-- ==== Sys2Proof/Machine/Step.lean ====
section
/-! DEFINITION. The step of the machine and the placing of an opcode-table word where the next step runs it. -/

namespace Sys2Proof.Machine

/-- One step of the machine. -/
def step (s : State) : Host.Outcome State Fault Refusal := s.advance

/-- The state in which the next step runs the command word `w`: the block fetches nothing (10_state R53), so this stands
for the host's write of `CMD` and of START (log 21). -/
def State.withFetchWord (s : State) (_nbits w : Nat) : State := s.startWord (BitVec.ofNat 32 w)

end Sys2Proof.Machine
end

