-- ==== Sys2Proof/Machine/HostAsm.lean ====
section
/-! DEFINITION. The host assembly of 30_encoding R120 to R123: statements, command mnemonics and pseudo-instructions, as
inputs of the machine. -/

namespace Sys2Proof.Machine

/-- A statement of a host program (30_encoding R120). -/
inductive Statement where
  | wr   (r : Reg) (value : Word)
  | rd   (r : Reg)
  | poll (r : Reg) (mask value : Word)
  | memw (addr : Nat) (bytes : List Byte)
  | memr (addr n : Nat)
  deriving DecidableEq, Repr

/-- The statement as an input of the machine: one 32-bit access to `CCE_BASE + offset` or a host access to memory. -/
def statementInput (cfg : Params) : Statement → Input
  | .wr r v => .regWrite (regAddr cfg r) 4 v
  | .rd r => .regRead (regAddr cfg r) 4
  | .poll r mask value => .poll (regAddr cfg r) mask value
  | .memw a bytes => .memWrite a bytes
  | .memr a n => .memRead a n

/-- The encoding column of 30_encoding R120: (offset, value), (offset) or (offset, mask, value). -/
def statementEncoding : Statement → List Word
  | .wr r v => [BitVec.ofNat 32 (regOffset r), v]
  | .rd r => [BitVec.ofNat 32 (regOffset r)]
  | .poll r mask value => [BitVec.ofNat 32 (regOffset r), mask, value]
  | .memw _ _ => []
  | .memr _ _ => []

/-- The mnemonic of a command (30_encoding R91). -/
def mnemonicOf : Instr → String
  | .desDecrypt _ _ => "DES_DECRYPT"
  | .desEncrypt _ _ => "DES_ENCRYPT"
  | .verify _ _ => "VERIFY"
  | .verifyAc1350 _ _ => "VERIFY_AC1350"
  | .digest _ _ => "DIGEST"
  | .decompress _ _ => "DECOMPRESS"
  | .compress _ _ => "COMPRESS"

/-- The option fields of a command. -/
def optionsOf : Instr → Endian × Bool
  | .desDecrypt le ovl => (le, ovl)
  | .desEncrypt le ovl => (le, ovl)
  | .verify le ovl => (le, ovl)
  | .verifyAc1350 le ovl => (le, ovl)
  | .digest le ovl => (le, ovl)
  | .decompress le ovl => (le, ovl)
  | .compress le ovl => (le, ovl)

/-- The spelling of a command (30_encoding R121), where the assembler accepts it. -/
def spelling (i : Instr) : Option String :=
  if i.wellFormed then
    some (mnemonicOf i ++ (if (optionsOf i).1 == .little then ".LE" else "") ++ (if (optionsOf i).2 then ".OVL" else ""))
  else none

/-- The command word the assembler emits; it refuses an option on a command that ignores it (30_encoding R121). -/
def assemble (i : Instr) : Option Word := if i.wellFormed then some (encode i) else none

/-- `RUN` and, with `irq`, `RUNI` (30_encoding R122): the destination stores may be left out for the verify commands. -/
def runStatements (irq : Bool) (i : Instr) (src slen : Word) (dest : Option (Word × Word)) : Option (List Statement) :=
  match assemble i, dest, (destUse i).hasDest with
  | some w, some (dst, dcap), _ =>
    some [.wr .srcAddr src, .wr .srcLen slen, .wr .dstAddr dst, .wr .dstCap dcap, .wr .cmd w,
      .wr .ctrl (0x1#32 ||| (BitVec.ofBool irq).setWidth 32 <<< 2)]
  | some w, none, false =>
    some [.wr .srcAddr src, .wr .srcLen slen, .wr .cmd w, .wr .ctrl (0x1#32 ||| (BitVec.ofBool irq).setWidth 32 <<< 2)]
  | _, _, _ => none

/-- `WAIT` (30_encoding R123): wait for `BUSY = 0`. -/
def waitStatement : Statement := .poll .status 0x1#32 0x0#32

/-- `ACK` (30_encoding R123): clear `DONE` and `ERR`. -/
def ackStatement : Statement := .wr .status 0x6#32

/-- `EXEC` (30_encoding R123): `RUN` followed by `WAIT`. -/
def execStatements (i : Instr) (src slen : Word) (dest : Option (Word × Word)) : Option (List Statement) :=
  (runStatements false i src slen dest).map (· ++ [waitStatement])

end Sys2Proof.Machine
end

