-- ==== Sys2Proof/Machine/Text.lean ====
section
/-! DEFINITION. Text on the host side: UTF-8 (48_host_procedures R222, R233, R237; PRESUMED, log 24) and the two
normalisations (R233, R236). -/

namespace Sys2Proof.Machine

/-- A byte from a natural below 256. -/
def natToByte (n : Nat) : Byte := BitVec.ofNat 8 n

/-- The UTF-8 bytes of one character. -/
def utf8Char (c : Char) : List Byte :=
  let n := c.toNat
  if n < 0x80 then [natToByte n]
  else if n < 0x800 then [natToByte (0xC0 + n / 64), natToByte (0x80 + n % 64)]
  else if n < 0x10000 then
    [natToByte (0xE0 + n / 4096), natToByte (0x80 + n / 64 % 64), natToByte (0x80 + n % 64)]
  else
    [natToByte (0xF0 + n / 262144), natToByte (0x80 + n / 4096 % 64), natToByte (0x80 + n / 64 % 64),
      natToByte (0x80 + n % 64)]

/-- `utf8_encode` (48_host_procedures R237). -/
def utf8Encode (t : List Char) : List Byte := t.flatMap utf8Char

/-- The six payload bits of a continuation byte. -/
def continuation (b : Byte) : Option Nat :=
  if 0x80 ≤ b.toNat ∧ b.toNat < 0xC0 then some (b.toNat - 0x80) else none

/-- The character of a code point that is at least `low` (the shortest form) and a Unicode scalar value. -/
def scalarFrom (low n : Nat) : Option Char :=
  if low ≤ n ∧ n.isValidChar then some (Char.ofNat n) else none

/-- The first character of a byte sequence and the bytes after it. -/
def utf8Next : List Byte → Option (Char × List Byte)
  | [] => none
  | b :: rest =>
    let n := b.toNat
    if n < 0x80 then some (Char.ofNat n, rest)
    else if 0xC0 ≤ n ∧ n < 0xE0 then do
      let k1 ← rest.head?.bind continuation
      let c ← scalarFrom 0x80 ((n - 0xC0) * 64 + k1)
      some (c, rest.drop 1)
    else if 0xE0 ≤ n ∧ n < 0xF0 then do
      let k1 ← rest.head?.bind continuation
      let k2 ← (rest.drop 1).head?.bind continuation
      let c ← scalarFrom 0x800 ((n - 0xE0) * 4096 + k1 * 64 + k2)
      some (c, rest.drop 2)
    else if 0xF0 ≤ n ∧ n < 0xF8 then do
      let k1 ← rest.head?.bind continuation
      let k2 ← (rest.drop 1).head?.bind continuation
      let k3 ← (rest.drop 2).head?.bind continuation
      let c ← scalarFrom 0x10000 ((n - 0xF0) * 262144 + k1 * 4096 + k2 * 64 + k3)
      some (c, rest.drop 3)
    else none

/-- Decoding of at most `fuel` characters; `none` for bytes that are not valid UTF-8. -/
def utf8Loop : Nat → List Byte → Option (List Char)
  | _, [] => some []
  | 0, _ :: _ => none
  | fuel + 1, b :: rest => do
    let (c, rest) ← utf8Next (b :: rest)
    let t ← utf8Loop fuel rest
    some (c :: t)

/-- `utf8_decode` (48_host_procedures R233): a character takes at least one byte. -/
def utf8Decode (b : List Byte) : Option (List Char) := utf8Loop b.length b

/-- The white space of the encode trim (48_host_procedures R236). -/
def isTrimSpace (c : Char) : Bool :=
  let n := c.toNat
  (0x9 ≤ n && n ≤ 0xD) || n == 0x20 || n == 0x85 || n == 0xA0 || n == 0x1680 || (0x2000 ≤ n && n ≤ 0x200A)
    || n == 0x2028 || n == 0x2029 || n == 0x202F || n == 0x205F || n == 0x3000 || n == 0xFEFF

/-- Removes every trailing character with property `p`. -/
def dropTrailing (p : Char → Bool) (t : List Char) : List Char := (t.reverse.dropWhile p).reverse

/-- The character U+0000. -/
def nul : Char := Char.ofNat 0

/-- The normalisation before encoding (48_host_procedures R236): trim, drop every trailing NUL, append one. -/
def normaliseEncode (t : List Char) : List Char :=
  dropTrailing (· == nul) (dropTrailing isTrimSpace (t.dropWhile isTrimSpace)) ++ [nul]

/-- The text `x'` the self-check compares with (48_host_procedures R242): the final NUL replaced by a line feed. -/
def selfCheckText (t : List Char) : List Char := (normaliseEncode t).dropLast ++ [Char.ofNat 0x0A]

/-- The normalisation after decoding (48_host_procedures R233): a last byte `00` becomes `0A`, only that one. -/
def normaliseDecode (b : List Byte) : List Byte :=
  if b.getLast? = some 0x00#8 then b.dropLast ++ [0x0A#8] else b

end Sys2Proof.Machine
end

