-- ==== Sys2Proof/Machine/HostProcedures.lean ====
section
/-! DEFINITION. The host procedures of 48_host_procedures (EndiannessDetector, FormatRegistry, ConfigCodec) as functions
that run host programs on the machine. They are host software, not part of the block (00_scope R5). -/

namespace Sys2Proof.Machine

/-- The error kinds of a host procedure (48_host_procedures R220). -/
inductive HostError where
  | invalidSize
  | sizeTooLarge
  | unrecognisedFormat
  | integrityMismatch
  | roundTripMismatch
  | decryptionFailure
  deriving DecidableEq, Repr

/-- The reading of the EndiannessDetector, host parameter `ENDIAN_RULE` (48_host_procedures R222). -/
inductive EndianRule where
  | literal16    -- the default
  | size32at16
  deriving DecidableEq, Repr

/-- The host parameters (48_host_procedures R222). `DECODE_CAP` is OPEN; `hostExec` cuts it to 32 bits (log 41). -/
structure HostParams where
  /-- `ENDIAN_RULE`, `literal16` by default -/
  endianRule : EndianRule := .literal16
  /-- `DECODE_CAP` -/
  decodeCap  : Nat
  deriving DecidableEq, Repr

/-- The host parameters at their defaults (48_host_procedures R222), for a `DECODE_CAP`, which has none. -/
def defaultHostParams (decodeCap : Nat) : HostParams := { decodeCap := decodeCap }

/-- `ENDIAN_LIMIT` (48_host_procedures R222). -/
abbrev endianLimit : Nat := 0x20000

/-- The four on-disk variants (48_host_procedures R227). -/
inductive Variant where
  | uncompressed
  | w9970
  | w9980W8980
  | ac1350
  deriving DecidableEq, Repr

/-- The `format` string of a variant (48_host_procedures R246). -/
def variantName : Variant → String
  | .uncompressed => "Uncompressed"
  | .w9970 => "W9970"
  | .w9980W8980 => "W9980_W8980"
  | .ac1350 => "AC1350"

/-- What decode returns (48_host_procedures R234). -/
structure Document where
  xml          : List Char
  littleEndian : Bool
  format       : Variant
  deriving DecidableEq, Repr

/-- The host's buffers (48_host_procedures R235, R239, R242): text, frame, the copy the self-check decodes, output. -/
structure HostBuffers where
  text  : Nat
  frame : Nat
  copy  : Nat
  out   : Nat
  deriving DecidableEq, Repr

/-! ### Pure parts -/

/-- The host error kind of a block error (48_host_procedures R221), on encode or on decode. -/
def hostErrorOf (encoding : Bool) (code : BitVec 8) : HostError :=
  if code = ErrCode.number .invalidSize then .invalidSize
  else if code = ErrCode.number .decryptionFailure then .decryptionFailure
  else if code = ErrCode.number .integrityMismatch then .integrityMismatch
  else if encoding then .roundTripMismatch
  else .decryptionFailure

/-- `infer(P)` (48_host_procedures R223, R224). The bytes a 32-bit reading finds past the end of a short buffer are free
values of draw `t`: the spec states none. -/
def inferEndian (rule : EndianRule) (t : Nat) (p : List Byte) : Except HostError Endian :=
  match rule with
  | .literal16 =>
    if p.length < 2 then .ok .big
    else if endianLimit < get16 p 0 .big then
      if endianLimit < get16 p 0 .little then .error .sizeTooLarge else .ok .little
    else .ok .big
  | .size32at16 =>
    let q := p ++ (List.range 20).map (Config.freeByte t)
    if endianLimit ≤ get32 q 16 .big then
      if endianLimit ≤ get32 q 16 .little then .error .sizeTooLarge else .ok .little
    else .ok .big

/-- The probe pattern `PAT` (48_host_procedures R227). -/
def probePattern : List Byte := [0x3C#8, 0x00#8, 0x00#8, 0x3F#8, 0x78#8, 0x6D#8, 0x6C#8]

/-- ASCII `<?xml`, the pattern of `Uncompressed` (48_host_procedures R227). -/
def xmlPattern : List Byte := [0x3C#8, 0x3F#8, 0x78#8, 0x6D#8, 0x6C#8]

/-- `match(P)` (48_host_procedures R227): the first true predicate wins; a range past the end is false. -/
def matchFormat (p : List Byte) : Option Variant :=
  if slice p 16 21 = xmlPattern then some .uncompressed
  else if slice p 20 27 = probePattern then some .w9970
  else if slice p 22 29 = probePattern then some .w9980W8980
  else if slice p 24 31 = probePattern then some .ac1350
  else none

/-- The least multiple of 8 that is at least `n`. -/
def roundUp8 (n : Nat) : Nat := n + (8 - n % 8) % 8

/-- The size of the encode frame buffer (48_host_procedures R239) for a text of `n` bytes. DESIGN CHOICE (log 37): the rule
says `at least` and gives no size above `2^24`; the model's host takes the least size, and `16 + 3n + 4` for every larger
text, which `hostExec` then cuts to the 32 bits of `DST_CAP`. -/
def frameCapacity (n : Nat) : Nat :=
  if n ≤ 65536 then roundUp8 (16 + 2 * n + 6) else roundUp8 (16 + 3 * n + 4)

/-! ### Running host programs -/

/-- A host procedure: from a state to a result or an error kind and the state it leaves, unless the machine stops. -/
abbrev HostProc (α : Type) := State → Host.Outcome (Except HostError α × State) Fault Refusal

/-- The procedure that returns a value. -/
def hostReturn {α : Type} (a : α) : HostProc α := fun s => .next (.ok a, s)

/-- The procedure that fails: every error is terminal (48_host_procedures R220). -/
def hostFail {α : Type} (e : HostError) : HostProc α := fun s => .next (.error e, s)

/-- One procedure after another, stopping at the first error (48_host_procedures R220, R247). -/
def hostThen {α β : Type} (p : HostProc α) (k : α → HostProc β) : HostProc β := fun s =>
  match p s with
  | .next (.ok a, t) => k a t
  | .next (.error e, t) => .next (.error e, t)
  | .fault r => .fault r
  | .refused r => .refused r

/-- At most `fuel` steps of the machine, until its inputs are used up. -/
def runInputs : Nat → HostProc Unit
  | 0, s => .next (.ok (), s)
  | fuel + 1, s =>
    if s.inputs = [] then .next (.ok (), s)
    else
      match s.advance with
      | .next t => runInputs fuel t
      | .fault r => .fault r
      | .refused r => .refused r

/-- Runs a host program on the block, the host being the only agent (log 24): an input takes one step, a `WAIT` two. -/
def hostRun (prog : List Statement) : HostProc Unit := fun s =>
  runInputs (2 * prog.length) { s with inputs := prog.map (statementInput s.cfg) }

/-- `RD` of a register. -/
def hostReadReg (r : Reg) : HostProc Word :=
  hostThen (hostRun [.rd r]) fun _ s => .next (.ok s.rdata, s)

/-- `MEMR`. -/
def hostReadMem (a n : Nat) : HostProc (List Byte) :=
  hostThen (hostRun [.memr a n]) fun _ s => .next (.ok s.mdata, s)

/-- `EXEC` of a command, then `RD STATUS`: `ERR = 1` fails the procedure (48_host_procedures R221), else `ACK` clears the
flags (R235). DESIGN CHOICE (log 41): addresses, lengths and capacities, `DECODE_CAP` among them, are cut to the 32 bits of
their registers. -/
def hostExec (encoding : Bool) (i : Instr) (src slen : Nat) (dest : Option (Nat × Nat)) : HostProc Unit :=
  let word := BitVec.ofNat 32
  match execStatements i (word src) (word slen) (dest.map fun d => (word d.1, word d.2)) with
  | none => hostFail (hostErrorOf encoding 0)
  | some prog =>
    hostThen (hostRun prog) fun _ =>
      hostThen (hostReadReg .status) fun st =>
        if st.getLsbD 2 then hostFail (hostErrorOf encoding (st.extractLsb' 8 8)) else hostRun [ackStatement]

/-! ### Decode -/

/-- `DECOMPRESS[.LE]` of the stream at `[src, src + n)` into the output buffer, and the payload it leaves. -/
def hostDecompress (hp : HostParams) (e : Endian) (src n out : Nat) : HostProc (List Byte) :=
  hostThen (hostExec false (.decompress e false) src n (some (out, hp.decodeCap))) fun _ =>
    hostThen (hostReadReg .resultLen) fun len => hostReadMem out len.toNat

/-- Extractor `Uncompressed` (48_host_procedures R229). -/
def extractUncompressed (b n : Nat) : HostProc (List Byte) :=
  hostThen (hostExec false (.verify .big false) b n none) fun _ => hostReadMem (b + 16) (n - 16)

/-- Extractor `W9970` (48_host_procedures R230). -/
def extractW9970 (hp : HostParams) (b n out : Nat) (e : Endian) : HostProc (List Byte) :=
  hostThen (hostExec false (.verify .big false) b n none) fun _ => hostDecompress hp e (b + 16) (n - 16) out

/-- Extractor `W9980_W8980` (48_host_procedures R231). -/
def extractW9980 (hp : HostParams) (b n out : Nat) (e : Endian) : HostProc (List Byte) :=
  hostThen (hostDecompress hp e b n out) fun p =>
    hostThen (hostExec false (.verify .big false) out p.length none) fun _ => hostReturn (p.drop 16)

/-- Extractor `AC1350` (48_host_procedures R232): the stream starts at byte 20. -/
def extractAc1350 (hp : HostParams) (b n out : Nat) (e : Endian) : HostProc (List Byte) :=
  hostThen (hostExec false (.verifyAc1350 e false) b n none) fun _ => hostDecompress hp e (b + 20) (n - 20) out

/-- The extractor of a variant (48_host_procedures R228). -/
def extract (hp : HostParams) (v : Variant) (b n out : Nat) (e : Endian) : HostProc (List Byte) :=
  match v with
  | .uncompressed => extractUncompressed b n
  | .w9970 => extractW9970 hp b n out e
  | .w9980W8980 => extractW9980 hp b n out e
  | .ac1350 => extractAc1350 hp b n out e

/-- The end of decode: normalisation, UTF-8, the document (48_host_procedures R233, R234). -/
def documentOf (payload : List Byte) (e : Endian) (v : Variant) : HostProc Document :=
  match utf8Decode (normaliseDecode payload) with
  | none => hostFail .decryptionFailure
  | some t => hostReturn { xml := t, littleEndian := e == .little, format := v }

/-- `decode(B, n)` (48_host_procedures R225, R235) with output buffer `out`. -/
def hostDecode (hp : HostParams) (b n out : Nat) : HostProc Document :=
  if n % 8 ≠ 0 then hostFail .invalidSize
  else
    hostThen (hostExec false (.desDecrypt .big false) b n (some (b, n))) fun _ =>
      hostThen (hostReadMem b n) fun p s =>
        let t := { s with draws := s.draws + 1 }
        match inferEndian hp.endianRule s.draws p, matchFormat p with
        | .error err, _ => hostFail err t
        | .ok _, none => hostFail .unrecognisedFormat t
        | .ok e, some v => hostThen (extract hp v b n out e) (fun payload => documentOf payload e v) t

/-! ### Encode -/

/-- Encode framing (48_host_procedures R240): the blob of the text bytes, read back from the frame buffer. -/
def hostFrame (bufs : HostBuffers) (text : List Byte) (e : Endian) : HostProc (List Byte) :=
  let f := bufs.frame
  hostThen (hostRun [.memw bufs.text text]) fun _ =>
    hostThen (hostExec true (.compress e false) bufs.text text.length (some (f + 16, frameCapacity text.length - 16)))
      fun _ => hostThen (hostReadReg .resultLen) fun cl =>
        hostThen (hostExec true (.digest .big false) (f + 16) cl.toNat (some (f, 16))) fun _ =>
          let m := 16 + cl.toNat
          let n := roundUp8 m
          hostThen (hostRun [.memw (f + m) (List.replicate (n - m) 0#8)]) fun _ =>
            hostThen (hostExec true (.desEncrypt .big false) f n (some (f, n))) fun _ => hostReadMem f n

/-- The self-check (48_host_procedures R242): the copy of the blob decodes to `x'` and the document's endianness; any
error or difference is `RoundTripMismatch`. -/
def hostSelfCheck (hp : HostParams) (bufs : HostBuffers) (xml : List Char) (littleEndian : Bool) (blob : List Byte) :
    HostProc (List Byte) := fun s =>
  match hostThen (hostRun [.memw bufs.copy blob]) (fun _ => hostDecode hp bufs.copy blob.length bufs.out) s with
  | .fault r => .fault r
  | .refused r => .refused r
  | .next (.error _, t) => hostFail .roundTripMismatch t
  | .next (.ok d, t) =>
    if d.xml = selfCheckText xml ∧ d.littleEndian = littleEndian then hostReturn blob t
    else hostFail .roundTripMismatch t

/-- `encode({xml, littleEndian})` (48_host_procedures R236 to R244). -/
def hostEncode (hp : HostParams) (bufs : HostBuffers) (xml : List Char) (littleEndian : Bool) : HostProc (List Byte) :=
  hostThen (hostFrame bufs (utf8Encode (normaliseEncode xml)) (if littleEndian then .little else .big))
    (hostSelfCheck hp bufs xml littleEndian)

end Sys2Proof.Machine
end

