-- ==== Sys2Proof/Safety.lean ====
section
/-! DEFINITION. The terms claims use: the invariant of the machine, what a command never changes, its own
checks and the accesses it always makes, when its accesses are all served, and the two completions as a host sees them. -/

namespace Sys2Proof.Machine

/-- The code 0 (`NONE`) or a code the block can report (60_exceptions R250, R251). -/
abbrev legalCode (c : BitVec 8) : Prop := c = 0 ∨ ∃ e ∈ ErrCode.all, c = e.number

/-- The hash table holds each of its slots at most once, in rising order, and has no slot past `2^13` (10_state R56). -/
abbrev tableWf (t : HashTable) : Prop := t.Pairwise (fun c c' => c.1 < c'.1) ∧ ∀ c ∈ t, c.1 < hashSlots

/-- What holds of the machine in every state a run reaches. -/
structure State.Inv (s : State) : Prop where
  /-- memory is in canonical form -/
  memWf : Memory.wf s.mem
  /-- the hash table has its slots -/
  table : tableWf s.work.comp.table
  /-- at most one of `BUSY`, `DONE`, `ERR` is 1 (10_state R37) -/
  oneFlag : (s.phase = .busy → s.done = false ∧ s.err = false) ∧ (s.done = true → s.err = false)
  /-- `ERRCODE` is not 0 exactly when `ERR = 1` (10_state R37) -/
  codeIffErr : s.errCode ≠ 0 ↔ s.err = true
  /-- no reserved error code is reported (60_exceptions R251) -/
  codeLegal : legalCode s.errCode
  /-- while BUSY the latches equal the registers (10_state R48) -/
  latched : s.phase = .busy →
    s.lCmd = s.cmd ∧ s.lSrc = s.srcAddr ∧ s.lSLen = s.srcLen ∧ s.lDst = s.dstAddr ∧ s.lDCap = s.dstCap
  /-- while BUSY the results read 0 (10_state R44 to R46) -/
  noResults : s.phase = .busy → s.resultLen = 0 ∧ s.resultAux = 0 ∧ s.errInfo = 0
  /-- a block held in reset runs nothing (70_reset R280) -/
  heldIdle : s.resetHeld = true → s.phase = .idle
  /-- only a running command can be raced (20_memory R80) -/
  racedBusy : s.raced = true → s.phase = .busy

/-- No command changes these: the parameters, the registers the host writes, the latches, and what belongs to the outside
(60_exceptions R255: the latched operands and the registers `CMD`, `SRC_*`, `DST_*` keep their values). -/
structure State.SameOperands (s t : State) : Prop where
  cfg : t.cfg = s.cfg
  irqEn : t.irqEn = s.irqEn
  cmd : t.cmd = s.cmd
  srcAddr : t.srcAddr = s.srcAddr
  srcLen : t.srcLen = s.srcLen
  dstAddr : t.dstAddr = s.dstAddr
  dstCap : t.dstCap = s.dstCap
  lCmd : t.lCmd = s.lCmd
  lSrc : t.lSrc = s.lSrc
  lSLen : t.lSLen = s.lSLen
  lDst : t.lDst = s.lDst
  lDCap : t.lDCap = s.lDCap
  resetHeld : t.resetHeld = s.resetHeld
  inputs : t.inputs = s.inputs
  rdata : t.rdata = s.rdata
  mdata : t.mdata = s.mdata

/-- Memory reads the same in both states at every address outside the span. -/
def sameOutside (m m' : Memory) (r : Span) : Prop := ∀ a, spanHas r a = false → Memory.read m' a = Memory.read m a

/-- The bus serves every read of the source region and every access to the destination region. -/
def State.busServes (s : State) (u : DestUse) : Prop :=
  (∀ a, spanHas s.srcSpan a = true → busStop s.cfg a .read = none) ∧
  ∀ a k, spanHas (s.destRegion u) a = true → busStop s.cfg a k = none

/-- Nothing outside the command's own rules keeps it from its effect: no race, legal regions of ordinary memory, and a bus
that serves every access (20_memory R73, R76, R80, R82). -/
structure State.Ready (s : State) (u : DestUse) : Prop where
  notRaced : s.raced = false
  regions : s.regionError u = none
  ordinary : s.regionNotMemory u = false
  served : s.busServes u

/-- A successful completion as the host sees it (60_exceptions R256). -/
structure State.Succeeded (t : State) (len aux : Nat) : Prop where
  idle : t.phase = .idle
  done : t.done = true
  err : t.err = false
  errCode : t.errCode = 0
  resultLen : t.resultLen = BitVec.ofNat 32 len
  resultAux : t.resultAux = BitVec.ofNat 32 aux
  errInfo : t.errInfo = 0

/-- An error completion as the host sees it (60_exceptions R255). -/
structure State.Failed (t : State) (code : ErrCode) (info : Nat) : Prop where
  idle : t.phase = .idle
  done : t.done = false
  err : t.err = true
  errCode : t.errCode = code.number
  resultLen : t.resultLen = 0
  resultAux : t.resultAux = 0
  errInfo : t.errInfo = BitVec.ofNat 32 info

/-- The command's own checks that read no memory (60_exceptions R253 item 3): the error they find, if any. -/
def ownChecks (i : Instr) (s : State) : Option (ErrCode × Nat) :=
  match i with
  | .desDecrypt _ _ => cipherChecks s true
  | .desEncrypt _ _ => cipherChecks s false
  | .verify _ _ => verifyChecks s
  | .verifyAc1350 _ _ => ac1350Checks s
  | .digest _ _ => digestChecks s
  | .decompress _ _ => decompressChecks s
  | .compress _ _ => compressChecks s

/-- Memory accesses that the command makes whatever bytes it finds, once its checks have passed and the bus has served those
before: both regions of a cipher command, the source of `VERIFY`, the length field of `VERIFY_AC1350`, the source and the
sixteen destination bytes of `DIGEST`, the header of `DECOMPRESS`, the source of `COMPRESS`. -/
def certainAccesses (i : Instr) (s : State) : List (Nat × AccessKind) :=
  match i with
  | .desDecrypt _ _ => cipherAccesses s
  | .desEncrypt _ _ => cipherAccesses s
  | .verify _ _ => accesses .read s.src s.slen
  | .verifyAc1350 _ _ => accesses .read (s.src + 16) 2
  | .digest _ _ => accesses .read s.src s.slen ++ accesses .write s.dst digestLen
  | .decompress _ _ => accesses .read s.src 4
  | .compress _ _ => accesses .read s.src s.slen

/-- The outcome is a next state with the given property. -/
def Outcome.nextWith (o : Host.Outcome State Fault Refusal) (p : State → Prop) : Prop := ∃ t, o = .next t ∧ p t

end Sys2Proof.Machine
end

