-- ==== Sys2Proof/Certificates/Slice0/Obligations.lean ====
section
/-! DEFINITION. The statements for the provers, from the numbered rules of spec/. -/

open Sys2Proof Sys2Proof.Machine

/-! ### Reset and the register window -/

/-- 10_state R59: the values the spec gives for reset. The key is the parameter's default (00_scope R6). -/
def Obligations.ResetStateHoldsSpecifiedValues : Prop :=
  State.reset.phase = .idle ∧ State.reset.irq = false ∧ State.reset.readReg .id = 0x43434501#32 ∧
    (∀ r, r ≠ .id → State.reset.readReg r = 0) ∧ State.reset.cfg.desKey = 0x478DA50BF9E3D2CF#64

/-- 10_state R34, 70_reset R283: a write to `CTRL` with bit 1 = 1 resets the block from any state, whatever its other
bits; memory changes at most in the destination region of a running command. -/
def Obligations.SoftResetFromAnyState : Prop :=
  ∀ (s : State) (v : Word) (rest : List Input), s.resetHeld = false → v.getLsbD 1 = true →
    s.inputs = .regWrite (regAddr s.cfg .ctrl) 4 v :: rest →
    ∃ t, step s = .next t ∧ t.inputs = rest ∧ t.phase = .idle ∧ t.irq = false ∧ t.done = false ∧ t.err = false ∧
      (∀ r, r ≠ .id → t.readReg r = 0) ∧ t.readReg .id = 0x43434501#32 ∧ t.cfg = s.cfg ∧
      (s.phase = .idle → t.mem = s.mem) ∧ sameOutside s.mem t.mem ⟨s.dst, s.dcap⟩

/-- 70_reset R280, R282: the reset input. Asserting it stops the block; a command abandoned by it ends without a completion
and changes at most its destination region. While it is asserted, register writes are ignored and register reads return an
unspecified value. After releasing it the registers hold the values of 10_state R59. That a register access made while
reset is asserted is a step of its own is the model's choice (log 17). -/
def Obligations.ResetInputAssertedHeldReleased : Prop :=
  ∀ (s : State) (addr : Word) (width : Nat) (v : Word) (rest : List Input),
    (s.inputs = .resetAssert :: rest →
      ∃ t, step s = .next t ∧ t.inputs = rest ∧ t.resetHeld = true ∧ t.phase = .idle ∧ t.cfg = s.cfg ∧
        (s.phase = .busy → t.done = false ∧ t.err = false ∧ t.irq = false) ∧
        (s.phase = .idle → t.mem = s.mem) ∧ sameOutside s.mem t.mem ⟨s.dst, s.dcap⟩) ∧
    (s.resetHeld = true → s.inputs = .regWrite addr width v :: rest → step s = .next { s with inputs := rest }) ∧
    (s.resetHeld = true → s.inputs = .regRead addr width :: rest →
      ∃ x, step s = .next { s with inputs := rest, rdata := x, draws := s.draws + 1 }) ∧
    (s.inputs = .resetRelease :: rest →
      ∃ t, step s = .next t ∧ t.inputs = rest ∧ t.resetHeld = false ∧ t.phase = .idle ∧ t.irq = false ∧
        (∀ r, r ≠ .id → t.readReg r = 0) ∧ t.readReg .id = 0x43434501#32 ∧ t.cfg = s.cfg ∧
        (s.phase = .idle → t.mem = s.mem) ∧ sameOutside s.mem t.mem ⟨s.dst, s.dcap⟩)

/-- 10_state R51, with the values of R30 to R32, R36, R37, R40 to R46 and R49 spelled out: an aligned 32-bit read of word `k`
of the window returns the register at offset `4k` and changes nothing. -/
def Obligations.RegisterReadHasNoSideEffect : Prop :=
  ∀ (s : State) (k : Nat) (rest : List Input), s.resetHeld = false → k < 16 →
    s.inputs = .regRead (s.cfg.cceBase + BitVec.ofNat 32 (4 * k)) 4 :: rest →
    ∃ v : Word, step s = .next { s with inputs := rest, rdata := v } ∧
      (k = 0 → v = 0x43434501#32) ∧
      (k = 1 → v = if s.irqEn then 4#32 else 0#32) ∧
      (k = 2 → v = s.cmd) ∧
      (k = 3 → v.getLsbD 0 = decide (s.phase = .busy) ∧ v.getLsbD 1 = s.done ∧ v.getLsbD 2 = s.err ∧
        (∀ n, 3 ≤ n → n < 8 → v.getLsbD n = false) ∧ v >>> 8 = s.errCode.setWidth 32) ∧
      (k = 4 → v = s.srcAddr) ∧ (k = 5 → v = s.srcLen) ∧ (k = 6 → v = s.dstAddr) ∧ (k = 7 → v = s.dstCap) ∧
      (k = 8 → v = s.resultLen) ∧ (k = 9 → v = s.resultAux) ∧ (k = 10 → v = s.errInfo) ∧ (11 ≤ k → v = 0#32)

/-- 10_state R31, R49: `ID` always reads `0x43434501`, the reserved offsets `0x2C` to `0x3C` read 0, and a write to any of them
has no effect. -/
def Obligations.IdAndReservedOffsetsIgnoreWrites : Prop :=
  ∀ (s : State) (k : Nat) (v : Word) (rest : List Input), s.resetHeld = false →
    (s.inputs = .regRead (regAddr s.cfg .id) 4 :: rest →
      step s = .next { s with inputs := rest, rdata := 0x43434501#32 }) ∧
    (s.inputs = .regWrite (regAddr s.cfg .id) 4 v :: rest → step s = .next { s with inputs := rest }) ∧
    (11 ≤ k → k ≤ 15 → s.inputs = .regRead (s.cfg.cceBase + BitVec.ofNat 32 (4 * k)) 4 :: rest →
      step s = .next { s with inputs := rest, rdata := 0 }) ∧
    (11 ≤ k → k ≤ 15 → s.inputs = .regWrite (s.cfg.cceBase + BitVec.ofNat 32 (4 * k)) 4 v :: rest →
      step s = .next { s with inputs := rest })

/-- 10_state R50: an access of another width or alignment. A write has no effect; a read returns an unspecified value
(one value stored in the host's `rdata`) and has no side effect on the block. -/
def Obligations.OtherWidthOrAlignmentHasNoEffect : Prop :=
  ∀ (s : State) (addr : Word) (width : Nat) (v : Word) (rest : List Input), s.resetHeld = false →
    (width ≠ 4 ∨ (addr - s.cfg.cceBase).toNat % 4 ≠ 0) →
    (s.inputs = .regWrite addr width v :: rest → step s = .next { s with inputs := rest }) ∧
    (s.inputs = .regRead addr width :: rest →
      ∃ x, step s = .next { s with inputs := rest, rdata := x, draws := s.draws + 1 })

/-- 10_state R33 (operands latched as R48 says): START while not BUSY, and START while BUSY. -/
def Obligations.StartLatchesOperandsOnlyWhenIdle : Prop :=
  ∀ (s : State) (v : Word) (rest : List Input), s.resetHeld = false → v.getLsbD 0 = true → v.getLsbD 1 = false →
    s.inputs = .regWrite (regAddr s.cfg .ctrl) 4 v :: rest →
    (s.phase = .idle → step s = .next { s with
      inputs := rest, irqEn := v.getLsbD 2
      lCmd := s.cmd, lSrc := s.srcAddr, lSLen := s.srcLen, lDst := s.dstAddr, lDCap := s.dstCap
      done := false, err := false, errCode := 0, resultLen := 0, resultAux := 0, errInfo := 0
      phase := .busy, raced := false }) ∧
    (s.phase = .busy → step s = .next { s with inputs := rest, irqEn := v.getLsbD 2 })

/-- 10_state R35: a write to `CTRL` with bits 1:0 = 00 only stores bit 2 into `IRQ_EN`, at any time. -/
def Obligations.CtrlWriteWithoutActionSetsIrqEnable : Prop :=
  ∀ (s : State) (v : Word) (rest : List Input), s.resetHeld = false → v.getLsbD 0 = false → v.getLsbD 1 = false →
    s.inputs = .regWrite (regAddr s.cfg .ctrl) 4 v :: rest →
    step s = .next { s with inputs := rest, irqEn := v.getLsbD 2 }

/-- 10_state R47: while BUSY the operand registers keep their values and read what START latched. -/
def Obligations.OperandRegistersFrozenWhileBusy : Prop :=
  ∀ (s : State) (r : Reg) (v : Word) (rest : List Input), s.Inv → s.phase = .busy →
    r ∈ [Reg.cmd, .srcAddr, .srcLen, .dstAddr, .dstCap] →
    s.inputs = .regWrite (regAddr s.cfg r) 4 v :: rest →
    step s = .next { s with inputs := rest } ∧ s.readReg .cmd = s.lCmd ∧ s.readReg .srcAddr = s.lSrc ∧
      s.readReg .srcLen = s.lSLen ∧ s.readReg .dstAddr = s.lDst ∧ s.readReg .dstCap = s.lDCap

/-- 10_state R30, R36, R40 to R46: while idle, a write stores the whole 32-bit value in its operand register only; at any time
a write to a read-only result register has no effect. -/
def Obligations.OperandRegisterWriteStoresWholeWord : Prop :=
  ∀ (s : State) (v : Word) (rest : List Input), s.resetHeld = false →
    (s.phase = .idle →
      (s.inputs = .regWrite (regAddr s.cfg .cmd) 4 v :: rest → step s = .next { s with inputs := rest, cmd := v }) ∧
      (s.inputs = .regWrite (regAddr s.cfg .srcAddr) 4 v :: rest →
        step s = .next { s with inputs := rest, srcAddr := v }) ∧
      (s.inputs = .regWrite (regAddr s.cfg .srcLen) 4 v :: rest →
        step s = .next { s with inputs := rest, srcLen := v }) ∧
      (s.inputs = .regWrite (regAddr s.cfg .dstAddr) 4 v :: rest →
        step s = .next { s with inputs := rest, dstAddr := v }) ∧
      (s.inputs = .regWrite (regAddr s.cfg .dstCap) 4 v :: rest →
        step s = .next { s with inputs := rest, dstCap := v })) ∧
    ∀ r ∈ [Reg.resultLen, .resultAux, .errInfo], s.inputs = .regWrite (regAddr s.cfg r) 4 v :: rest →
      step s = .next { s with inputs := rest }

/-- 10_state R38: the write-1-to-clear bits of `STATUS`; the results are kept. -/
def Obligations.StatusWriteClearsFlags : Prop :=
  ∀ (s : State) (v : Word) (rest : List Input), s.resetHeld = false →
    s.inputs = .regWrite (regAddr s.cfg .status) 4 v :: rest →
    step s = .next { s with
      inputs := rest
      done := if v.getLsbD 1 then false else s.done
      err := if v.getLsbD 2 then false else s.err
      errCode := if v.getLsbD 2 then 0 else s.errCode }

/-! ### Command words -/

/-- 30_encoding R90 to R92: decoding the encoded word of an instruction gives the instruction back. -/
def Obligations.DecodeOfEncodeIsInstruction : Prop := ∀ i : Instr, decode (encode i) = .ok i

/-- 30_encoding R90, R91: a command word that decodes to an instruction is that instruction's encoding, so each legal word
has one meaning and no bit of it is dropped. -/
def Obligations.LegalWordIsEncodingOfItsInstruction : Prop := ∀ (w : Word) (i : Instr), decode w = .ok i → encode i = w

/-- 30_encoding R95: exactly the words with `OP` 0 or 8 to 15, or with `RSV` not 0, are illegal. -/
def Obligations.IllegalWordsAreOpcodeOrReservedBits : Prop :=
  ∀ w : Word, (∃ e, decode w = .error e) ↔ (w.toNat % 16 = 0 ∨ 8 ≤ w.toNat % 16 ∨ w.toNat / 64 ≠ 0)

/-- 30_encoding R121 and 95 §2.6: some words of the spec's examples decode as the spec says. -/
def Obligations.ExampleWordsDecode : Prop :=
  decode 0x00000001#32 = .ok (.desDecrypt .big false) ∧ decode 0x00000031#32 = .ok (.desDecrypt .little true) ∧
  decode 0x00000002#32 = .ok (.desEncrypt .big false) ∧ decode 0x00000003#32 = .ok (.verify .big false) ∧
  decode 0x00000014#32 = .ok (.verifyAc1350 .little false) ∧ decode 0x00000005#32 = .ok (.digest .big false) ∧
  decode 0x00000006#32 = .ok (.decompress .big false) ∧ decode 0x00000016#32 = .ok (.decompress .little false) ∧
  decode 0x00000037#32 = .ok (.compress .little true)

/-- 30_encoding R95: an illegal command word ends the command with `BAD_COMMAND` and the whole word as context, without a
memory access. -/
def Obligations.IllegalWordEndsWithBadCommand : Prop :=
  ∀ s : State, s.phase = .busy → s.inputs = [] →
    (s.lCmd.toNat % 16 = 0 ∨ 8 ≤ s.lCmd.toNat % 16 ∨ s.lCmd.toNat / 64 ≠ 0) →
    step s = .next { s with
      errCode := 0x10#8, errInfo := s.lCmd, resultLen := 0, resultAux := 0
      err := true, done := false, phase := .idle, raced := false, draws := s.draws + 1 }

/-- 30_encoding R94, 20_memory R85: with nothing pending from the outside (or the outside passing its turn), a step of a
BUSY block whose latched word decodes to `i` is `exec i`. That inputs come first is the
model's choice (log 2). -/
def Obligations.StepRunsDecodedInstruction : Prop :=
  ∀ (s : State) (i : Instr), s.phase = .busy → decode s.lCmd = .ok i →
    (s.inputs = [] → step s = exec i s) ∧
    ∀ rest, s.inputs = .engine :: rest → step s = exec i { s with inputs := rest }

/-- 60_exceptions R275: when BUSY = 0 and the outside does nothing, nothing changes. -/
def Obligations.IdleBlockDoesNothing : Prop :=
  ∀ s : State, s.phase = .idle → s.inputs = [] → step s = .next s

/-- 30_encoding R92: a field that a command does not use is ignored. -/
def Obligations.UnusedOptionFieldsAreIgnored : Prop :=
  ∀ (s : State) (le le' : Endian) (ovl ovl' : Bool),
    exec (.desDecrypt le ovl) s = exec (.desDecrypt le' ovl') s ∧
    exec (.desEncrypt le ovl) s = exec (.desEncrypt le' ovl') s ∧
    exec (.verify le ovl) s = exec (.verify le' ovl') s ∧
    exec (.verifyAc1350 le ovl) s = exec (.verifyAc1350 le ovl') s ∧
    exec (.digest le ovl) s = exec (.digest le' ovl') s ∧
    exec (.decompress le ovl) s = exec (.decompress le ovl') s

/-! ### Completion, errors and frames of every command -/

/-- 10_state R39, R53: the engine's step of a BUSY block ends in phase IDLE with exactly one of `DONE` and `ERR`. That a raced
completion keeps to this too is the model's choice (log 11). -/
def Obligations.CompletionSetsExactlyOneFlag : Prop :=
  ∀ s t : State, s.phase = .busy → s.inputs = [] → step s = .next t → t.phase = .idle ∧ t.done = !t.err

/-- 60_exceptions R266: after a completion step, `irq` is high exactly when `IRQ_EN = 1`. For a raced completion this rests on
the model's choice that it sets exactly one flag (log 11). -/
def Obligations.InterruptRisesAtCompletion : Prop :=
  ∀ s t : State, s.phase = .busy → s.inputs = [] → step s = .next t → t.irq = s.irqEn

/-- 60_exceptions R255, R256: no command changes the parameters, the registers the host writes or the latches. -/
def Obligations.CommandKeepsOperandsAndLatches : Prop :=
  ∀ (i : Instr) (s t : State), exec i s = .next t → s.SameOperands t

/-- 10_state R57: a command changes no other command's working state. Keeping the rest is the model's
choice (log 3). -/
def Obligations.CommandKeepsOtherWorkingState : Prop :=
  ∀ (s t : State) (le : Endian) (ovl : Bool),
    (exec (.desDecrypt le ovl) s = .next t → t.work = { s.work with block := t.work.block }) ∧
    (exec (.desEncrypt le ovl) s = .next t → t.work = { s.work with block := t.work.block }) ∧
    (exec (.verify le ovl) s = .next t → t.work = { s.work with probe := t.work.probe }) ∧
    (exec (.verifyAc1350 le ovl) s = .next t → t.work = { s.work with acLen := t.work.acLen }) ∧
    (exec (.digest le ovl) s = .next t → t.work = { s.work with md5 := t.work.md5 }) ∧
    (exec (.decompress le ovl) s = .next t → t.work = { s.work with dec := t.work.dec }) ∧
    (exec (.compress le ovl) s = .next t → t.work = { s.work with comp := t.work.comp })

/-- 20_memory R78: no command changes a byte outside its destination region `[lDST, lDST + lDCAP)`; a command without a
destination changes none. -/
def Obligations.CommandWritesOnlyDestinationRegion : Prop :=
  ∀ (i : Instr) (s t : State), exec i s = .next t → sameOutside s.mem t.mem (s.destRegion (destUse i))

/-- 20_memory R78: after a success, only the bytes `[lDST, lDST + RESULT_LEN)` may have changed. -/
def Obligations.SuccessWritesOnlyResultBytes : Prop :=
  ∀ (i : Instr) (s t : State), s.raced = false → exec i s = .next t → t.done = true →
    sameOutside s.mem t.mem ⟨s.dst, t.resultLen.toNat⟩

/-- 41_integrity R152, R157: the verify commands write no memory. -/
def Obligations.VerifyCommandsWriteNoMemory : Prop :=
  ∀ (s t : State) (le : Endian) (ovl : Bool),
    (exec (.verify le ovl) s = .next t → t.mem = s.mem) ∧ (exec (.verifyAc1350 le ovl) s = .next t → t.mem = s.mem)

/-- 20_memory R76, R77: the region checks of every command, in their order, with memory unchanged. Two ranges overlap
when they share an address. -/
def Obligations.RegionChecksInOrder : Prop :=
  ∀ (i : Instr) (s : State), s.raced = false →
    let wrapsSource := 2 ^ 32 < s.lSrc.toNat + s.lSLen.toNat
    let wrapsDest := (destUse i).hasDest = true ∧ 2 ^ 32 < s.lDst.toNat + s.lDCap.toNat
    let shared := ∃ a, spanHas s.srcSpan a = true ∧ spanHas (s.destSpan (destUse i)) a = true
    let inPlace := destUse i = .cipher ∧ s.lDst = s.lSrc
    let badRegion := fun info => ∃ t, exec i s = .next t ∧ t.Failed .badRegion info ∧ t.mem = s.mem
    (wrapsSource → badRegion 0) ∧ (¬wrapsSource → wrapsDest → badRegion 1) ∧
    (¬wrapsSource → ¬wrapsDest → shared ∧ ¬inPlace → badRegion 2) ∧
    (¬wrapsSource → ¬wrapsDest → ¬(shared ∧ ¬inPlace) → s.regionError (destUse i) = none)

/-- 20_memory R82: a command whose source or destination region covers a byte of the register window (its offset from
`CCE_BASE` is below 64) or of a device has no effect: where the region checks and its own checks find nothing it is refused,
and where one of them finds an error it ends with memory unchanged. The place of the refusal after
those checks is the model's choice (log 15), and so is that a window past `2^32` wraps (log 36). -/
def Obligations.RegionOverWindowIsRefused : Prop :=
  ∀ (i : Instr) (s : State) (a : Nat),
    (spanHas s.srcSpan a = true ∨ spanHas (s.destRegion (destUse i)) a = true) →
    ((BitVec.ofNat 32 a - s.cfg.cceBase).toNat < 64 ∨ ∃ r ∈ s.cfg.devices, spanHas r a = true) →
    (s.regionError (destUse i) = none → ownChecks i s = none → exec i s = .refused .regionNotMemory) ∧
    (s.regionError (destUse i) ≠ none ∨ ownChecks i s ≠ none → ∃ t, exec i s = .next t ∧ t.mem = s.mem)

/-- 20_memory R73: `BUS_ERROR` reports an address at which the bus answers an access with an error; so a bus that never
does never produces it. -/
def Obligations.BusErrorReportsFaultingAddress : Prop :=
  ∀ (i : Instr) (s t : State), s.raced = false → exec i s = .next t → t.err = true →
    t.errCode = ErrCode.number .busError →
    ∃ a k, busStop s.cfg a k = some (.error .busError a) ∧ t.errInfo = BitVec.ofNat 32 a

/-- 10_state R56, 70_reset R284, 00_scope R11: what earlier commands left in the working state, the hash table among it,
does not matter to any command. -/
def Obligations.ResultIndependentOfWorkingState : Prop :=
  ∀ (i : Instr) (s : State) (w : Work),
    (∀ t, exec i s = .next t → ∃ w', exec i { s with work := w } = .next { t with work := w' }) ∧
    (∀ r, exec i s = .fault r → exec i { s with work := w } = .fault r) ∧
    (∀ r, exec i s = .refused r → exec i { s with work := w } = .refused r)

/-- 20_memory R80, 70_reset R286: a store of another agent into the source region of a running legal command is a
race. The mark is the model's own
field (log 11); that the store lands at every address, also where a bus rule answers the block's accesses with an error or
never, is the model's choice (log 35). -/
def Obligations.StoreIntoSourceWhileBusyRaces : Prop :=
  ∀ (s : State) (i : Instr) (a : Nat) (b : Byte) (rest : List Input), s.phase = .busy → decode s.lCmd = .ok i →
    s.inputs = .memWrite a [b] :: rest → spanHas s.srcSpan a = true → a < 2 ^ 32 →
    inWindow s.cfg a = false → s.cfg.devices = [] →
    step s = .next { s with inputs := rest, mem := Memory.write s.mem a b, raced := true }

/-- 70_reset R293 (93 U25): a command that makes an access which the bus never answers makes no further step, on a bus that
answers no access with an error. The accesses are those that the command makes whatever bytes it finds. The fault is the
model's choice (log 16). -/
def Obligations.UnansweredAccessStalls : Prop :=
  ∀ (i : Instr) (s : State), s.regionError (destUse i) = none → ownChecks i s = none →
    s.regionNotMemory (destUse i) = false → (∀ a k, busStop s.cfg a k = none ∨ busStop s.cfg a k = some .stall) →
    (∃ x ∈ certainAccesses i s, busStop s.cfg x.1 x.2 = some .stall) → exec i s = .fault .busNeverAnswers

/-! ### CipherFrame -/

/-- 00_scope R12: `DES_D(K, DES_E(K, x)) = x`. The tables are presumed (log 8). -/
def Obligations.DesDecryptionInvertsEncryption : Prop :=
  ∀ key x : BitVec 64, desDecryptBlock key (desEncryptBlock key x) = x

/-- 00_scope R12: the least significant bit of each key byte does not affect the result. -/
def Obligations.DesKeyParityIsIgnored : Prop :=
  ∀ key key' : BitVec 64, (∀ n, n % 8 ≠ 0 → key.getLsbD n = key'.getLsbD n) →
    ∀ x, desEncryptBlock key x = desEncryptBlock key' x ∧ desDecryptBlock key x = desDecryptBlock key' x

/-- 40_cipher R132, R136: `DES_ENCRYPT` completes with the ECB encryption of the source, in place or disjoint. -/
def Obligations.DesEncryptCompletesWithCiphertext : Prop :=
  ∀ (s : State) (le : Endian) (ovl : Bool), s.Ready .cipher → s.slen % 8 = 0 → s.slen ≤ s.dcap →
    ∃ t, exec (.desEncrypt le ovl) s = .next t ∧ t.Succeeded s.slen 0 ∧ s.SameOperands t ∧
      Memory.readBytes t.mem s.dst s.slen = ecb (desEncryptBlock s.cfg.desKey) (s.slen / 8) s.srcBytes ∧
      sameOutside s.mem t.mem ⟨s.dst, s.slen⟩

/-- 40_cipher R132, R133: `DES_DECRYPT` completes with the ECB decryption of the source, in place or disjoint. -/
def Obligations.DesDecryptCompletesWithPlaintext : Prop :=
  ∀ (s : State) (le : Endian) (ovl : Bool), s.Ready .cipher → s.slen % 8 = 0 → 0 < s.slen → s.slen ≤ s.dcap →
    ∃ t, exec (.desDecrypt le ovl) s = .next t ∧ t.Succeeded s.slen 0 ∧ s.SameOperands t ∧
      Memory.readBytes t.mem s.dst s.slen = ecb (desDecryptBlock s.cfg.desKey) (s.slen / 8) s.srcBytes ∧
      sameOutside s.mem t.mem ⟨s.dst, s.slen⟩

/-- 40_cipher R131 steps 3 to 5: the cipher commands' own checks in their order, with memory unchanged. -/
def Obligations.CipherChecksInOrder : Prop :=
  ∀ (s : State) (le : Endian) (ovl : Bool), s.raced = false → s.regionError .cipher = none →
    let fails := fun i code info => ∃ t, exec i s = .next t ∧ t.Failed code info ∧ t.mem = s.mem
    let enc := Instr.desEncrypt le ovl
    let dec := Instr.desDecrypt le ovl
    (s.slen % 8 ≠ 0 → fails enc .invalidSize s.slen ∧ fails dec .invalidSize s.slen) ∧
    (s.slen = 0 → fails dec .decryptionFailure 0) ∧
    (s.slen % 8 = 0 → s.dcap < s.slen → fails enc .dstOverflow s.slen ∧ fails dec .dstOverflow s.slen)

/-- 40_cipher R139: `DES_DECRYPT` of the output of `DES_ENCRYPT` of `b` is `b`, wherever the second command finds and puts
its bytes. -/
def Obligations.DecryptOfEncryptRestoresBytes : Prop :=
  ∀ (s s' t : State) (le le' : Endian) (ovl ovl' : Bool), s.Ready .cipher → 0 < s.slen → s.slen % 8 = 0 →
    s.slen ≤ s.dcap → exec (.desEncrypt le ovl) s = .next t →
    s'.Ready .cipher → s'.cfg.desKey = s.cfg.desKey → s'.lSLen = s.lSLen → s'.slen ≤ s'.dcap →
    s'.srcBytes = Memory.readBytes t.mem s.dst s.slen →
    ∃ u, exec (.desDecrypt le' ovl') s' = .next u ∧ u.Succeeded s.slen 0 ∧
      Memory.readBytes u.mem s'.dst s.slen = s.srcBytes

/-- 60_exceptions R254, 93 U16: a cipher command some of whose accesses the bus answers with an error (and all the others
it serves) ends with `BUS_ERROR` at one of those accesses. -/
def Obligations.CipherBusErrorNamesOneFaultingAccess : Prop :=
  ∀ (i : Instr) (s : State) (le : Endian) (ovl : Bool), i ∈ [Instr.desEncrypt le ovl, .desDecrypt le ovl] →
    s.raced = false → s.regionError .cipher = none → s.regionNotMemory .cipher = false → s.slen % 8 = 0 →
    s.slen ≤ s.dcap → (∀ a k, busStop s.cfg a k ≠ some .stall) →
    (∃ x ∈ cipherAccesses s, busStop s.cfg x.1 x.2 ≠ none) →
    ∃ t, ∃ x ∈ cipherAccesses s, exec i s = .next t ∧ busStop s.cfg x.1 x.2 ≠ none ∧
      t.Failed .busError x.1 ∧ sameOutside s.mem t.mem ⟨s.dst, s.dcap⟩

/-! ### IntegrityVerifier -/

/-- 41_integrity R150: every digest is 16 bytes. -/
def Obligations.DigestIsSixteenBytes : Prop := ∀ b : List Byte, (md5 b).length = 16

/-- 41_integrity R151, R152: `VERIFY` of at least 16 bytes accepts at the first of the candidates 0 to 7 whose region has
the stored digest, and fails when none has. -/
def Obligations.VerifyAcceptsFirstCandidate : Prop :=
  ∀ (s : State) (le : Endian) (ovl : Bool), s.Ready .none → 16 ≤ s.slen →
    let src := s.srcBytes
    let hit := fun i => i + 16 ≤ s.slen ∧ md5 ((src.drop 16).take (s.slen - i - 16)) = src.take 16
    (∀ i, i < 8 → hit i → (∀ j, j < i → ¬hit j) →
      ∃ t, exec (.verify le ovl) s = .next t ∧ t.Succeeded 0 i ∧ t.mem = s.mem) ∧
    ((∀ i, i < 8 → ¬hit i) →
      ∃ t, exec (.verify le ovl) s = .next t ∧ t.Failed .integrityMismatch 0 ∧ t.mem = s.mem)

/-- 41_integrity R153 (a), R155: a buffer too short for its stored fields is `INTEGRITY_MISMATCH` with context 0. -/
def Obligations.ShortBuffersDoNotVerify : Prop :=
  ∀ (s : State) (le : Endian) (ovl : Bool), s.raced = false → s.regionError .none = none →
    (s.slen < 16 →
      ∃ t, exec (.verify le ovl) s = .next t ∧ t.Failed .integrityMismatch 0 ∧ t.mem = s.mem) ∧
    (s.slen < 20 →
      ∃ t, exec (.verifyAc1350 le ovl) s = .next t ∧ t.Failed .integrityMismatch 0 ∧ t.mem = s.mem)

/-- 41_integrity R164: a digest placed before its bytes and `p ≤ 7` zero bytes passes `VERIFY` with `RESULT_AUX ≤ p`, and
with `RESULT_AUX = p` unless a smaller candidate is an MD5 collision. -/
def Obligations.VerifyToleratesTrailingZeros : Prop :=
  ∀ (s : State) (le : Endian) (ovl : Bool) (c : List Byte) (p : Nat), s.Ready .none → p ≤ 7 →
    s.srcBytes = md5 c ++ c ++ List.replicate p 0 →
    ∃ t i, exec (.verify le ovl) s = .next t ∧ t.Succeeded 0 i ∧ i ≤ p ∧ md5 (c ++ List.replicate (p - i) 0) = md5 c

/-- 41_integrity R156, R157: `VERIFY_AC1350` of at least 20 bytes, under both readings of `AC1350_REGION_END`. -/
def Obligations.Ac1350ChecksRecordedRegion : Prop :=
  ∀ (s : State) (le : Endian) (ovl : Bool), s.Ready .none → 20 ≤ s.slen →
    let src := s.srcBytes
    let len := get16 src 16 le
    let stop := match s.cfg.regionEnd with
      | .fieldL => len
      | .twentyPlusL => 20 + len
    let accepted := 20 ≤ stop ∧ stop ≤ s.slen ∧ md5 ((src.drop 20).take (stop - 20)) = src.take 16
    (accepted → ∃ t, exec (.verifyAc1350 le ovl) s = .next t ∧ t.Succeeded 0 len ∧ t.mem = s.mem) ∧
    (¬accepted →
      ∃ t, exec (.verifyAc1350 le ovl) s = .next t ∧ t.Failed .integrityMismatch len ∧ t.mem = s.mem)

/-- 41_integrity R160, R161: `DIGEST` completes with the MD5 of the source in 16 destination bytes. -/
def Obligations.DigestCompletesWithMd5 : Prop :=
  ∀ (s : State) (le : Endian) (ovl : Bool), s.Ready .digest → 16 ≤ s.dcap →
    ∃ t, exec (.digest le ovl) s = .next t ∧ t.Succeeded 16 0 ∧ s.SameOperands t ∧
      Memory.readBytes t.mem s.dst 16 = md5 s.srcBytes ∧ sameOutside s.mem t.mem ⟨s.dst, 16⟩

/-- 41_integrity R160: `DIGEST` into fewer than 16 bytes is `DST_OVERFLOW` with context 16, memory unchanged. -/
def Obligations.DigestNeedsSixteenBytes : Prop :=
  ∀ (s : State) (le : Endian) (ovl : Bool), s.raced = false → s.regionError .digest = none → s.dcap < 16 →
    ∃ t, exec (.digest le ovl) s = .next t ∧ t.Failed .dstOverflow 16 ∧ t.mem = s.mem

/-! ### BitDictionaryCodec -/

/-- 42_codec R174: the checking phase of `DECOMPRESS` in its order, with memory unchanged. -/
def Obligations.DecompressChecksInOrder : Prop :=
  ∀ (s : State) (le : Endian) (ovl : Bool), s.Ready .codec →
    let size := get32 s.srcBytes 0 le
    let fails := fun code info => ∃ t, exec (.decompress le ovl) s = .next t ∧ t.Failed code info ∧ t.mem = s.mem
    (s.slen < 4 → fails .srcUnderrun 0) ∧
    (4 ≤ s.slen → size = 0 → fails .badLength 0) ∧
    (4 ≤ s.slen → s.dcap < size → fails .dstOverflow size) ∧
    (s.slen = 4 → 0 < size → size ≤ s.dcap → fails .srcUnderrun 4)

/-- 42_codec R180 (a): a stream of decompressed length 1 gives its seed literal; no control word is read. -/
def Obligations.DecompressOfLengthOneIsSeed : Prop :=
  ∀ (s : State) (le : Endian) (ovl : Bool), s.Ready .codec → 5 ≤ s.slen → get32 s.srcBytes 0 le = 1 → 1 ≤ s.dcap →
    ∃ t, exec (.decompress le ovl) s = .next t ∧ t.Succeeded 1 5 ∧ s.SameOperands t ∧
      Memory.read t.mem s.dst = byteAt s.srcBytes 4 ∧ sameOutside s.mem t.mem ⟨s.dst, 1⟩

/-- 42_codec R173, 30_encoding R107: every value `dict_ld` returns is at least 2 and below `2^32`. -/
def Obligations.DictCodeIsAtLeastTwo : Prop :=
  ∀ (j : DecJob) (w w' : DecState) (v : Nat), dictLd j w = .ok (v, w') → 2 ≤ v ∧ v < 2 ^ 32

/-- 42_codec R181, R182: a match copy that starts inside the output keeps the bytes before it, and each byte it appends is
the byte its distance back, bytes of the same copy among them. -/
def Obligations.MatchCopyRepeatsEarlierOutput : Prop :=
  ∀ (j : DecJob) (len r : Nat) (out out' : List Byte), r < out.length → copyMatch j len r out = .ok out' →
    out'.length = out.length + len ∧ out'.take out.length = out ∧
    ∀ k, k < len → byteAt out' (out.length + k) = byteAt out' (r + k)

/-- 42_codec R202, R179: `DECOMPRESS` applied to the output of `COMPRESS` of `b`, whatever bytes come after it in the source,
yields `b`, for either endianness and either `OVL`; it consumes exactly the stream, and five bytes of it when `b` is one
byte. -/
def Obligations.DecompressInvertsCompress : Prop :=
  ∀ (s : State) (b tail : List Byte) (e : Endian) (ovl ovl' : Bool), 1 ≤ b.length → b.length < 2 ^ 32 →
    s.Ready .codec → s.srcBytes = compressBytes b e ovl ++ tail → b.length ≤ s.dcap →
    ∃ t, exec (.decompress e ovl') s = .next t ∧
      t.Succeeded b.length (if b.length = 1 then 5 else (compressBytes b e ovl).length) ∧
      Memory.readBytes t.mem s.dst b.length = b

/-- 42_codec R177, R178: the errors of the execution of `DECOMPRESS`. A control word or a payload byte past the end of the
source is `SRC_UNDERRUN` with the offset at which the read began; a distance before the output, a length past the
decompressed size and a code of more than 32 bits are `BAD_MATCH` with the output cursor at the start of the match; either
one ends the command, no byte outside the destination region changed; and a compressed stream cut short anywhere reports
`SRC_UNDERRUN`. -/
def Obligations.DecompressExecutionErrors : Prop :=
  (∀ (j : DecJob) (w : DecState), w.cnt = 0 → j.src.length < w.s + 2 →
    getBit j w = .error (.error .srcUnderrun w.s)) ∧
  (∀ (j : DecJob) (w : DecState), j.src.length ≤ w.s → getByte j w = .error (.error .srcUnderrun w.s)) ∧
  (∀ (j : DecJob) (fuel : Nat) (w : DecState), 2 ^ 31 ≤ w.acc → dictLoop j fuel w = .error (.error .badMatch w.d)) ∧
  (∀ (j : DecJob) (w w1 w2 w3 : DecState) (out : List Byte) (v1 v2 : Nat) (lo : Byte),
    dictLd j w = .ok (v1, w1) → dictLd j w1 = .ok (v2, w2) → getByte j w2 = .ok (lo, w3) →
    (w.d < (v2 - 2) * 256 + lo.toNat + 1 ∨ w.size < w.d + (v1 + 2)) →
    decMatch j w out = .error (.error .badMatch w.d)) ∧
  (∀ (s : State) (e : Endian) (ovl : Bool) (b : Byte) (w : DecState) (code : ErrCode) (info : Nat), s.Ready .codec →
    4 ≤ s.slen → decHeader (s.decJob e) s.dcap = .ok (b, w) →
    decWrite (s.decJob e) b w = .error (.error code info) →
    ∃ t, exec (.decompress e ovl) s = .next t ∧ t.Failed code info ∧ sameOutside s.mem t.mem ⟨s.dst, s.dcap⟩) ∧
  (∀ (s : State) (b : List Byte) (e : Endian) (ovl ovl' : Bool), 1 ≤ b.length → b.length < 2 ^ 32 → s.Ready .codec →
    s.srcBytes = (compressBytes b e ovl).take s.slen →
    s.slen < (if b.length = 1 then 5 else (compressBytes b e ovl).length) → b.length ≤ s.dcap →
    ∃ t info, exec (.decompress e ovl') s = .next t ∧ t.Failed .srcUnderrun info ∧ info ≤ s.slen ∧
      sameOutside s.mem t.mem ⟨s.dst, s.dcap⟩)

/-- 42_codec R191, R197: `COMPRESS` completes with the compressed stream where it fits. -/
def Obligations.CompressCompletesWithStream : Prop :=
  ∀ (s : State) (le : Endian) (ovl : Bool), s.Ready .codec → 1 ≤ s.slen →
    (compressBytes s.srcBytes le ovl).length ≤ s.dcap →
    let out := compressBytes s.srcBytes le ovl
    ∃ t, exec (.compress le ovl) s = .next t ∧ t.Succeeded out.length 0 ∧ s.SameOperands t ∧
      Memory.readBytes t.mem s.dst out.length = out ∧ sameOutside s.mem t.mem ⟨s.dst, out.length⟩

/-- 42_codec R190, R197: `COMPRESS` of an empty source is `BAD_LENGTH`; an output that does not fit is `DST_OVERFLOW`
with context `lDCAP`, and no byte outside the destination region changes. -/
def Obligations.CompressErrors : Prop :=
  ∀ (s : State) (le : Endian) (ovl : Bool), s.Ready .codec →
    (s.slen = 0 → ∃ t, exec (.compress le ovl) s = .next t ∧ t.Failed .badLength 0 ∧ t.mem = s.mem) ∧
    (1 ≤ s.slen → s.dcap < (compressBytes s.srcBytes le ovl).length →
      ∃ t, exec (.compress le ovl) s = .next t ∧ t.Failed .dstOverflow s.dcap ∧
        sameOutside s.mem t.mem ⟨s.dst, s.dcap⟩)

/-- 42_codec R200 (a), (b): a source of at most 5 bytes is all literals: the header, the seed, one empty control word,
the other bytes. -/
def Obligations.ShortSourceCompressesToLiterals : Prop :=
  ∀ (x : Byte) (rest : List Byte) (e : Endian) (ovl : Bool), rest.length ≤ 4 →
    compressBytes (x :: rest) e ovl = put32 (rest.length + 1) e ++ [x, 0#8, 0#8] ++ rest

/-- 42_codec R201: for `n ≤ 65536` the output is at most `2n + 6` bytes. -/
def Obligations.CompressedLengthIsBounded : Prop :=
  ∀ (b : List Byte) (e : Endian) (ovl : Bool), 1 ≤ b.length → b.length ≤ 65536 →
    (compressBytes b e ovl).length ≤ 2 * b.length + 6

/-! ### The whole machine -/

/-- The invariant holds right after reset (10_state R59). -/
def Obligations.InvariantHoldsAtReset : Prop := State.reset.Inv

/-- Every step keeps the invariant: canonical memory and hash table, at most one of BUSY, DONE and ERR, `ERRCODE` not 0
exactly when `ERR = 1` and never a reserved code, latches equal to the registers and results 0 while BUSY (10_state R37,
R44 to R48, R56; 60_exceptions R251; 70_reset R280). The canonical
forms, the race mark and idleness under reset are the model's own clauses (log 1, 3, 11, 17). -/
def Obligations.InvariantKeptByEveryStep : Prop :=
  ∀ s t : State, s.Inv → core.step s = .next t → State.Inv t

/-- 10_state R55: no step changes the key. That no step changes any other parameter of 00_scope R6 either is the model's
choice: `CCE_BASE` (log 5), the bus's answers (log 6), `AC1350_REGION_END` (log 7) and the devices (log 15) are fields of
`cfg`, fixed for a run. -/
def Obligations.KeyNeverChanges : Prop := ∀ s t : State, step s = .next t → t.cfg = s.cfg

/-- 48_host_procedures R233, R237: decoding the UTF-8 encoding of a text gives the text back. UTF-8 is presumed (log 24). -/
def Obligations.TextCodecRoundTrip : Prop := ∀ t : List Char, utf8Decode (utf8Encode t) = some t
end

