-- ==== Sys2Proof/Laws/Des.lean ====
section
/-! SUPPORT. What the building blocks of DES do bit by bit, so that no later proof unfolds a table. -/

namespace Sys2Proof.Machine

/-- The number whose binary digits are the selected bits: its digits, the last entry of the table being digit 0. -/
theorem testBit_foldl_select (f : Nat → Bool) (tbl : List Nat) (k : Nat) :
    (tbl.foldl (fun acc p => 2 * acc + (f p).toNat) 0).testBit k =
      (decide (k < tbl.length) && f (tbl.getD (tbl.length - 1 - k) 0)) := by
  induction tbl using List.reverseRecOn generalizing k with
  | nil => simp
  | append_singleton l p ih =>
    rw [List.foldl_append]
    simp only [List.foldl_cons, List.foldl_nil]
    cases k with
    | zero => cases h : f p <;> simp [h]
    | succ k =>
      have hd : (2 * List.foldl (fun acc p => 2 * acc + (f p).toNat) 0 l + (f p).toNat) / 2 =
          List.foldl (fun acc p => 2 * acc + (f p).toNat) 0 l := by cases f p <;> simp; omega
      rw [Nat.testBit_succ, hd, ih]
      by_cases hk : k < l.length
      · have h1 : l.length - (k + 1) < l.length := by omega
        have h2 : l.length - 1 - k = l.length - (k + 1) := by omega
        simp [hk, h2, h1]
      · simp [hk]

/-- Bit `i` of a permutation, counted from the most significant one, is the bit the table's entry `i` names. -/
theorem getMsbD_permute {n : Nat} (m : Nat) (tbl : List Nat) (x : BitVec n) (hl : tbl.length = m) (i : Nat) (hi : i < m) :
    (permute m tbl x).getMsbD i = x.getMsbD (tbl.getD i 0 - 1) := by
  have h : m - 1 - (m - 1 - i) = i := by omega
  unfold permute
  rw [BitVec.getMsbD_eq_getLsbD, BitVec.getLsbD_ofNat, testBit_foldl_select (fun p => x.getMsbD (p - 1)), hl, h]
  simp [hi, show m - 1 - i < m by omega]

/-- The rounds under a list of subkeys followed by another. -/
theorem desRounds_append (ks ks' : List (BitVec 48)) (l r : BitVec 32) :
    desRounds (ks ++ ks') l r = desRounds ks' (desRounds ks l r).1 (desRounds ks l r).2 := by
  induction ks generalizing l r with
  | nil => rfl
  | cons k ks ih => exact ih r (l ^^^ desRound r k)

/-- A block has eight bytes. -/
theorem length_bytesOfBlock (x : BitVec 64) : (bytesOfBlock x).length = 8 := rfl

/-- ECB over `m` blocks gives `8 m` bytes. -/
theorem length_ecb (f : BitVec 64 → BitVec 64) (m : Nat) (b : List Byte) : (ecb f m b).length = 8 * m := by
  induction m generalizing b with
  | zero => rfl
  | succ m ih => simp only [ecb, List.length_append, length_bytesOfBlock, ih]; omega

end Sys2Proof.Machine
end

