-- ==== Sys2Proof/Laws/Memory.lean ====
section
/-! SUPPORT. The laws of sparse lists and of bus memory: read after write, byte sequences, the canonical form. -/

namespace Sys2Proof.Machine

theorem sparseFind_sparseSet {α : Type} (k k' : Nat) (v : α) (l : List (Nat × α)) :
    sparseFind k (sparseSet k' v l) = if k = k' then some v else sparseFind k l := by
  induction l with
  | nil => by_cases h : k = k' <;> simp [sparseSet, sparseFind, h, eq_comm]
  | cons c rest ih =>
    unfold sparseSet
    split_ifs with h1 h2 h3 h3 h3 <;> simp_all [sparseFind] <;> grind

theorem sparseFind_sparseErase {α : Type} (k k' : Nat) (l : List (Nat × α)) :
    sparseFind k (sparseErase k' l) = if k = k' then none else sparseFind k l := by
  induction l with
  | nil => simp [sparseErase, sparseFind]
  | cons c rest ih =>
    by_cases h : c.1 = k' <;> simp_all [sparseErase, sparseFind] <;> grind

/-- Reading one byte after writing one byte, in every memory. -/
theorem Memory.read_write (m : Memory) (a b : Nat) (v : Byte) :
    Memory.read (Memory.write m a v) b = if b = a then v else Memory.read m b := by
  unfold Memory.read Memory.write
  by_cases hv : v = Memory.unlisted <;> by_cases hb : b = a <;>
    simp [hv, hb, sparseFind_sparseSet, sparseFind_sparseErase]

/-- Reading one byte after writing a byte sequence, in every memory. -/
theorem Memory.read_writeBytes (l : List Byte) (m : Memory) (a b : Nat) :
    Memory.read (Memory.writeBytes m a l) b =
      if a ≤ b ∧ b < a + l.length then byteAt l (b - a) else Memory.read m b := by
  induction l generalizing m a with
  | nil => simp [Memory.writeBytes]
  | cons x rest ih =>
    rw [Memory.writeBytes, ih, Memory.read_write]
    by_cases h : b = a
    · subst h; simp [byteAt]
    · by_cases h' : a + 1 ≤ b ∧ b < a + 1 + rest.length
      · have : b - a = b - (a + 1) + 1 := by omega
        rw [if_pos h', if_pos (by simp; omega), this]; simp [byteAt]
      · rw [if_neg h', if_neg h, if_neg (by simp; omega)]

@[simp] theorem Memory.length_readBytes (m : Memory) (a n : Nat) : (Memory.readBytes m a n).length = n := by
  induction n generalizing a with
  | zero => rfl
  | succ n ih => simp [Memory.readBytes, ih]

theorem Memory.byteAt_readBytes (m : Memory) (a n k : Nat) (h : k < n) :
    byteAt (Memory.readBytes m a n) k = Memory.read m (a + k) := by
  induction n generalizing a k with
  | zero => omega
  | succ n ih =>
    cases k with
    | zero => simp [Memory.readBytes, byteAt]
    | succ k =>
      have := ih (a + 1) k (by omega)
      simpa [Memory.readBytes, byteAt, Nat.add_assoc, Nat.add_comm 1 k] using this

/-- Two byte sequences of one length that agree at every index are equal. -/
theorem eq_of_byteAt {l l' : List Byte} (hl : l.length = l'.length) (h : ∀ k < l.length, byteAt l k = byteAt l' k) :
    l = l' := by
  apply List.ext_getElem hl
  intro k h1 h2
  have := h k h1
  simpa [byteAt, List.getD_eq_getElem?_getD, h1, h2] using this

/-- A byte sequence reads back from where it was written. -/
theorem Memory.readBytes_writeBytes (m : Memory) (a : Nat) (l : List Byte) :
    Memory.readBytes (Memory.writeBytes m a l) a l.length = l := by
  apply eq_of_byteAt (by simp)
  intro k hk
  rw [Memory.length_readBytes] at hk
  rw [Memory.byteAt_readBytes _ _ _ _ hk, Memory.read_writeBytes, if_pos (by omega)]
  simp

/-- A write of bytes leaves every address outside them alone. -/
theorem Memory.writeBytes_sameOutside (m : Memory) (a : Nat) (l : List Byte) :
    sameOutside m (Memory.writeBytes m a l) ⟨a, l.length⟩ := by
  intro b hb
  rw [Memory.read_writeBytes, if_neg]
  simp [spanHas] at hb
  omega

theorem sparseSet_pairwise {α : Type} (k : Nat) (v : α) (l : List (Nat × α))
    (h : l.Pairwise (fun c c' => c.1 < c'.1)) : (sparseSet k v l).Pairwise (fun c c' => c.1 < c'.1) := by
  induction l with
  | nil => simp [sparseSet]
  | cons c rest ih =>
    rw [List.pairwise_cons] at h
    unfold sparseSet
    split_ifs with h1 h2
    · refine List.pairwise_cons.2 ⟨?_, List.pairwise_cons.2 h⟩
      intro c' hc'
      rcases List.mem_cons.1 hc' with rfl | hm
      · exact h1
      · exact lt_trans h1 (h.1 c' hm)
    · subst h2; exact List.pairwise_cons.2 h
    · refine List.pairwise_cons.2 ⟨?_, ih h.2⟩
      intro c' hc'
      have key : ∀ l' : List (Nat × α), c' ∈ sparseSet k v l' → c' = (k, v) ∨ c' ∈ l' := by
        intro l'
        induction l' with
        | nil => simp [sparseSet]
        | cons x t iht =>
          unfold sparseSet
          split_ifs <;> simp only [List.mem_cons] <;> tauto
      rcases key rest hc' with rfl | hm
      · simp only; omega
      · exact h.1 c' hm

theorem mem_sparseSet {α : Type} {k : Nat} {v : α} {l : List (Nat × α)} {c : Nat × α} (h : c ∈ sparseSet k v l) :
    c = (k, v) ∨ c ∈ l := by
  induction l with
  | nil => simpa [sparseSet] using h
  | cons x t ih =>
    unfold sparseSet at h
    split_ifs at h <;> simp only [List.mem_cons] at h ⊢ <;> tauto

/-- A write inside the bus memory space keeps the canonical form. -/
theorem Memory.wf_write {m : Memory} (a : Nat) (v : Byte) (ha : a < addrSpace) (h : Memory.wf m) :
    Memory.wf (Memory.write m a v) := by
  unfold Memory.write
  split_ifs with hv
  · exact ⟨h.1.filter _, fun c hc => h.2 c (List.mem_of_mem_filter hc)⟩
  · refine ⟨sparseSet_pairwise _ _ _ h.1, fun c hc => ?_⟩
    rcases mem_sparseSet hc with rfl | hm
    · exact ⟨ha, hv⟩
    · exact h.2 c hm

/-- A write of bytes inside the bus memory space keeps the canonical form. -/
theorem Memory.wf_writeBytes (l : List Byte) {m : Memory} (a : Nat) (ha : a + l.length ≤ addrSpace) (h : Memory.wf m) :
    Memory.wf (Memory.writeBytes m a l) := by
  induction l generalizing m a with
  | nil => exact h
  | cons x rest ih =>
    simp only [List.length_cons] at ha
    exact ih (a + 1) (by omega) (Memory.wf_write a x (by omega) h)

theorem Memory.wf_reset : Memory.wf State.reset.mem := by decide

end Sys2Proof.Machine
end

