-- ==== Sys2Proof/Laws/State.lean ====
section
/-! SUPPORT. What each update of State does to each field, true by definition, so that no later proof unfolds a record
update. Each theorem is a conjunction that simp uses field by field. -/

namespace Sys2Proof.Machine

/-- START (10_state R33, R48), field by field. -/
@[simp] theorem State.start_fields (s : State) :
    s.start.cfg = s.cfg ∧
    s.start.irqEn = s.irqEn ∧
    s.start.cmd = s.cmd ∧
    s.start.phase = .busy ∧
    s.start.done = false ∧
    s.start.err = false ∧
    s.start.errCode = 0 ∧
    s.start.srcAddr = s.srcAddr ∧
    s.start.srcLen = s.srcLen ∧
    s.start.dstAddr = s.dstAddr ∧
    s.start.dstCap = s.dstCap ∧
    s.start.resultLen = 0 ∧
    s.start.resultAux = 0 ∧
    s.start.errInfo = 0 ∧
    s.start.lCmd = s.cmd ∧
    s.start.lSrc = s.srcAddr ∧
    s.start.lSLen = s.srcLen ∧
    s.start.lDst = s.dstAddr ∧
    s.start.lDCap = s.dstCap ∧
    s.start.work = s.work ∧
    s.start.mem = s.mem ∧
    s.start.resetHeld = s.resetHeld ∧
    s.start.raced = false ∧
    s.start.inputs = s.inputs ∧
    s.start.rdata = s.rdata ∧
    s.start.mdata = s.mdata ∧
    s.start.draws = s.draws :=
  ⟨rfl, rfl, rfl, rfl, rfl, rfl, rfl, rfl, rfl, rfl, rfl, rfl, rfl, rfl, rfl, rfl, rfl, rfl, rfl, rfl,
    rfl, rfl, rfl, rfl, rfl, rfl, rfl⟩

/-- Error completion (60_exceptions R255), field by field. -/
@[simp] theorem State.fail_fields (s : State) (code : ErrCode) (info : Nat) :
    (s.fail code info).cfg = s.cfg ∧
    (s.fail code info).irqEn = s.irqEn ∧
    (s.fail code info).cmd = s.cmd ∧
    (s.fail code info).phase = .idle ∧
    (s.fail code info).done = false ∧
    (s.fail code info).err = true ∧
    (s.fail code info).errCode = code.number ∧
    (s.fail code info).srcAddr = s.srcAddr ∧
    (s.fail code info).srcLen = s.srcLen ∧
    (s.fail code info).dstAddr = s.dstAddr ∧
    (s.fail code info).dstCap = s.dstCap ∧
    (s.fail code info).resultLen = 0 ∧
    (s.fail code info).resultAux = 0 ∧
    (s.fail code info).errInfo = BitVec.ofNat 32 info ∧
    (s.fail code info).lCmd = s.lCmd ∧
    (s.fail code info).lSrc = s.lSrc ∧
    (s.fail code info).lSLen = s.lSLen ∧
    (s.fail code info).lDst = s.lDst ∧
    (s.fail code info).lDCap = s.lDCap ∧
    (s.fail code info).work = s.work ∧
    (s.fail code info).mem = s.mem ∧
    (s.fail code info).resetHeld = s.resetHeld ∧
    (s.fail code info).raced = false ∧
    (s.fail code info).inputs = s.inputs ∧
    (s.fail code info).rdata = s.rdata ∧
    (s.fail code info).mdata = s.mdata ∧
    (s.fail code info).draws = s.draws + 1 :=
  ⟨rfl, rfl, rfl, rfl, rfl, rfl, rfl, rfl, rfl, rfl, rfl, rfl, rfl, rfl, rfl, rfl, rfl, rfl, rfl, rfl,
    rfl, rfl, rfl, rfl, rfl, rfl, rfl⟩

/-- Successful completion (60_exceptions R256), field by field. -/
@[simp] theorem State.succeed_fields (s : State) (len aux : Nat) :
    (s.succeed len aux).cfg = s.cfg ∧
    (s.succeed len aux).irqEn = s.irqEn ∧
    (s.succeed len aux).cmd = s.cmd ∧
    (s.succeed len aux).phase = .idle ∧
    (s.succeed len aux).done = true ∧
    (s.succeed len aux).err = false ∧
    (s.succeed len aux).errCode = 0 ∧
    (s.succeed len aux).srcAddr = s.srcAddr ∧
    (s.succeed len aux).srcLen = s.srcLen ∧
    (s.succeed len aux).dstAddr = s.dstAddr ∧
    (s.succeed len aux).dstCap = s.dstCap ∧
    (s.succeed len aux).resultLen = BitVec.ofNat 32 len ∧
    (s.succeed len aux).resultAux = BitVec.ofNat 32 aux ∧
    (s.succeed len aux).errInfo = 0 ∧
    (s.succeed len aux).lCmd = s.lCmd ∧
    (s.succeed len aux).lSrc = s.lSrc ∧
    (s.succeed len aux).lSLen = s.lSLen ∧
    (s.succeed len aux).lDst = s.lDst ∧
    (s.succeed len aux).lDCap = s.lDCap ∧
    (s.succeed len aux).work = s.work ∧
    (s.succeed len aux).mem = s.mem ∧
    (s.succeed len aux).resetHeld = s.resetHeld ∧
    (s.succeed len aux).raced = false ∧
    (s.succeed len aux).inputs = s.inputs ∧
    (s.succeed len aux).rdata = s.rdata ∧
    (s.succeed len aux).mdata = s.mdata ∧
    (s.succeed len aux).draws = s.draws :=
  ⟨rfl, rfl, rfl, rfl, rfl, rfl, rfl, rfl, rfl, rfl, rfl, rfl, rfl, rfl, rfl, rfl, rfl, rfl, rfl, rfl,
    rfl, rfl, rfl, rfl, rfl, rfl, rfl⟩

/-- The destination region becomes free values (20_memory R78), field by field. -/
@[simp] theorem State.scramble_fields (s : State) :
    s.scramble.cfg = s.cfg ∧
    s.scramble.irqEn = s.irqEn ∧
    s.scramble.cmd = s.cmd ∧
    s.scramble.phase = s.phase ∧
    s.scramble.done = s.done ∧
    s.scramble.err = s.err ∧
    s.scramble.errCode = s.errCode ∧
    s.scramble.srcAddr = s.srcAddr ∧
    s.scramble.srcLen = s.srcLen ∧
    s.scramble.dstAddr = s.dstAddr ∧
    s.scramble.dstCap = s.dstCap ∧
    s.scramble.resultLen = s.resultLen ∧
    s.scramble.resultAux = s.resultAux ∧
    s.scramble.errInfo = s.errInfo ∧
    s.scramble.lCmd = s.lCmd ∧
    s.scramble.lSrc = s.lSrc ∧
    s.scramble.lSLen = s.lSLen ∧
    s.scramble.lDst = s.lDst ∧
    s.scramble.lDCap = s.lDCap ∧
    s.scramble.work = s.work ∧
    s.scramble.mem = Memory.writeBytes s.mem s.lDst.toNat s.freeDest ∧
    s.scramble.resetHeld = s.resetHeld ∧
    s.scramble.raced = s.raced ∧
    s.scramble.inputs = s.inputs ∧
    s.scramble.rdata = s.rdata ∧
    s.scramble.mdata = s.mdata ∧
    s.scramble.draws = s.draws :=
  ⟨rfl, rfl, rfl, rfl, rfl, rfl, rfl, rfl, rfl, rfl, rfl, rfl, rfl, rfl, rfl, rfl, rfl, rfl, rfl, rfl,
    rfl, rfl, rfl, rfl, rfl, rfl, rfl⟩

/-- The acknowledgement (10_state R38), field by field. -/
@[simp] theorem State.acknowledge_fields (s : State) (v : Word) :
    (s.acknowledge v).cfg = s.cfg ∧
    (s.acknowledge v).irqEn = s.irqEn ∧
    (s.acknowledge v).cmd = s.cmd ∧
    (s.acknowledge v).phase = s.phase ∧
    (s.acknowledge v).done = (s.done && !v.getLsbD 1) ∧
    (s.acknowledge v).err = (s.err && !v.getLsbD 2) ∧
    (s.acknowledge v).errCode = (if v.getLsbD 2 then 0 else s.errCode) ∧
    (s.acknowledge v).srcAddr = s.srcAddr ∧
    (s.acknowledge v).srcLen = s.srcLen ∧
    (s.acknowledge v).dstAddr = s.dstAddr ∧
    (s.acknowledge v).dstCap = s.dstCap ∧
    (s.acknowledge v).resultLen = s.resultLen ∧
    (s.acknowledge v).resultAux = s.resultAux ∧
    (s.acknowledge v).errInfo = s.errInfo ∧
    (s.acknowledge v).lCmd = s.lCmd ∧
    (s.acknowledge v).lSrc = s.lSrc ∧
    (s.acknowledge v).lSLen = s.lSLen ∧
    (s.acknowledge v).lDst = s.lDst ∧
    (s.acknowledge v).lDCap = s.lDCap ∧
    (s.acknowledge v).work = s.work ∧
    (s.acknowledge v).mem = s.mem ∧
    (s.acknowledge v).resetHeld = s.resetHeld ∧
    (s.acknowledge v).raced = s.raced ∧
    (s.acknowledge v).inputs = s.inputs ∧
    (s.acknowledge v).rdata = s.rdata ∧
    (s.acknowledge v).mdata = s.mdata ∧
    (s.acknowledge v).draws = s.draws :=
  ⟨rfl, rfl, rfl, rfl, rfl, rfl, rfl, rfl, rfl, rfl, rfl, rfl, rfl, rfl, rfl, rfl, rfl, rfl, rfl, rfl,
    rfl, rfl, rfl, rfl, rfl, rfl, rfl⟩

/-- The reset of the registers (10_state R59), field by field. -/
@[simp] theorem State.resetRegs_fields (s : State) :
    s.resetRegs.cfg = s.cfg ∧
    s.resetRegs.irqEn = false ∧
    s.resetRegs.cmd = 0 ∧
    s.resetRegs.phase = .idle ∧
    s.resetRegs.done = false ∧
    s.resetRegs.err = false ∧
    s.resetRegs.errCode = 0 ∧
    s.resetRegs.srcAddr = 0 ∧
    s.resetRegs.srcLen = 0 ∧
    s.resetRegs.dstAddr = 0 ∧
    s.resetRegs.dstCap = 0 ∧
    s.resetRegs.resultLen = 0 ∧
    s.resetRegs.resultAux = 0 ∧
    s.resetRegs.errInfo = 0 ∧
    s.resetRegs.lCmd = s.lCmd ∧
    s.resetRegs.lSrc = s.lSrc ∧
    s.resetRegs.lSLen = s.lSLen ∧
    s.resetRegs.lDst = s.lDst ∧
    s.resetRegs.lDCap = s.lDCap ∧
    s.resetRegs.work = s.work ∧
    s.resetRegs.mem = s.mem ∧
    s.resetRegs.resetHeld = s.resetHeld ∧
    s.resetRegs.raced = false ∧
    s.resetRegs.inputs = s.inputs ∧
    s.resetRegs.rdata = s.rdata ∧
    s.resetRegs.mdata = s.mdata ∧
    s.resetRegs.draws = s.draws :=
  ⟨rfl, rfl, rfl, rfl, rfl, rfl, rfl, rfl, rfl, rfl, rfl, rfl, rfl, rfl, rfl, rfl, rfl, rfl, rfl, rfl,
    rfl, rfl, rfl, rfl, rfl, rfl, rfl⟩

/-- What every raced completion leaves (20_memory R80): the operands, the latches and the working state as they were, one
completion flag, memory as it was or with the destination region free. -/
theorem State.completeRaced_fields (s : State) (w : Bool) :
    (s.completeRaced w).cfg = s.cfg ∧ (s.completeRaced w).phase = .idle ∧ (s.completeRaced w).raced = false ∧
    (s.completeRaced w).err = !(s.completeRaced w).done ∧ (s.completeRaced w).work = s.work ∧
    (s.completeRaced w).inputs = s.inputs ∧ (s.completeRaced w).resetHeld = s.resetHeld ∧
    (s.completeRaced w).mem = (if w then s.scramble.mem else s.mem) := by
  cases w <;> exact ⟨rfl, rfl, rfl, rfl, rfl, rfl, rfl, rfl⟩

end Sys2Proof.Machine
end

