-- ==== Sys2Proof/Laws/Ops.lean ====
section
/-! SUPPORT. What each shared operation can do, said once: the bus's answers, the completions, the shape of every command. -/

namespace Sys2Proof.Machine

/-! ### The bus's answers -/

theorem firstStop_eq_none (cfg : Params) (l : List (Nat × AccessKind)) :
    firstStop cfg l = none ↔ ∀ x ∈ l, busStop cfg x.1 x.2 = none := by
  induction l with
  | nil => simp [firstStop]
  | cons x rest ih => unfold firstStop; cases h : busStop cfg x.1 x.2 <;> simp [h, ih]

/-- The first stop is the stop of some access of the sequence. -/
theorem firstStop_some {cfg : Params} {l : List (Nat × AccessKind)} {st : Stop} (h : firstStop cfg l = some st) :
    ∃ x ∈ l, busStop cfg x.1 x.2 = some st := by
  induction l with
  | nil => simp [firstStop] at h
  | cons x rest ih =>
    unfold firstStop at h
    split at h
    · next st' h' => exact ⟨x, by simp, by rw [h', ← h]⟩
    · obtain ⟨y, hy, hs⟩ := ih h
      exact ⟨y, List.mem_cons_of_mem _ hy, hs⟩

theorem anyStop_eq_none (cfg : Params) (t : Nat) (l : List (Nat × AccessKind)) :
    anyStop cfg t l = none ↔ ∀ x ∈ l, busStop cfg x.1 x.2 = none := by
  unfold anyStop
  split
  · next h => simpa [List.filterMap_eq_nil_iff] using h
  · next st h =>
    constructor
    · simp
    · intro hn
      rw [List.filterMap_eq_nil_iff.2 (by simpa using hn)] at h
      simp at h
  · next st rest hne h =>
    constructor
    · simp
    · intro hn
      rw [List.filterMap_eq_nil_iff.2 (by simpa using hn)] at h
      simp at h

/-- A free choice among the stops is the stop of some access of the list. -/
theorem anyStop_some {cfg : Params} {t : Nat} {l : List (Nat × AccessKind)} {st : Stop} (h : anyStop cfg t l = some st) :
    ∃ x ∈ l, busStop cfg x.1 x.2 = some st := by
  have key : st ∈ l.filterMap (fun x => busStop cfg x.1 x.2) := by
    unfold anyStop at h
    split at h
    · simp at h
    · next st' h' => simp only [Option.some.injEq] at h; simp [h', h]
    · next st' rest hne h' =>
      rw [h']
      simp only [Option.some.injEq] at h
      rw [← h, List.getD_eq_getElem _ _ (by simp only [List.length_cons]; exact Nat.mod_lt _ (Nat.succ_pos _))]
      exact List.getElem_mem _
  simpa using key

theorem mem_accesses {k : AccessKind} {a n : Nat} {x : Nat × AccessKind} :
    x ∈ accesses k a n ↔ x.2 = k ∧ a ≤ x.1 ∧ x.1 < a + n := by
  rcases x with ⟨b, k'⟩
  simp only [accesses, List.mem_map, List.mem_range, Prod.mk.injEq]
  constructor
  · rintro ⟨i, hi, rfl, rfl⟩; exact ⟨rfl, by omega, by omega⟩
  · rintro ⟨rfl, h1, h2⟩; exact ⟨b - a, by omega, by omega, rfl⟩

/-- A value's bytes are all served exactly when no stop comes from them, in either byte order. -/
theorem valueStop_eq_none (cfg : Params) (t : Nat) (e : Endian) (a n : Nat) :
    valueStop cfg t e a n = none ↔ ∀ b, a ≤ b → b < a + n → busStop cfg b .read = none := by
  have h : valueStop cfg t e a n = none ↔ ∀ x ∈ accesses .read a n, busStop cfg x.1 x.2 = none := by
    cases e
    · exact firstStop_eq_none _ _
    · exact anyStop_eq_none _ _ _
  rw [h]
  constructor
  · intro hx b h1 h2; exact hx (b, .read) (mem_accesses.2 ⟨rfl, h1, h2⟩)
  · rintro hx ⟨b, k⟩ hm
    obtain ⟨rfl, h1, h2⟩ := mem_accesses.1 hm
    exact hx b h1 h2

/-- On a bus without rules every access is served. -/
theorem busStop_noRules {cfg : Params} (h : cfg.busRules = []) (a : Nat) (k : AccessKind) : busStop cfg a k = none := by
  simp [busStop, h]

/-- A command with legal regions of ordinary memory is ready on a bus without rules. -/
theorem State.ready_of_noRules {s : State} {u : DestUse} (h1 : s.raced = false) (h2 : s.regionError u = none)
    (h3 : s.regionNotMemory u = false) (h4 : s.cfg.busRules = []) : s.Ready u :=
  ⟨h1, h2, h3, fun a _ => busStop_noRules h4 a _, fun a k _ => busStop_noRules h4 a k⟩

/-- The reads of a ready command are served. -/
theorem State.Ready.read {s : State} {u : DestUse} (h : s.Ready u) (a : Nat) (h1 : s.src ≤ a) (h2 : a < s.src + s.slen) :
    busStop s.cfg a .read = none :=
  h.served.1 a (by
    simp only [spanHas, State.srcSpan, Bool.and_eq_true]; exact ⟨decide_eq_true h1, decide_eq_true h2⟩)

/-- The accesses of a ready command to its destination region are served. -/
theorem State.Ready.dest {s : State} {u : DestUse} (h : s.Ready u) (hu : u.hasDest = true) (a : Nat) (k : AccessKind)
    (h1 : s.dst ≤ a) (h2 : a < s.dst + s.dcap) : busStop s.cfg a k = none :=
  h.served.2 a k (by
    simp only [spanHas, State.destRegion, hu, if_true, Bool.and_eq_true]
    exact ⟨decide_eq_true h1, decide_eq_true h2⟩)

/-- The reads of a ready command inside its source region are served, as a list. -/
theorem State.Ready.reads {s : State} {u : DestUse} (h : s.Ready u) (o n : Nat) (hn : o + n ≤ s.slen) :
    ∀ x ∈ accesses .read (s.src + o) n, busStop s.cfg x.1 x.2 = none := by
  rintro ⟨b, k⟩ hx
  obtain ⟨rfl, h1, h2⟩ := mem_accesses.1 hx
  simp only at h1 h2
  exact h.read b (by omega) (by omega)

/-- The writes of a ready command to its destination region are served, as a list. -/
theorem State.Ready.writes {s : State} {u : DestUse} (h : s.Ready u) (hu : u.hasDest = true) (n : Nat) (hn : n ≤ s.dcap) :
    ∀ x ∈ accesses .write s.dst n, busStop s.cfg x.1 x.2 = none := by
  rintro ⟨b, k⟩ hx
  obtain ⟨-, h1, h2⟩ := mem_accesses.1 hx
  simp only at h1 h2
  exact h.dest hu b k (by omega) (by omega)

/-! ### Spans and the register window -/

theorem spanHas_iff {r : Span} {a : Nat} : spanHas r a = true ↔ r.base ≤ a ∧ a < r.base + r.size := by
  simp [spanHas]

theorem spansOverlap_iff {r q : Span} : spansOverlap r q = true ↔
    0 < r.size ∧ 0 < q.size ∧ r.base < q.base + q.size ∧ q.base < r.base + r.size := by
  simp [spansOverlap, and_assoc]

/-- The window of `regWindows` holds the addresses that the offsets of register accesses reach (log 36). -/
theorem inWindow_iff (cfg : Params) {a : Nat} (ha : a < addrSpace) :
    inWindow cfg a = true ↔ (BitVec.ofNat 32 a - cfg.cceBase).toNat < 64 := by
  have hb := cfg.cceBase.isLt
  simp only [inWindow, regWindows, List.any_cons, List.any_nil, Bool.or_false, Bool.or_eq_true, spanHas_iff, addrSpace,
    BitVec.toNat_sub, BitVec.toNat_ofNat] at *
  omega

/-! ### Completions -/

theorem State.fail_failed (s : State) (code : ErrCode) (info : Nat) : (s.fail code info).Failed code info :=
  ⟨rfl, rfl, rfl, rfl, rfl, rfl, rfl⟩

theorem State.succeed_succeeded (s : State) (len aux : Nat) : (s.succeed len aux).Succeeded len aux :=
  ⟨rfl, rfl, rfl, rfl, rfl, rfl, rfl⟩

theorem State.fail_operands (s : State) (code : ErrCode) (info : Nat) : s.SameOperands (s.fail code info) := by
  constructor <;> rfl

theorem State.completeRaced_operands (s : State) (w : Bool) : s.SameOperands (s.completeRaced w) := by
  cases w <;> constructor <;> rfl

theorem State.length_freeDest (s : State) : s.freeDest.length = min s.dcap (addrSpace - s.dst) := by
  simp [State.freeDest, State.dcap, State.dst]

/-- A scrambled destination region changes no byte outside it. -/
theorem State.scramble_sameOutside (s : State) : sameOutside s.mem s.scramble.mem ⟨s.dst, s.dcap⟩ := by
  intro a ha
  refine Memory.writeBytes_sameOutside s.mem s.dst s.freeDest a ?_
  simp only [spanHas, State.length_freeDest, Bool.and_eq_false_iff, decide_eq_false_iff_not] at ha ⊢
  omega

/-- A scrambled destination region leaves memory canonical, wherever it lies. -/
theorem State.scramble_wf {s : State} (h : Memory.wf s.mem) : Memory.wf s.scramble.mem := by
  refine Memory.wf_writeBytes _ _ ?_ h
  rw [State.length_freeDest]
  have := s.lDst.isLt
  simp only [State.dcap, State.dst, addrSpace]
  omega

/-- An error of the checks is that error, or a raced completion; neither changes memory. -/
theorem State.failChecks_cases (s : State) (code : ErrCode) (info : Nat) :
    (s.raced = false ∧ s.failChecks code info = s.fail code info) ∨
      (s.raced = true ∧ s.failChecks code info = s.completeRaced false) := by
  unfold State.failChecks
  cases s.raced <;> simp

/-- What a completion step can be. -/
theorem State.complete_cases {s t : State} {dest : Bool} {e : Ending} (h : s.complete dest e = .next t) :
    (s.raced = true ∧ t = s.completeRaced dest) ∨
    (s.raced = false ∧ ∃ code info, e = .stopped (.error code info) true ∧ t = s.scramble.fail code info) ∨
    (s.raced = false ∧ ∃ code info, e = .stopped (.error code info) false ∧ t = s.fail code info) ∨
    (s.raced = false ∧ ∃ out len aux work, e = .done out len aux work ∧
      t = ({ s with mem := Memory.writeBytes s.mem s.lDst.toNat out, work := work } : State).succeed len aux) := by
  unfold State.complete at h
  rcases e with ⟨out, len, aux, work⟩ | ⟨_ | _, dirty⟩
  · cases hr : s.raced <;> simp_all
  · cases hr : s.raced <;> cases dirty <;> simp_all
  · simp at h

/-- What a command can do: a region error, an error of its own checks, or its completion. -/
theorem State.runCommand_cases {s t : State} {u : DestUse} {own : Option (ErrCode × Nat)} {body : Ending}
    (h : s.runCommand u own body = .next t) :
    (∃ info, s.regionError u = some info ∧ t = s.failChecks .badRegion info) ∨
    (s.regionError u = none ∧ ∃ code info, own = some (code, info) ∧ t = s.failChecks code info) ∨
    (s.regionError u = none ∧ own = none ∧ s.regionNotMemory u = false ∧ s.complete u.hasDest body = .next t) := by
  unfold State.runCommand at h
  split at h
  · next info hi => exact .inl ⟨info, hi, by simpa using h.symm⟩
  · next hi =>
    split at h
    · next code info => exact .inr (.inl ⟨hi, code, info, rfl, by simpa using h.symm⟩)
    · split_ifs at h with hm
      exact .inr (.inr ⟨hi, rfl, by simpa using hm, h⟩)

/-- A command whose regions are legal and ordinary and whose own checks pass comes to its completion. -/
theorem State.runCommand_ready {s : State} {u : DestUse} (body : Ending) (hr : s.regionError u = none)
    (hm : s.regionNotMemory u = false) : s.runCommand u none body = s.complete u.hasDest body := by
  simp [State.runCommand, hr, hm]

/-- A command that is not raced and whose own checks find an error ends with it, memory unchanged. -/
theorem State.runCommand_check {s : State} {u : DestUse} {code : ErrCode} {info : Nat} (body : Ending)
    (hr : s.raced = false) (h : s.regionError u = none) :
    s.runCommand u (some (code, info)) body = .next (s.fail code info) := by
  simp [State.runCommand, h, State.failChecks, hr]

/-- What a host finds after a success that stored `out`. -/
theorem State.stored_facts (s : State) (out : List Byte) (len aux : Nat) (work : Work) :
    let t := ({ s with mem := Memory.writeBytes s.mem s.lDst.toNat out, work := work } : State).succeed len aux
    t.Succeeded len aux ∧ s.SameOperands t ∧ Memory.readBytes t.mem s.dst out.length = out ∧
      sameOutside s.mem t.mem ⟨s.dst, out.length⟩ :=
  ⟨State.succeed_succeeded _ _ _, by constructor <;> rfl, Memory.readBytes_writeBytes _ _ _,
    Memory.writeBytes_sameOutside _ _ _⟩

/-- A completion that is not raced and stores `out`. -/
theorem State.complete_done {s : State} {dest : Bool} (out : List Byte) (len aux : Nat) (work : Work)
    (hr : s.raced = false) : s.complete dest (.done out len aux work) =
      .next (({ s with mem := Memory.writeBytes s.mem s.lDst.toNat out, work := work } : State).succeed len aux) := by
  simp [State.complete, hr]

/-- An error completion that is not raced, before the first destination write. -/
theorem State.complete_clean {s : State} {dest : Bool} (code : ErrCode) (info : Nat) (hr : s.raced = false) :
    s.complete dest (.stopped (.error code info) false) = .next (s.fail code info) := by
  simp [State.complete, hr]

/-- Every completion leaves the operands alone. -/
theorem State.complete_operands {s t : State} {dest : Bool} {e : Ending} (h : s.complete dest e = .next t) :
    s.SameOperands t := by
  rcases State.complete_cases h with ⟨-, rfl⟩ | ⟨-, c, i, -, rfl⟩ | ⟨-, c, i, -, rfl⟩ | ⟨-, o, l, a, w, -, rfl⟩
  · exact s.completeRaced_operands dest
  · constructor <;> rfl
  · exact s.fail_operands c i
  · constructor <;> rfl

/-- Every command leaves the operands alone. -/
theorem State.runCommand_operands {s t : State} {u : DestUse} {own : Option (ErrCode × Nat)} {body : Ending}
    (h : s.runCommand u own body = .next t) : s.SameOperands t := by
  have hc : ∀ code info, s.SameOperands (s.failChecks code info) := by
    intro code info
    rcases s.failChecks_cases code info with ⟨-, he⟩ | ⟨-, he⟩ <;> rw [he]
    · exact s.fail_operands code info
    · exact s.completeRaced_operands false
  rcases State.runCommand_cases h with ⟨i, -, rfl⟩ | ⟨-, c, i, -, rfl⟩ | ⟨-, -, -, hk⟩
  · exact hc _ _
  · exact hc _ _
  · exact State.complete_operands hk

/-- Every command comes back to phase IDLE (10_state R53). -/
theorem State.runCommand_idle {s t : State} {u : DestUse} {own : Option (ErrCode × Nat)} {body : Ending}
    (h : s.runCommand u own body = .next t) : t.phase = .idle := by
  have hc : ∀ code info, (s.failChecks code info).phase = .idle := by
    intro code info
    rcases s.failChecks_cases code info with ⟨-, he⟩ | ⟨-, he⟩ <;> rw [he]
    · rfl
    · exact (s.completeRaced_fields false).2.1
  rcases State.runCommand_cases h with ⟨i, -, rfl⟩ | ⟨-, c, i, -, rfl⟩ | ⟨-, -, -, hk⟩
  · exact hc _ _
  · exact hc _ _
  · rcases State.complete_cases hk with ⟨-, rfl⟩ | ⟨-, c, i, -, rfl⟩ | ⟨-, c, i, -, rfl⟩ | ⟨-, o, l, a, w, -, rfl⟩
    · exact (s.completeRaced_fields u.hasDest).2.1
    · rfl
    · rfl
    · rfl

end Sys2Proof.Machine
end

