-- ==== Sys2Proof/Laws/Commands.lean ====
section
/-! SUPPORT. What each command's execution can do, said once: the bytes and lengths it completes with, and where its
errors come from. -/

namespace Sys2Proof.Machine

/-! ### Errors that come from the bus -/

/-- A `BUS_ERROR` names an address at which the bus answers an access with an error (20_memory R73). -/
def Stop.honest (cfg : Params) : Stop → Prop
  | .error code info => code = .busError → ∃ k, busStop cfg info k = some (.error .busError info)
  | .stall => True

theorem busStop_honest {cfg : Params} {a : Nat} {k : AccessKind} {st : Stop} (h : busStop cfg a k = some st) :
    st.honest cfg := by
  have h' := h
  unfold busStop at h
  split at h
  · simp at h
  · split at h <;> simp only [Option.some.injEq] at h <;> subst h
    · exact fun _ => ⟨k, h'⟩
    · trivial

theorem firstStop_honest {cfg : Params} {l : List (Nat × AccessKind)} {st : Stop} (h : firstStop cfg l = some st) :
    st.honest cfg := by
  obtain ⟨x, -, hx⟩ := firstStop_some h
  exact busStop_honest hx

theorem anyStop_honest {cfg : Params} {t : Nat} {l : List (Nat × AccessKind)} {st : Stop}
    (h : anyStop cfg t l = some st) : st.honest cfg := by
  obtain ⟨x, -, hx⟩ := anyStop_some h
  exact busStop_honest hx

theorem valueStop_honest {cfg : Params} {t : Nat} {e : Endian} {a n : Nat} {st : Stop}
    (h : valueStop cfg t e a n = some st) : st.honest cfg := by
  cases e
  · exact firstStop_honest h
  · exact anyStop_honest h

/-! ### What an ending may be -/

/-- An ending of a command run from state `s` that completes reports as its length the number of bytes it stores, at most
`cap`, and leaves the hash table proper; an ending by an error names its bus error honestly, and comes after a destination
write only where `cap` is the whole capacity. -/
def Ending.Sound (s : State) (cap : Nat) : Ending → Prop
  | .done out len _ work =>
    len = out.length ∧ out.length ≤ cap ∧ (tableWf s.work.comp.table → tableWf work.comp.table)
  | .stopped st dirty => st.honest s.cfg ∧ (dirty = true → cap = s.dcap)

theorem length_put32 (v : Nat) (e : Endian) : (put32 v e).length = 4 := by cases e <;> rfl

theorem length_put16 (v : Nat) (e : Endian) : (put16 v e).length = 2 := by cases e <;> rfl

@[simp] theorem length_srcBytes (s : State) : s.srcBytes.length = s.slen := Memory.length_readBytes _ _ _

/-- The checks of a cipher command that pass say that the length is whole blocks and fits (40_cipher R131). -/
theorem cipherChecks_none {s : State} {d : Bool} (h : cipherChecks s d = none) :
    s.slen % 8 = 0 ∧ s.slen ≤ s.dcap ∧ (d = true → 0 < s.slen) := by
  unfold cipherChecks at h
  split_ifs at h with h1 h2 h3
  refine ⟨by simpa using h1, by omega, fun hd => ?_⟩
  simp [hd] at h2
  omega

theorem cipherBody_sound {s : State} {f : BitVec 64 → BitVec 64 → BitVec 64} (h8 : s.slen % 8 = 0)
    (hc : s.slen ≤ s.dcap) : (cipherBody s f).Sound s s.dcap := by
  unfold cipherBody
  split
  · next h => exact ⟨anyStop_honest h, fun _ => rfl⟩
  · refine ⟨?_, ?_, id⟩ <;> rw [length_ecb] <;> simp only [desBlock] <;> omega

theorem verifyBody_sound {s : State} : (verifyBody s).Sound s 0 := by
  unfold verifyBody
  split
  · next h => exact ⟨anyStop_honest h, fun h => (by cases h)⟩
  · split
    · exact ⟨rfl, Nat.le_refl _, id⟩
    · exact ⟨fun h => (by cases h), fun h => (by cases h)⟩

theorem ac1350Body_sound {s : State} {e : Endian} :
    (ac1350Body s e).Sound s 0 := by
  unfold ac1350Body
  split
  · next h => exact ⟨valueStop_honest h, fun h => (by cases h)⟩
  · simp only
    split
    · exact ⟨fun h => (by cases h), fun h => (by cases h)⟩
    · split
      · next h => exact ⟨anyStop_honest h, fun h => (by cases h)⟩
      · split
        · exact ⟨rfl, Nat.le_refl _, id⟩
        · exact ⟨fun h => (by cases h), fun h => (by cases h)⟩

theorem length_md5Bytes (st : Md5State) : (md5Bytes st).length = 16 := by simp [md5Bytes, length_put32]

theorem digestBody_sound {s : State} (hc : 16 ≤ s.dcap) :
    (digestBody s).Sound s s.dcap := by
  unfold digestBody
  split
  · next h => exact ⟨anyStop_honest h, fun _ => rfl⟩
  · split
    · next h => exact ⟨anyStop_honest h, fun _ => rfl⟩
    · exact ⟨(length_md5Bytes _).symm, by rw [length_md5Bytes]; exact hc, id⟩

/-! ### DECOMPRESS -/

theorem DecJob.access_ok {j : DecJob} {a : Nat} {k : AccessKind} : j.access a k = .ok () ↔ busStop j.cfg a k = none := by
  unfold DecJob.access
  split <;> simp_all

theorem DecJob.access_error {j : DecJob} {a : Nat} {k : AccessKind} {st : Stop} (h : j.access a k = .error st) :
    st.honest j.cfg := by
  unfold DecJob.access at h
  split at h
  · next h' => simp only [Except.error.injEq] at h; exact h ▸ busStop_honest h'
  · simp at h

/-- The error of a sequence is the error of its first part or of its second. -/
theorem Except.bind_error {ε α β : Type} {x : Except ε α} {f : α → Except ε β} {e : ε} (h : (x >>= f) = .error e) :
    x = .error e ∨ ∃ a, x = .ok a ∧ f a = .error e := by
  cases x with
  | error e' => exact .inl (by cases h; rfl)
  | ok a => exact .inr ⟨a, rfl, h⟩

/-- The value of a sequence is the value of its second part on the value of its first. -/
theorem Except.bind_ok {ε α β : Type} {x : Except ε α} {f : α → Except ε β} {b : β} (h : (x >>= f) = .ok b) :
    ∃ a, x = .ok a ∧ f a = .ok b := by
  cases x with
  | error e' => cases h
  | ok a => exact ⟨a, rfl, h⟩

theorem getByte_error {j : DecJob} {w : DecState} {st : Stop} (h : getByte j w = .error st) : st.honest j.cfg := by
  unfold getByte at h
  split_ifs at h
  · cases h; intro h; cases h
  · rcases Except.bind_error h with h | ⟨_, -, h⟩
    · exact DecJob.access_error h
    · cases h

/-- `getbyte()` moves the source cursor only. -/
theorem getByte_ok {j : DecJob} {w w' : DecState} {b : Byte} (h : getByte j w = .ok (b, w')) :
    w.s < j.src.length ∧ b = byteAt j.src w.s ∧ w' = { w with s := w.s + 1 } := by
  unfold getByte at h
  split_ifs at h with hs
  obtain ⟨_, -, h⟩ := Except.bind_ok h
  cases h
  exact ⟨by omega, rfl, rfl⟩

theorem fetchWindow_error {j : DecJob} {w : DecState} {st : Stop} (h : fetchWindow j w = .error st) :
    st.honest j.cfg := by
  unfold fetchWindow at h
  split_ifs at h
  · cases h; intro h; cases h
  · split at h
    · next h' => cases h; exact valueStop_honest h'
    · cases h

/-- The fetch of a control word keeps the output cursor, the size and the accumulator. -/
theorem fetchWindow_ok {j : DecJob} {w w' : DecState} (h : fetchWindow j w = .ok w') :
    w'.d = w.d ∧ w'.size = w.size ∧ w'.acc = w.acc := by
  unfold fetchWindow at h
  split_ifs at h
  · cases h; exact ⟨rfl, rfl, rfl⟩
  · split at h
    · cases h
    · cases h; exact ⟨rfl, rfl, rfl⟩

theorem getBit_error {j : DecJob} {w : DecState} {st : Stop} (h : getBit j w = .error st) : st.honest j.cfg := by
  rcases Except.bind_error h with h | ⟨_, -, h⟩
  · exact fetchWindow_error h
  · cases h

/-- `getbit()` keeps the output cursor, the size and the accumulator. -/
theorem getBit_ok {j : DecJob} {w w' : DecState} {b : Bool} (h : getBit j w = .ok (b, w')) :
    w'.d = w.d ∧ w'.size = w.size ∧ w'.acc = w.acc := by
  obtain ⟨w1, h1, h2⟩ := Except.bind_ok h
  obtain ⟨hd, hz, ha⟩ := fetchWindow_ok h1
  cases h2
  exact ⟨hd, hz, ha⟩

theorem dictLoop_error {j : DecJob} {fuel : Nat} {w : DecState} {st : Stop} (h : dictLoop j fuel w = .error st) :
    st.honest j.cfg := by
  induction fuel generalizing w with
  | zero => cases h; intro h; cases h
  | succ fuel ih =>
    unfold dictLoop at h
    split_ifs at h
    · cases h; intro h; cases h
    · rcases Except.bind_error h with h | ⟨⟨b, w1⟩, -, h⟩
      · exact getBit_error h
      · rcases Except.bind_error h with h | ⟨⟨more, w2⟩, -, h⟩
        · exact getBit_error h
        · simp only at h
          split_ifs at h
          exact ih h

/-- `dict_ld()` keeps the output cursor and the size. -/
theorem dictLoop_ok {j : DecJob} {fuel : Nat} {w w' : DecState} {v : Nat} (h : dictLoop j fuel w = .ok (v, w')) :
    w'.d = w.d ∧ w'.size = w.size := by
  induction fuel generalizing w with
  | zero => cases h
  | succ fuel ih =>
    unfold dictLoop at h
    split_ifs at h
    obtain ⟨⟨b, w1⟩, h1, h⟩ := Except.bind_ok h
    obtain ⟨⟨more, w2⟩, h2, h⟩ := Except.bind_ok h
    obtain ⟨d1, z1, -⟩ := getBit_ok h1
    obtain ⟨d2, z2, -⟩ := getBit_ok h2
    simp only at h d2 z2
    split_ifs at h
    · obtain ⟨d3, z3⟩ := ih h
      exact ⟨by rw [d3, d2, d1], by rw [z3, z2, z1]⟩
    · cases h
      exact ⟨by rw [d2, d1], by rw [z2, z1]⟩

theorem copyMatch_error {j : DecJob} {len r : Nat} {out : List Byte} {st : Stop}
    (h : copyMatch j len r out = .error st) : st.honest j.cfg := by
  induction len generalizing r out with
  | zero => cases h
  | succ len ih =>
    rcases Except.bind_error h with h | ⟨_, -, h⟩
    · exact DecJob.access_error h
    · rcases Except.bind_error h with h | ⟨_, -, h⟩
      · exact DecJob.access_error h
      · exact ih h

/-- A match copy appends `len` bytes. -/
theorem copyMatch_length {j : DecJob} {len r : Nat} {out out' : List Byte} (h : copyMatch j len r out = .ok out') :
    out'.length = out.length + len := by
  induction len generalizing r out with
  | zero => cases h; rfl
  | succ len ih =>
    obtain ⟨_, -, h⟩ := Except.bind_ok h
    obtain ⟨_, -, h⟩ := Except.bind_ok h
    have := ih h
    simp only [List.length_append, List.length_singleton] at this
    omega

theorem decToken_error {j : DecJob} {w : DecState} {out : List Byte} {st : Stop} (h : decToken j w out = .error st) :
    st.honest j.cfg := by
  rcases Except.bind_error h with h | ⟨⟨flag, w1⟩, -, h⟩
  · exact getBit_error h
  simp only at h
  split_ifs at h
  · rcases Except.bind_error h with h | ⟨⟨v1, w2⟩, -, h⟩
    · exact dictLoop_error h
    rcases Except.bind_error h with h | ⟨⟨v2, w3⟩, -, h⟩
    · exact dictLoop_error h
    rcases Except.bind_error h with h | ⟨⟨lo, w4⟩, -, h⟩
    · exact getByte_error h
    simp only at h
    split_ifs at h
    · cases h; intro h; cases h
    · rcases Except.bind_error h with h | ⟨_, -, h⟩
      · exact copyMatch_error h
      · cases h
  · rcases Except.bind_error h with h | ⟨⟨b, w2⟩, -, h⟩
    · exact getByte_error h
    rcases Except.bind_error h with h | ⟨_, -, h⟩
    · exact DecJob.access_error h
    · cases h

/-- A token that starts with the output as long as the output cursor says keeps it so, moves the cursor on and keeps the
size; it does not pass the size where the cursor was below it (42_codec R175, R178). -/
theorem decToken_ok {j : DecJob} {w w' : DecState} {out out' : List Byte} (h : decToken j w out = .ok (out', w'))
    (hl : out.length = w.d) (hd : w.d < w.size) :
    out'.length = w'.d ∧ w.d < w'.d ∧ w'.d ≤ w'.size ∧ w'.size = w.size := by
  obtain ⟨⟨flag, w1⟩, h1, h⟩ := Except.bind_ok h
  obtain ⟨d1, z1, -⟩ := getBit_ok h1
  simp only at h
  split_ifs at h
  · obtain ⟨⟨v1, w2⟩, h2, h⟩ := Except.bind_ok h
    obtain ⟨⟨v2, w3⟩, h3, h⟩ := Except.bind_ok h
    obtain ⟨⟨lo, w4⟩, h4, h⟩ := Except.bind_ok h
    obtain ⟨d2, z2⟩ := dictLoop_ok h2
    obtain ⟨d3, z3⟩ := dictLoop_ok h3
    obtain ⟨-, -, h4⟩ := getByte_ok h4
    simp only at h
    split_ifs at h with hbad
    obtain ⟨out2, h5, h⟩ := Except.bind_ok h
    have hc := copyMatch_length h5
    cases h
    simp only [h4] at *
    omega
  · obtain ⟨⟨b, w2⟩, h2, h⟩ := Except.bind_ok h
    obtain ⟨-, -, h2⟩ := getByte_ok h2
    obtain ⟨_, -, h⟩ := Except.bind_ok h
    cases h
    simp only [h2, List.length_append, List.length_singleton] at *
    omega

theorem decLoop_error {j : DecJob} {fuel : Nat} {w : DecState} {out : List Byte} {st : Stop}
    (h : decLoop j fuel w out = .error st) : st.honest j.cfg := by
  induction fuel generalizing w out with
  | zero => cases h
  | succ fuel ih =>
    unfold decLoop at h
    split_ifs at h
    rcases Except.bind_error h with h | ⟨⟨out1, w1⟩, -, h⟩
    · exact decToken_error h
    · exact ih h

/-- A main loop with enough fuel ends with exactly `size` output bytes (42_codec R175). -/
theorem decLoop_ok {j : DecJob} {fuel : Nat} {w w' : DecState} {out out' : List Byte}
    (h : decLoop j fuel w out = .ok (out', w')) (hl : out.length = w.d) (hd : w.d ≤ w.size)
    (hf : w.size ≤ w.d + fuel) : out'.length = w'.size ∧ w'.d = w'.size ∧ w'.size = w.size := by
  induction fuel generalizing w out with
  | zero => cases h; omega
  | succ fuel ih =>
    unfold decLoop at h
    split_ifs at h with hs
    · cases h; omega
    · obtain ⟨⟨out1, w1⟩, h1, h⟩ := Except.bind_ok h
      obtain ⟨l1, d1, e1, z1⟩ := decToken_ok h1 hl (by omega)
      have := ih h l1 e1 (by omega)
      omega

theorem decHeader_error {j : DecJob} {cap : Nat} {st : Stop} (h : decHeader j cap = .error st) : st.honest j.cfg := by
  unfold decHeader at h
  split at h
  · next h' => cases h; exact valueStop_honest h'
  · simp only at h
    split_ifs at h
    · cases h; intro h; cases h
    · cases h; intro h; cases h
    · exact getByte_error h

/-- The header's size is at least 1 and fits the capacity (42_codec R174). -/
theorem decHeader_ok {j : DecJob} {cap : Nat} {b : Byte} {w : DecState} (h : decHeader j cap = .ok (b, w)) :
    0 < w.size ∧ w.size ≤ cap ∧ w.size = get32 j.src 0 j.e ∧ b = byteAt j.src 4 ∧ w.s = 5 ∧ w.cnt = 0 := by
  unfold decHeader at h
  split at h
  · cases h
  · simp only at h
    split_ifs at h with h0 h1
    obtain ⟨-, hb, rfl⟩ := getByte_ok h
    exact ⟨by simp only; omega, by simp only; omega, rfl, hb, rfl, rfl⟩

theorem decompressBody_sound {s : State} {e : Endian} :
    (decompressBody s e).Sound s s.dcap := by
  unfold decompressBody
  split
  · next h => exact ⟨decHeader_error h, fun _ => rfl⟩
  · next b0 w0 h0 =>
    obtain ⟨hp, hc, -⟩ := decHeader_ok h0
    split
    · next h =>
      refine ⟨?_, fun _ => rfl⟩
      rcases Except.bind_error h with h | ⟨_, -, h⟩
      · exact DecJob.access_error h
      · exact decLoop_error h
    · next out w h =>
      obtain ⟨_, -, h⟩ := Except.bind_ok h
      obtain ⟨hl, -, hz⟩ := decLoop_ok h rfl (by simp only; omega) (by simp only; omega)
      simp only at hz
      exact ⟨hl.symm, by omega, id⟩

/-! ### COMPRESS -/

theorem hashAt_lt (src : List Byte) (p : Nat) : hashAt src p < hashSlots := Nat.mod_lt _ (by decide)

theorem tableWf_sparseSet {t : HashTable} (k p : Nat) (hk : k < hashSlots) (h : tableWf t) :
    tableWf (sparseSet k p t) := by
  refine ⟨sparseSet_pairwise _ _ _ h.1, fun c hc => ?_⟩
  rcases mem_sparseSet hc with rfl | hm
  · exact hk
  · exact h.2 c hm

theorem tableWf_insertRange {src : List Byte} {k p : Nat} {t : HashTable} (h : tableWf t) :
    tableWf (insertRange src k p t) := by
  induction k generalizing p t with
  | zero => exact h
  | succ k ih => exact ih (tableWf_sparseSet _ _ (hashAt_lt src p) h)

/-- Emitting a control bit keeps the cursors and the hash table. -/
theorem putBit_keeps (e : Endian) (b : Bool) (c : CompState) :
    (putBit e b c).cur = c.cur ∧ (putBit e b c).h = c.h ∧ (putBit e b c).table = c.table := by
  unfold putBit flushWindow
  split <;> exact ⟨rfl, rfl, rfl⟩

theorem putDictBits_keeps (e : Endian) (v k : Nat) (c : CompState) :
    (putDictBits e v k c).cur = c.cur ∧ (putDictBits e v k c).h = c.h ∧ (putDictBits e v k c).table = c.table := by
  induction k generalizing c with
  | zero => exact ⟨rfl, rfl, rfl⟩
  | succ k ih =>
    have h1 := ih (putBit e (decide (0 < k)) (putBit e (v.testBit k) c))
    have h2 := putBit_keeps e (decide (0 < k)) (putBit e (v.testBit k) c)
    have h3 := putBit_keeps e (v.testBit k) c
    exact ⟨by rw [putDictBits, h1.1, h2.1, h3.1], by rw [putDictBits, h1.2.1, h2.2.1, h3.2.1],
      by rw [putDictBits, h1.2.2, h2.2.2, h3.2.2]⟩

theorem compToken_tableWf {src : List Byte} {e : Endian} {ovl : Bool} {c : CompState} (h : tableWf c.table) :
    tableWf (compToken src e ovl c).table := by
  have hl : ∀ c : CompState, (putLiteral src e c).table = c.table := fun c => (putBit_keeps e false c).2.2
  unfold compToken
  split
  · rw [hl]; exact h
  · simp only
    split
    · unfold putMatch putDict
      simp only [putByte, (putDictBits_keeps _ _ _ _).2.2, (putBit_keeps _ _ _).2.2]
      exact tableWf_insertRange h
    · rw [hl]; exact tableWf_insertRange h

theorem compLoop_tableWf {src : List Byte} {e : Endian} {ovl : Bool} {fuel : Nat} {c : CompState}
    (h : tableWf c.table) : tableWf (compLoop src e ovl fuel c).table := by
  induction fuel generalizing c with
  | zero => exact h
  | succ fuel ih =>
    unfold compLoop
    split
    · exact h
    · exact ih (compToken_tableWf h)

theorem compressBody_sound {s : State} {e : Endian} {ovl : Bool} : (compressBody s e ovl).Sound s s.dcap := by
  unfold compressBody
  split
  · next h => exact ⟨firstStop_honest h, fun _ => rfl⟩
  · unfold compressEnd
    simp only
    split
    · next h2 =>
      refine ⟨rfl, by simpa using h2, fun _ => ?_⟩
      exact compLoop_tableWf (c := compInit s.srcBytes e) ⟨List.Pairwise.nil, by simp [compInit]⟩
    · next h _ => exact ⟨anyStop_honest h, fun _ => rfl⟩
    · exact ⟨fun h => (by cases h), fun _ => rfl⟩
    · next h _ =>
      refine ⟨?_, fun _ => rfl⟩
      split
      · exact anyStop_honest h
      · intro h; cases h

/-! ### Every command -/

/-- The execution of a command, after its checks. -/
def bodyOf (s : State) : Instr → Ending
  | .desDecrypt _ _ => cipherBody s desDecryptBlock
  | .desEncrypt _ _ => cipherBody s desEncryptBlock
  | .verify _ _ => verifyBody s
  | .verifyAc1350 le _ => ac1350Body s le
  | .digest _ _ => digestBody s
  | .decompress le _ => decompressBody s le
  | .compress le ovl => compressBody s le ovl

/-- Every command is the one shared shape. -/
theorem exec_eq_runCommand (i : Instr) (s : State) :
    exec i s = s.runCommand (destUse i) (ownChecks i s) (bodyOf s i) := by
  cases i <;> rfl

/-- The capacity a command's output fits: the destination region's size, 0 for a command without a destination. -/
theorem bodyOf_sound (i : Instr) (s : State) (h : ownChecks i s = none) :
    (bodyOf s i).Sound s (s.destRegion (destUse i)).size := by
  cases i with
  | desDecrypt le ovl =>
    obtain ⟨h8, hc, -⟩ := cipherChecks_none h
    exact cipherBody_sound h8 hc
  | desEncrypt le ovl =>
    obtain ⟨h8, hc, -⟩ := cipherChecks_none h
    exact cipherBody_sound h8 hc
  | verify le ovl => exact verifyBody_sound
  | verifyAc1350 le ovl => exact ac1350Body_sound
  | digest le ovl =>
    refine digestBody_sound ?_
    by_contra hc
    simp only [ownChecks, digestChecks, digestLen] at h
    rw [if_pos (by omega)] at h
    cases h
  | decompress le ovl => exact decompressBody_sound
  | compress le ovl => exact compressBody_sound

/-- A command's own checks never report a bus error (60_exceptions R254). -/
theorem ownChecks_code {i : Instr} {s : State} {code : ErrCode} {info : Nat} (h : ownChecks i s = some (code, info)) :
    code ≠ .busError := by
  cases i <;>
    simp only [ownChecks, cipherChecks, verifyChecks, ac1350Checks, digestChecks, decompressChecks, compressChecks] at h <;>
    split_ifs at h <;>
    simp only [Option.some.injEq, Prod.mk.injEq] at h <;>
    exact h.1 ▸ (by decide)

/-- What a command that answers a next state can have done: failed a check; completed raced; ended by an error, with the
destination region drawn if it had written; or completed with the bytes `out` stored from `lDST` on. -/
theorem exec_cases {i : Instr} {s t : State} (h : exec i s = .next t) :
    (∃ code info, code ≠ .busError ∧ t = s.failChecks code info) ∨
    (s.regionError (destUse i) = none ∧ s.raced = true ∧ t = s.completeRaced (destUse i).hasDest) ∨
    (s.regionError (destUse i) = none ∧ s.raced = false ∧ ∃ code info, (Stop.error code info).honest s.cfg ∧
      (t = s.fail code info ∨
        ((s.destRegion (destUse i)).size = s.dcap ∧ t = s.scramble.fail code info))) ∨
    (s.regionError (destUse i) = none ∧ s.raced = false ∧ ∃ out aux work,
      out.length ≤ (s.destRegion (destUse i)).size ∧ (tableWf s.work.comp.table → tableWf work.comp.table) ∧
      t = ({ s with mem := Memory.writeBytes s.mem s.dst out, work := work } : State).succeed out.length aux) := by
  rw [exec_eq_runCommand] at h
  rcases State.runCommand_cases h with ⟨info, -, ht⟩ | ⟨-, code, info, ho, ht⟩ | ⟨hr, ho, -, hc⟩
  · exact .inl ⟨_, _, by decide, ht⟩
  · exact .inl ⟨_, _, ownChecks_code ho, ht⟩
  · have hs := bodyOf_sound i s ho
    rcases State.complete_cases hc with ⟨h1, ht⟩ | ⟨h1, c, n, hb, ht⟩ | ⟨h1, c, n, hb, ht⟩ | ⟨h1, out, len, aux, work, hb, ht⟩
    · exact .inr (.inl ⟨hr, h1, ht⟩)
    · rw [hb] at hs
      exact .inr (.inr (.inl ⟨hr, h1, c, n, hs.1, .inr ⟨hs.2 rfl, ht⟩⟩))
    · rw [hb] at hs
      exact .inr (.inr (.inl ⟨hr, h1, c, n, hs.1, .inl ht⟩))
    · rw [hb] at hs
      obtain ⟨rfl, hl, hw⟩ := hs
      exact .inr (.inr (.inr ⟨hr, h1, out, aux, work, hl, hw, ht⟩))

end Sys2Proof.Machine
end

