-- ==== Sys2Proof/Laws/HostPort.lean ====
section
/-! SUPPORT. What one step does with an access on the slave port: which register an access reaches, and the step of each
kind of input. -/

namespace Sys2Proof.Machine

/-- The address of a register reaches that register (10_state R30). -/
theorem regOfAccess_regAddr (cfg : Params) (r : Reg) : regOfAccess cfg (regAddr cfg r) 4 = some r := by
  have h : cfg.cceBase + BitVec.ofNat 32 (regOffset r) - cfg.cceBase = BitVec.ofNat 32 (regOffset r) := by
    rw [BitVec.add_comm, BitVec.add_sub_cancel]
  unfold regOfAccess regAddr
  simp only [h]
  cases r <;> rfl

/-- The `k`-th word of the window is register `regAt k` (10_state R30). -/
theorem regOfAccess_word (cfg : Params) (k : Nat) (hk : k < 16) :
    regOfAccess cfg (cfg.cceBase + BitVec.ofNat 32 (4 * k)) 4 = some (regAt k) := by
  have h : cfg.cceBase + BitVec.ofNat 32 (4 * k) - cfg.cceBase = BitVec.ofNat 32 (4 * k) := by
    rw [BitVec.add_comm, BitVec.add_sub_cancel]
  have e : 4 * k % 2 ^ 32 = 4 * k := Nat.mod_eq_of_lt (by omega)
  unfold regOfAccess
  simp only [h, BitVec.toNat_ofNat, e]
  rw [if_pos ⟨trivial, by omega, by omega⟩, Nat.mul_div_cancel_left k (by omega)]

/-- An access of another width or alignment reaches no register (10_state R50). -/
theorem regOfAccess_none (cfg : Params) (addr : Word) (width : Nat)
    (h : width ≠ 4 ∨ (addr - cfg.cceBase).toNat % 4 ≠ 0) : regOfAccess cfg addr width = none := by
  unfold regOfAccess
  rw [if_neg]
  rintro ⟨h1, h2, -⟩
  rcases h with h | h <;> omega

/-- A step with no input pending is the block's own. -/
theorem step_noInput {s : State} (h : s.inputs = []) : step s = s.engineStep := by
  simp [step, State.advance, h]

/-- A step with an input pending takes that input. -/
theorem step_input {s : State} {x : Input} {rest : List Input} (h : s.inputs = x :: rest) :
    step s = s.inputStep x rest := by
  simp [step, State.advance, h]

/-- A 32-bit write to a register outside reset. -/
theorem step_regWrite {s : State} {r : Reg} {v : Word} {rest : List Input} (hr : s.resetHeld = false)
    (h : s.inputs = .regWrite (regAddr s.cfg r) 4 v :: rest) :
    step s = .next (({ s with inputs := rest } : State).writeReg r v) := by
  rw [step_input h]
  simp only [State.inputStep, State.storePort, hr, regOfAccess_regAddr]
  rfl

/-- A 32-bit read of a register outside reset. -/
theorem step_regRead {s : State} {r : Reg} {rest : List Input} (hr : s.resetHeld = false)
    (h : s.inputs = .regRead (regAddr s.cfg r) 4 :: rest) :
    step s = .next { s with inputs := rest, rdata := s.readReg r } := by
  rw [step_input h]
  simp only [State.inputStep, State.loadPort, hr, regOfAccess_regAddr]
  cases r <;> rfl

/-- A 32-bit read of word `k` of the window outside reset. -/
theorem step_wordRead {s : State} {k : Nat} {rest : List Input} (hr : s.resetHeld = false) (hk : k < 16)
    (h : s.inputs = .regRead (s.cfg.cceBase + BitVec.ofNat 32 (4 * k)) 4 :: rest) :
    step s = .next { s with inputs := rest, rdata := s.readReg (regAt k) } := by
  rw [step_input h]
  simp only [State.inputStep, State.loadPort, hr, regOfAccess_word _ k hk]
  cases regAt k <;> rfl

/-- Abandoning a command keeps everything but memory and the number of the next free value; an idle block keeps memory. -/
theorem State.abandon_cases (s : State) : (s.phase = .idle ∧ s.abandon = s) ∨
    (s.phase = .busy ∧ s.abandon = { s.scramble with draws := s.draws + 1 }) := by
  unfold State.abandon State.busy
  cases s.phase <;> simp

/-- A soft reset changes no byte outside the destination region, and none at all when idle (70_reset R282, R283). -/
theorem State.softReset_mem (s : State) : (s.phase = .idle → s.softReset.mem = s.mem) ∧
    sameOutside s.mem s.softReset.mem ⟨s.dst, s.dcap⟩ := by
  have hm : s.softReset.mem = s.abandon.mem := rfl
  rw [hm]
  rcases s.abandon_cases with ⟨-, h⟩ | ⟨h, h'⟩
  · rw [h]; exact ⟨fun _ => rfl, fun _ _ => rfl⟩
  · rw [h']; exact ⟨fun hp => by simp [hp] at h, s.scramble_sameOutside⟩

end Sys2Proof.Machine
end

