-- ==== Sys2Proof/Laws/PerInstr.lean ====
section
/-! SUPPORT. Statements about every instruction as syntax, one lemma per constructor. -/

namespace Sys2Proof.Laws.EncodeLegal

/-- The command word of an instruction is legal (30_encoding R95): `RSV` is 0 and `OP` is 1 to 7. -/
def Statement (i : Instr) : Prop :=
  rsvField (encode i) = 0 ∧ 1 ≤ (opField (encode i)).toNat ∧ (opField (encode i)).toNat ≤ 7

theorem desDecrypt (le : Endian) (ovl : Bool) : Statement (.desDecrypt le ovl) := by
  unfold Statement; cases le <;> cases ovl <;> decide

theorem desEncrypt (le : Endian) (ovl : Bool) : Statement (.desEncrypt le ovl) := by
  unfold Statement; cases le <;> cases ovl <;> decide

theorem verify (le : Endian) (ovl : Bool) : Statement (.verify le ovl) := by
  unfold Statement; cases le <;> cases ovl <;> decide

theorem verifyAc1350 (le : Endian) (ovl : Bool) : Statement (.verifyAc1350 le ovl) := by
  unfold Statement; cases le <;> cases ovl <;> decide

theorem digest (le : Endian) (ovl : Bool) : Statement (.digest le ovl) := by
  unfold Statement; cases le <;> cases ovl <;> decide

theorem decompress (le : Endian) (ovl : Bool) : Statement (.decompress le ovl) := by
  unfold Statement; cases le <;> cases ovl <;> decide

theorem compress (le : Endian) (ovl : Bool) : Statement (.compress le ovl) := by
  unfold Statement; cases le <;> cases ovl <;> decide

end Sys2Proof.Laws.EncodeLegal
end

