-- ==== Sys2Proof/Tests/Slice0.lean ====
section
/-! SUPPORT. The model's own tests: WellFormed, decoding of words written out from the spec, the vectors of 95, and for
every statement with hypotheses a witness that meets them. -/

-- Elaborated one after another: proofs that wait for each other's kernel evaluation would each hold a thread's stack.
set_option Elab.async false

namespace Sys2Proof.Tests

open Sys2Proof Sys2Proof.Machine

/-! ### WellFormed: the assembler refuses an option on a command that ignores it (30_encoding R121) -/

theorem test_wf_refuses_le_on_des : (Instr.desDecrypt .little false).wellFormed = false ∧
    (Instr.desEncrypt .little false).wellFormed = false := by decide
theorem test_wf_refuses_ovl_on_des : (Instr.desDecrypt .big true).wellFormed = false ∧
    (Instr.desEncrypt .big true).wellFormed = false := by decide
theorem test_wf_refuses_options_on_verify : (Instr.verify .little false).wellFormed = false ∧
    (Instr.verify .big true).wellFormed = false ∧ (Instr.verifyAc1350 .little true).wellFormed = false := by decide
theorem test_wf_refuses_options_on_digest : (Instr.digest .little false).wellFormed = false ∧
    (Instr.digest .big true).wellFormed = false := by decide
theorem test_wf_refuses_ovl_on_decompress : (Instr.decompress .little true).wellFormed = false := by decide
theorem test_wf_accepts_spec_spellings : spelling (.compress .little true) = some "COMPRESS.LE.OVL" ∧
    spelling (.verifyAc1350 .little false) = some "VERIFY_AC1350.LE" ∧
    assemble (.decompress .little false) = some 0x00000016#32 := by decide

/-! ### Decoding: words written out bit by bit from 30_encoding R90, R91 (RSV, OVL, LE, OP) -/

theorem test_decode_des_decrypt : decode 0b00000000000000000000000000_0_0_0001#32 = .ok (.desDecrypt .big false) := by
  decide
theorem test_decode_des_encrypt : decode 0b00000000000000000000000000_1_0_0010#32 = .ok (.desEncrypt .big true) := by
  decide
theorem test_decode_verify : decode 0b00000000000000000000000000_0_1_0011#32 = .ok (.verify .little false) := by decide
theorem test_decode_verify_ac1350 : decode 0b00000000000000000000000000_0_1_0100#32 = .ok (.verifyAc1350 .little false) :=
  by decide
theorem test_decode_digest : decode 0b00000000000000000000000000_0_0_0101#32 = .ok (.digest .big false) := by decide
theorem test_decode_decompress : decode 0b00000000000000000000000000_0_1_0110#32 = .ok (.decompress .little false) := by
  decide
theorem test_decode_compress : decode 0b00000000000000000000000000_1_1_0111#32 = .ok (.compress .little true) := by decide
theorem test_decode_refuses : decode 0x00000000#32 = .error (.illegalOpcode 0#4) ∧
    decode 0x00000008#32 = .error (.illegalOpcode 8#4) ∧ decode 0x00000041#32 = .error (.reservedBits 1#26) ∧
    decode 0x80000007#32 = .error (.reservedBits 0x2000000#26) := by decide
theorem test_decode_table_words : decodeTableWord 32 1 = some (.desDecrypt .big false) ∧
    decodeTableWord 32 7 = some (.compress .big false) ∧ decodeTableWord 32 0x100000001 = none := by decide

/-! ### The standards: DES and MD5 (95 §2.1, §2.2) -/

/-- 95 §2.1: the standard's known-answer vector. -/
theorem test_des_known_answer : desEncryptBlock 0x133457799BBCDFF1#64 0x0123456789ABCDEF#64 = 0x85E813540F0AB405#64 := by
  decide +kernel
/-- 40_cipher R135: a block of zeros under the default key. -/
theorem test_des_decrypt_zeros : desDecryptBlock 0x478DA50BF9E3D2CF#64 0#64 = 0xA617C51105F08324#64 := by decide +kernel
/-- 95 §2.1: the byte order of a block. -/
theorem test_des_bytes : ecb (desEncryptBlock 0x478DA50BF9E3D2CF#64) 1
    [0x3C#8, 0x3F#8, 0x78#8, 0x6D#8, 0x6C#8, 0x20#8, 0x76#8, 0x65#8] =
    [0xDF#8, 0xC0#8, 0xC3#8, 0xF6#8, 0x3D#8, 0x01#8, 0xFF#8, 0xCA#8] := by decide +kernel
/-- 95 §2.2: MD5 of the empty sequence. -/
theorem test_md5_empty : md5 [] =
    [0xD4#8, 0x1D#8, 0x8C#8, 0xD9#8, 0x8F#8, 0x00#8, 0xB2#8, 0x04#8, 0xE9#8, 0x80#8, 0x09#8, 0x98#8, 0xEC#8, 0xF8#8,
      0x42#8, 0x7E#8] := by decide +kernel
/-- 95 §2.2: MD5 of `abc`. -/
theorem test_md5_abc : md5 [0x61#8, 0x62#8, 0x63#8] =
    [0x90#8, 0x01#8, 0x50#8, 0x98#8, 0x3C#8, 0xD2#8, 0x4F#8, 0xB0#8, 0xD6#8, 0x96#8, 0x3F#8, 0x7D#8, 0x28#8, 0xE1#8,
      0x7F#8, 0x72#8] := by decide +kernel

/-! ### Single steps -/

/-- A running command: word `w`, source `bytes` at `0x1000`, destination of `cap` bytes at `dst`. -/
def running (w : Word) (bytes : List Byte) (dst cap : Word) : State :=
  { State.reset with
    cmd := w, srcAddr := 0x1000#32, srcLen := BitVec.ofNat 32 bytes.length, dstAddr := dst, dstCap := cap
    lCmd := w, lSrc := 0x1000#32, lSLen := BitVec.ofNat 32 bytes.length, lDst := dst, lDCap := cap
    phase := .busy, mem := Memory.writeBytes [] 0x1000 bytes }

/-- What a test looks at after one step: `STATUS`, `RESULT_LEN`, `RESULT_AUX`, `ERR_INFO` and `n` bytes from `a` on. -/
def view (a n : Nat) : Host.Outcome State Fault Refusal → Option (List Nat × List Byte)
  | .next t =>
    some ([t.statusWord.toNat, t.resultLen.toNat, t.resultAux.toNat, t.errInfo.toNat], Memory.readBytes t.mem a n)
  | _ => none

/-- 40_cipher R135. -/
theorem test_step_des_decrypt : view 0x2000 9 (step (running 1#32 (List.replicate 8 0#8) 0x2000#32 9#32)) =
    some ([2, 8, 0, 0], [0xA6#8, 0x17#8, 0xC5#8, 0x11#8, 0x05#8, 0xF0#8, 0x83#8, 0x24#8, 0#8]) := by decide +kernel
/-- 95 §2.1: 12 bytes over a partly overlapping destination is `BAD_REGION`, before `INVALID_SIZE`. -/
theorem test_step_des_overlap : view 0 0 (step (running 1#32 (List.replicate 12 0#8) 0x1008#32 12#32)) =
    some ([0x1104, 0, 0, 2], []) := by decide +kernel
/-- 95 §2.1: in place encryption of zeros. -/
theorem test_step_des_encrypt_in_place : view 0x1000 8 (step (running 2#32 (List.replicate 8 0#8) 0x1000#32 8#32)) =
    some ([2, 8, 0, 0], [0xEC#8, 0x47#8, 0xFB#8, 0x2C#8, 0xB0#8, 0x97#8, 0xC2#8, 0x75#8]) := by decide +kernel
/-- 95 §2.1: encryption of nothing succeeds. -/
theorem test_step_des_encrypt_empty : view 0 0 (step (running 2#32 [] 0x2000#32 0#32)) = some ([2, 0, 0, 0], []) := by
  decide +kernel

/-- `MD5(empty)`, the stored digest of 95 §2.3 and §2.4. -/
def emptyDigest : List Byte :=
  [0xD4#8, 0x1D#8, 0x8C#8, 0xD9#8, 0x8F#8, 0x00#8, 0xB2#8, 0x04#8, 0xE9#8, 0x80#8, 0x09#8, 0x98#8, 0xEC#8, 0xF8#8,
    0x42#8, 0x7E#8]

/-- 95 §2.3: 16 bytes, only the candidate 0 over the empty region. -/
theorem test_step_verify_empty : view 0 0 (step (running 3#32 emptyDigest 0#32 0#32)) = some ([2, 0, 0, 0], []) := by
  decide +kernel
/-- 95 §2.3: 16 zero bytes do not verify. -/
theorem test_step_verify_zeros : view 0 0 (step (running 3#32 (List.replicate 16 0#8) 0#32 0#32)) =
    some ([0x304, 0, 0, 0], []) := by decide +kernel
/-- 95 §2.4: the length field 20, an empty region. -/
theorem test_step_ac1350_empty : view 0 0 (step (running 4#32 (emptyDigest ++ [0#8, 0x14#8, 0#8, 0#8]) 0#32 0#32)) =
    some ([2, 0, 20, 0], []) := by decide +kernel
/-- 41_integrity R158 (c): the wrong byte order reads `0x1400`, out of range. -/
theorem test_step_ac1350_wrong_endian :
    view 0 0 (step (running 0x14#32 (emptyDigest ++ [0#8, 0x14#8, 0#8, 0#8]) 0#32 0#32)) =
    some ([0x304, 0, 0, 0x1400], []) := by decide +kernel
/-- 41_integrity R163, with the destination just before the source (R161). -/
theorem test_step_digest_abc : view 0xFF0 16 (step (running 5#32 [0x61#8, 0x62#8, 0x63#8] 0xFF0#32 16#32)) =
    some ([2, 16, 0, 0], [0x90#8, 0x01#8, 0x50#8, 0x98#8, 0x3C#8, 0xD2#8, 0x4F#8, 0xB0#8, 0xD6#8, 0x96#8, 0x3F#8, 0x7D#8,
      0x28#8, 0xE1#8, 0x7F#8, 0x72#8]) := by decide +kernel
/-- 95 §2.2: one byte too few. -/
theorem test_step_digest_overflow : view 0 0 (step (running 5#32 [] 0x2000#32 15#32)) =
    some ([0x1204, 0, 0, 16], []) := by decide +kernel
/-- 42_codec R183: a self-overlapping match. -/
theorem test_step_decompress_overlap :
    view 0x2000 9 (step (running 6#32 [0#8, 0#8, 0#8, 8#8, 0x41#8, 0xB0#8, 0#8, 0#8] 0x2000#32 9#32)) =
    some ([2, 8, 8, 0], List.replicate 8 0x41#8 ++ [0#8]) := by decide +kernel
/-- 95 §2.5: a match one byte too far back. -/
theorem test_step_decompress_bad_match :
    (view 0 0 (step (running 6#32 [0#8, 0#8, 0#8, 4#8, 0x41#8, 0x80#8, 0#8, 1#8] 0x2000#32 9#32))).map (·.1) =
    some [0x1404, 0, 0, 1] := by decide +kernel
/-- 95 §2.5: `OVL = 0`, a control word inside a match. -/
theorem test_compress_control_word_inside_match :
    compressBytes ([0x61#8, 0x62#8, 0x61#8, 0x62#8, 0x61#8, 0x62#8, 0x61#8, 0x61#8, 0x61#8, 0x62#8] ++
      [0x61#8, 0x61#8, 0x61#8, 0x62#8, 0x62#8, 0x61#8, 0x62#8, 0x61#8, 0x61#8]) .big false =
    [0#8, 0#8, 0#8, 0x13#8, 0x61#8, 0x60#8, 0x04#8, 0x62#8, 0x01#8, 0x61#8] ++
      [0x61#8, 0x62#8, 0x61#8, 0x61#8, 0x61#8, 0x62#8, 0#8, 0#8, 0x0C#8, 0x61#8] := by decide +kernel
/-- 42_codec R203 with `LE = 1` (95 §2.5): two literals and a match. -/
theorem test_step_compress_abc : view 0x2000 11
    (step (running 0x17#32 (List.replicate 6 [0x61#8, 0x62#8, 0x63#8]).flatten 0x2000#32 42#32)) =
    some ([2, 10, 0, 0], [0x12#8, 0#8, 0#8, 0#8, 0x61#8, 0x00#8, 0x3B#8, 0x62#8, 0x63#8, 0x02#8, 0#8]) := by
  decide +kernel
/-- 95 §2.6: the reset value of `CMD` is an illegal word. -/
theorem test_step_bad_command : view 0 0 (step (running 0x41#32 [] 0#32 0#32)) = some ([0x1004, 0, 0, 0x41], []) := by
  decide +kernel
/-- Placing a word where the next step runs it (log 21): 95 §2.1, `DES_DECRYPT` of nothing. -/
theorem test_fetch_word : view 0 0 (step (State.reset.withFetchWord 32 1)) = some ([0x204, 0, 0, 0], []) := by
  decide +kernel

/-- 95 §2.6: from `STATUS = 0x104`, writing 2 leaves it and writing 4 clears it. -/
theorem test_acknowledge : ((State.reset.fail .invalidSize 12).acknowledge 2#32).statusWord = 0x104#32 ∧
    ((State.reset.fail .invalidSize 12).acknowledge 4#32).statusWord = 0#32 ∧
    ((State.reset.fail .invalidSize 12).acknowledge 4#32).errInfo = 12#32 := by decide
/-- 95 §2.6: `IRQ_EN` gates the level interrupt. -/
theorem test_irq : ({ State.reset with done := true, irqEn := true } : State).irq = true ∧
    ({ State.reset with done := true } : State).irq = false := by decide
/-- 48_host_procedures R227: `Uncompressed` wins over `W9980_W8980`. -/
theorem test_format_priority :
    matchFormat (List.replicate 16 0#8 ++ xmlPattern ++ [0#8] ++ probePattern) = some .uncompressed ∧
    matchFormat (List.replicate 20 0#8 ++ probePattern) = some .w9970 := by decide
/-- 48_host_procedures R222, R223: the default reading is `literal16`, which gives Big for every 16-bit value. -/
theorem test_infer_default : (defaultHostParams 0x100).endianRule = .literal16 ∧
    (match inferEndian (defaultHostParams 0x100).endianRule 0 [0xFF#8, 0xFF#8] with
      | .ok e => some e
      | .error _ => none) = some .big := by decide +kernel
/-- 95 §3.5: the size exactly at the limit falls back to Little. -/
theorem test_infer_limit :
    (match inferEndian .size32at16 0 (List.replicate 16 0#8 ++ [0#8, 2#8, 0#8, 0#8]) with
      | .ok e => some e
      | .error _ => none) = some .little := by decide +kernel
/-- 48_host_procedures R236: trim, drop trailing NULs, append one. -/
theorem test_normalise : normaliseEncode [' ', 'a', Char.ofNat 0, Char.ofNat 0, '\n'] = ['a', Char.ofNat 0] := by decide

/-! ### Witnesses: the hypotheses of every statement are met together -/

/-- An idle block with inputs `x :: []`. -/
def idleWith (x : Input) : State := { State.reset with inputs := [x] }

/-- A busy block with inputs `x :: []`. -/
def busyWith (x : Input) : State := { State.reset with phase := .busy, inputs := [x] }

theorem witness_SoftResetFromAnyState : ∃ (s : State) (v : Word), s.resetHeld = false ∧ v.getLsbD 1 = true ∧
    s.phase = .busy ∧ s.inputs = [.regWrite (regAddr s.cfg .ctrl) 4 v] :=
  ⟨busyWith (.regWrite (regAddr defaultParams .ctrl) 4 7#32), 7#32, by decide⟩

theorem witness_ResetInputAssertedHeldReleased : ∃ s₁ s₂ s₃ s₄ : State, s₁.phase = .busy ∧ s₁.inputs = [.resetAssert] ∧
    s₂.resetHeld = true ∧ s₂.inputs = [.regWrite 0 4 0] ∧ s₃.resetHeld = true ∧ s₃.inputs = [.regRead 0 4] ∧
    s₄.phase = .idle ∧ s₄.inputs = [.resetRelease] :=
  ⟨busyWith .resetAssert, { idleWith (.regWrite 0 4 0) with resetHeld := true },
    { idleWith (.regRead 0 4) with resetHeld := true }, idleWith .resetRelease, by decide⟩

/-- `RegisterReadHasNoSideEffect`: every word of the window, the first and the last among them. -/
theorem witness_RegisterReadHasNoSideEffect : ∀ k < 16, ∃ s : State, s.resetHeld = false ∧
    s.inputs = [.regRead (s.cfg.cceBase + BitVec.ofNat 32 (4 * k)) 4] :=
  fun k _ => ⟨idleWith (.regRead (defaultParams.cceBase + BitVec.ofNat 32 (4 * k)) 4), rfl, rfl⟩

theorem witness_IdAndReservedOffsetsIgnoreWrites : ∃ s₁ s₂ s₃ s₄ : State,
    s₁.inputs = [.regRead (regAddr s₁.cfg .id) 4] ∧ s₂.inputs = [.regWrite (regAddr s₂.cfg .id) 4 5#32] ∧
    s₃.inputs = [.regRead (s₃.cfg.cceBase + BitVec.ofNat 32 (4 * 11)) 4] ∧
    s₄.inputs = [.regWrite (s₄.cfg.cceBase + BitVec.ofNat 32 (4 * 15)) 4 5#32] ∧
    ∀ s ∈ [s₁, s₂, s₃, s₄], s.resetHeld = false :=
  ⟨idleWith (.regRead 0x40000000#32 4), idleWith (.regWrite 0x40000000#32 4 5#32), idleWith (.regRead 0x4000002C#32 4),
    idleWith (.regWrite 0x4000003C#32 4 5#32), by decide⟩

theorem witness_OtherWidthOrAlignmentHasNoEffect : ∃ s s' : State, s.resetHeld = false ∧
    s.inputs = [.regWrite 0x40000008#32 2 5#32] ∧ s'.resetHeld = false ∧ s'.inputs = [.regRead 0x4000000B#32 4] ∧
    (0x4000000B#32 - s'.cfg.cceBase).toNat % 4 ≠ 0 :=
  ⟨idleWith (.regWrite 0x40000008#32 2 5#32), idleWith (.regRead 0x4000000B#32 4), by decide⟩

theorem witness_StartLatchesOperandsOnlyWhenIdle : ∃ (s s' : State) (v : Word), v.getLsbD 0 = true ∧
    v.getLsbD 1 = false ∧ s.resetHeld = false ∧ s.phase = .idle ∧ s.inputs = [.regWrite (regAddr s.cfg .ctrl) 4 v] ∧
    s'.resetHeld = false ∧ s'.phase = .busy ∧ s'.inputs = [.regWrite (regAddr s'.cfg .ctrl) 4 v] :=
  ⟨idleWith (.regWrite 0x40000004#32 4 5#32), busyWith (.regWrite 0x40000004#32 4 5#32), 5#32, by decide⟩

theorem witness_CtrlWriteWithoutActionSetsIrqEnable : ∃ (s : State) (v : Word), s.resetHeld = false ∧
    v.getLsbD 0 = false ∧ v.getLsbD 1 = false ∧ s.inputs = [.regWrite (regAddr s.cfg .ctrl) 4 v] :=
  ⟨busyWith (.regWrite 0x40000004#32 4 4#32), 4#32, by decide⟩

theorem inv_busyWith (x : Input) : (busyWith x).Inv where
  memWf := (by decide : Memory.wf State.reset.mem)
  table := (by decide : tableWf State.reset.work.comp.table)
  oneFlag := ⟨fun _ => ⟨rfl, rfl⟩, fun _ => rfl⟩
  codeIffErr := (by decide : State.reset.errCode ≠ 0 ↔ State.reset.err = true)
  codeLegal := (by decide : legalCode State.reset.errCode)
  latched := fun _ => ⟨rfl, rfl, rfl, rfl, rfl⟩
  noResults := fun _ => ⟨rfl, rfl, rfl⟩
  heldIdle := fun h => absurd h (by simp [busyWith, State.reset])
  racedBusy := fun _ => rfl

/-- The next state of an outcome, so that outcomes can be compared by evaluation. -/
def nextOf : Host.Outcome State Fault Refusal → Option State
  | .next t => some t
  | _ => none

theorem eq_next {o : Host.Outcome State Fault Refusal} {t : State} (h : nextOf o = some t) : o = .next t := by
  cases o <;> simp_all [nextOf]

theorem witness_OperandRegistersFrozenWhileBusy : ∃ (s : State) (r : Reg) (v : Word), s.Inv ∧ s.phase = .busy ∧
    r ∈ [Reg.cmd, .srcAddr, .srcLen, .dstAddr, .dstCap] ∧ s.inputs = [.regWrite (regAddr s.cfg r) 4 v] :=
  ⟨busyWith (.regWrite 0x40000014#32 4 5#32), .srcLen, 5#32, inv_busyWith _, by decide⟩

theorem witness_OperandRegisterWriteStoresWholeWord :
    ∀ r ∈ [Reg.cmd, .srcAddr, .srcLen, .dstAddr, .dstCap, .resultLen, .resultAux, .errInfo],
    ∃ s : State, s.resetHeld = false ∧ s.phase = .idle ∧ s.inputs = [.regWrite (regAddr s.cfg r) 4 0xFFFFFFFF#32] :=
  fun r _ => ⟨idleWith (.regWrite (regAddr defaultParams r) 4 0xFFFFFFFF#32), rfl, rfl, rfl⟩

theorem witness_StatusWriteClearsFlags : ∃ s : State, s.resetHeld = false ∧ s.err = true ∧
    s.inputs = [.regWrite (regAddr s.cfg .status) 4 6#32] :=
  ⟨{ idleWith (.regWrite 0x4000000C#32 4 6#32) with err := true, errCode := 1 }, by decide⟩

theorem witness_LegalWordIsEncodingOfItsInstruction : decode 0x37#32 = .ok (.compress .little true) := by decide

theorem witness_IllegalWordEndsWithBadCommand : ∃ s s' : State, s.phase = .busy ∧ s.inputs = [] ∧
    s.lCmd.toNat % 16 = 8 ∧ s'.phase = .busy ∧ s'.inputs = [] ∧ s'.lCmd.toNat / 64 = 1 :=
  ⟨running 8#32 [] 0 0, running 0x41#32 [] 0 0, by decide⟩

theorem witness_StepRunsDecodedInstruction : ∃ s s' : State, s.phase = .busy ∧
    decode s.lCmd = .ok (.compress .big false) ∧ s.inputs = [] ∧ s'.phase = .busy ∧
    decode s'.lCmd = .ok (.compress .big false) ∧ s'.inputs = [.engine] :=
  ⟨running 7#32 [] 0 0, { running 7#32 [] 0 0 with inputs := [.engine] }, by decide⟩

theorem witness_IdleBlockDoesNothing : State.reset.phase = .idle ∧ State.reset.inputs = [] := by decide

/-- The engine's step of a running command that completes: `CompletionSetsExactlyOneFlag`, `InterruptRisesAtCompletion`
and the frames of every command. -/
theorem witness_completion : ∃ s t : State, s.phase = .busy ∧ s.inputs = [] ∧ step s = .next t ∧ s.raced = false ∧
    t.done = true :=
  ⟨running 2#32 [] 0x2000#32 0#32, (running 2#32 [] 0x2000#32 0#32).succeed 0 0, rfl, rfl,
    eq_next (by decide +kernel), rfl, rfl⟩

/-- A success: `SuccessWritesOnlyResultBytes` and the frames of `DES_ENCRYPT`. -/
theorem witness_success : ∃ s t : State, s.raced = false ∧ exec (.desEncrypt .big false) s = .next t ∧ t.done = true :=
  ⟨running 2#32 [] 0x2000#32 0#32, (running 2#32 [] 0x2000#32 0#32).succeed 0 0, rfl, eq_next (by decide +kernel), rfl⟩
theorem witness_frames_desDecrypt : ∃ s t : State, exec (.desDecrypt .big false) s = .next t :=
  ⟨running 1#32 [] 0 0, (running 1#32 [] 0 0).fail .decryptionFailure 0, eq_next (by decide +kernel)⟩
theorem witness_frames_verify : ∃ s t : State, exec (.verify .big false) s = .next t :=
  ⟨running 3#32 [] 0 0, (running 3#32 [] 0 0).fail .integrityMismatch 0, eq_next (by decide +kernel)⟩
theorem witness_frames_verifyAc1350 : ∃ s t : State, exec (.verifyAc1350 .big false) s = .next t :=
  ⟨running 4#32 [] 0 0, (running 4#32 [] 0 0).fail .integrityMismatch 0, eq_next (by decide +kernel)⟩
theorem witness_frames_digest : ∃ s t : State, exec (.digest .big false) s = .next t :=
  ⟨running 5#32 [] 0 0, (running 5#32 [] 0 0).fail .dstOverflow 16, eq_next (by decide +kernel)⟩
theorem witness_frames_decompress : ∃ s t : State, exec (.decompress .big false) s = .next t :=
  ⟨running 6#32 [] 0 0, (running 6#32 [] 0 0).fail .srcUnderrun 0, eq_next (by decide +kernel)⟩
theorem witness_frames_compress : ∃ s t : State, exec (.compress .big false) s = .next t :=
  ⟨running 7#32 [] 0 0, (running 7#32 [] 0 0).fail .badLength 0, eq_next (by decide +kernel)⟩

/-- A running command with any four operands. -/
def latched (src slen dst cap : Word) : State :=
  { State.reset with phase := .busy, lSrc := src, lSLen := slen, lDst := dst, lDCap := cap }

/-- `RegionChecksInOrder`: one byte past the top of memory; the destination alone; one shared byte; none shared. -/
theorem witness_RegionChecksInOrder :
    2 ^ 32 < (latched 0xFFFFFFF8#32 9#32 0 0).lSrc.toNat + (latched 0xFFFFFFF8#32 9#32 0 0).lSLen.toNat ∧
    (latched 0 8#32 0xFFFFFFF8#32 9#32).regionError .cipher = some 1 ∧
    (spanHas (latched 0x1000#32 16#32 0x100F#32 16#32).srcSpan 0x100F = true ∧
      spanHas ((latched 0x1000#32 16#32 0x100F#32 16#32).destSpan .digest) 0x100F = true) ∧
    (latched 0x1000#32 16#32 0x1010#32 16#32).regionError .digest = none ∧
    (latched 0xFFFFFFF8#32 8#32 0 0).regionError .none = none := by decide

/-- `RegionOverWindowIsRefused`, first clause: the source reaches the first byte of the window; the destination its last; the
destination a device; a source over the wrapped part of a window past `2^32`. -/
theorem witness_RegionOverWindowIsRefused :
    (∀ p ∈ [(Instr.compress .big false, latched 0x3FFFFFFF#32 2#32 0x2000#32 16#32, 0x40000000),
      (.digest .big false, latched 0x1000#32 8#32 0x4000003F#32 16#32, 0x4000003F),
      (.desEncrypt .big false, { latched 0x1000#32 8#32 0x1000#32 9#32 with
        cfg := { defaultParams with devices := [⟨0x1008, 1⟩] } }, 0x1008),
      (.verify .big false, { latched 0 16#32 0 0 with cfg := { defaultParams with cceBase := 0xFFFFFFE0#32 } }, 0)],
      (spanHas p.2.1.srcSpan p.2.2 = true ∨ spanHas (p.2.1.destRegion (destUse p.1)) p.2.2 = true) ∧
      ((BitVec.ofNat 32 p.2.2 - p.2.1.cfg.cceBase).toNat < 64 ∨
        ∃ r ∈ p.2.1.cfg.devices, spanHas r p.2.2 = true) ∧
      p.2.1.regionError (destUse p.1) = none ∧ ownChecks p.1 p.2.1 = none) ∧
    ((latched 0x3FFFFFFF#32 2#32 0x2000#32 16#32).regionError .cipher = none ∧
      ownChecks (.desEncrypt .big false) (latched 0x3FFFFFFF#32 2#32 0x2000#32 16#32) ≠ none) := by decide

/-- A bus that answers the accesses of one kind to `0x1000` in one way. -/
def busAt (k : AccessKind) (b : BusAnswer) : Params := { defaultParams with busRules := [⟨⟨0x1000, 1⟩, k, b⟩] }

/-- `BusErrorReportsFaultingAddress` and `CipherBusErrorNamesOneFaultingAccess`: the first source byte is refused. -/
theorem witness_bus_error : ∃ s t : State, s.raced = false ∧ s.regionError .cipher = none ∧
    s.regionNotMemory .cipher = false ∧ s.slen % 8 = 0 ∧ s.slen ≤ s.dcap ∧
    (0x1000, AccessKind.read) ∈ cipherAccesses s ∧ busStop s.cfg 0x1000 .read ≠ none ∧
    exec (.desEncrypt .big false) s = .next t ∧ t.err = true ∧ t.errCode = ErrCode.number .busError ∧
    exec (.desDecrypt .big false) s = .next t :=
  ⟨{ latched 0x1000#32 8#32 0x2000#32 8#32 with cfg := busAt .read .error },
    ({ latched 0x1000#32 8#32 0x2000#32 8#32 with cfg := busAt .read .error } : State).fail .busError 0x1000,
    by decide, by decide, by decide, by decide, by decide, by decide +kernel, by decide, eq_next (by decide +kernel), rfl,
    rfl, eq_next (by decide +kernel)⟩

theorem witness_bus_error_never_stalls : ∀ a k, busStop (busAt .read .error) a k ≠ some .stall := by
  intro a k
  simp only [busStop, busAt, List.find?]
  cases h : (decide (AccessKind.read = k) && spanHas ⟨0x1000, 1⟩ a) <;> simp

theorem witness_StoreIntoSourceWhileBusyRaces : ∃ s : State, s.phase = .busy ∧ decode s.lCmd = .ok (.verify .big false) ∧
    s.inputs = [.memWrite 0x1000 [1#8]] ∧ spanHas s.srcSpan 0x1000 = true ∧
    inWindow s.cfg 0x1000 = false ∧ s.cfg.devices = [] :=
  ⟨{ running 3#32 [0#8] 0 0 with inputs := [.memWrite 0x1000 [1#8]] }, by decide⟩

/-- A running command with any four operands on a bus that never answers a read of `0x1000`. -/
def unanswered (src slen dst cap : Word) : State := { latched src slen dst cap with cfg := busAt .read .never }

/-- `UnansweredAccessStalls`: every command, the byte at `0x1000` never answered. -/
theorem witness_UnansweredAccessStalls :
    ∀ p ∈ [(Instr.desDecrypt .big false, unanswered 0x1000#32 8#32 0x2000#32 8#32),
      (.desEncrypt .big false, unanswered 0x1000#32 8#32 0x2000#32 8#32),
      (.verify .big false, unanswered 0xFF1#32 16#32 0 0), (.verifyAc1350 .big false, unanswered 0xFEF#32 20#32 0 0),
      (.digest .big false, unanswered 0xFFF#32 2#32 0x2000#32 16#32),
      (.decompress .big false, unanswered 0xFFD#32 4#32 0x2000#32 1#32),
      (.compress .big false, unanswered 0x1000#32 1#32 0x2000#32 0#32)],
      p.2.regionError (destUse p.1) = none ∧ ownChecks p.1 p.2 = none ∧ p.2.regionNotMemory (destUse p.1) = false ∧
      (0x1000, AccessKind.read) ∈ certainAccesses p.1 p.2 ∧ busStop p.2.cfg 0x1000 .read = some .stall := by decide

theorem witness_unanswered_no_errors : ∀ a k,
    busStop (busAt .read .never) a k = none ∨ busStop (busAt .read .never) a k = some .stall := by
  intro a k
  simp only [busStop, busAt, List.find?]
  cases h : (decide (AccessKind.read = k) && spanHas ⟨0x1000, 1⟩ a) <;> simp

theorem witness_DesKeyParityIsIgnored :
    ∃ key key' : BitVec 64, key ≠ key' ∧ ∀ n, n % 8 ≠ 0 → key.getLsbD n = key'.getLsbD n := by
  refine ⟨0#64, 1#64, by decide, fun n hn => ?_⟩
  have : n ≠ 0 := by rintro rfl; simp at hn
  simp [BitVec.getLsbD, Nat.testBit_one_eq_true_iff_self_eq_zero, this, Bool.eq_false_iff]

/-- Eight bytes in place: the cipher's completions, `CipherChecksInOrder` aside. -/
theorem witness_cipher_completes : ∃ s : State, s.Ready .cipher ∧ s.slen % 8 = 0 ∧ 0 < s.slen ∧ s.slen ≤ s.dcap :=
  ⟨latched 0x1000#32 8#32 0x1000#32 8#32,
    State.ready_of_noRules (by decide) (by decide) (by decide) (by decide), by decide⟩

/-- `CipherChecksInOrder`: 12 bytes; none; 16 bytes into 8. -/
theorem witness_CipherChecksInOrder : ∀ s ∈ [latched 0x1000#32 12#32 0x1000#32 0#32, latched 0x1000#32 0#32 0#32 0#32,
    latched 0x1000#32 16#32 0x2000#32 8#32], s.raced = false ∧ s.regionError .cipher = none := by decide

theorem witness_DecryptOfEncryptRestoresBytes : ∃ s s' t : State, s.Ready .cipher ∧ 0 < s.slen ∧ s.slen % 8 = 0 ∧
    s.slen ≤ s.dcap ∧ exec (.desEncrypt .big false) s = .next t ∧ s'.Ready .cipher ∧ s'.cfg.desKey = s.cfg.desKey ∧
    s'.lSLen = s.lSLen ∧ s'.slen ≤ s'.dcap ∧ s'.srcBytes = Memory.readBytes t.mem s.dst s.slen := by
  have hs : ∀ m : Memory, ({ latched 0x1000#32 8#32 0x1000#32 8#32 with mem := m } : State).Ready .cipher :=
    fun m => State.ready_of_noRules rfl
      ((rfl : _ = (latched 0x1000#32 8#32 0x1000#32 8#32).regionError .cipher).trans (by decide))
      ((rfl : _ = (latched 0x1000#32 8#32 0x1000#32 8#32).regionNotMemory .cipher).trans (by decide)) rfl
  have hn : (nextOf (exec (.desEncrypt .big false) (latched 0x1000#32 8#32 0x1000#32 8#32))).isSome = true := by
    decide +kernel
  obtain ⟨t, ht⟩ := Option.isSome_iff_exists.1 hn
  exact ⟨latched 0x1000#32 8#32 0x1000#32 8#32, { latched 0x1000#32 8#32 0x1000#32 8#32 with mem := t.mem }, t, hs [],
    by decide, by decide, by decide, eq_next ht, hs t.mem, rfl, rfl, (by decide : (8 : Nat) ≤ 8), rfl⟩

/-- A source of any bytes at `0x1000`, with a destination of `cap` bytes at `0x2000`, read whole. -/
def withSource (bytes : List Byte) (cap : Word) : State := running 0#32 bytes 0x2000#32 cap

/-- `VerifyAcceptsFirstCandidate`, first clause with candidate 0 and `VerifyToleratesTrailingZeros`. -/
theorem witness_verify_hit : (withSource emptyDigest 0#32).Ready .none ∧ (withSource emptyDigest 0#32).slen = 16 ∧
    md5 (((withSource emptyDigest 0#32).srcBytes.drop 16).take 0) = (withSource emptyDigest 0#32).srcBytes.take 16 ∧
    (withSource emptyDigest 0#32).srcBytes = md5 [] ++ [] ++ List.replicate 0 0 :=
  ⟨State.ready_of_noRules rfl (by decide) (by decide) rfl, by decide, by decide +kernel, by decide +kernel⟩

/-- `VerifyAcceptsFirstCandidate`, second clause: no candidate of 16 zero bytes has its digest. -/
theorem witness_verify_miss : (withSource (List.replicate 16 0#8) 0#32).Ready .none ∧ ∀ i, i < 8 →
    ¬(i + 16 ≤ (withSource (List.replicate 16 0#8) 0#32).slen ∧
      md5 (((withSource (List.replicate 16 0#8) 0#32).srcBytes.drop 16).take
        ((withSource (List.replicate 16 0#8) 0#32).slen - i - 16)) =
      (withSource (List.replicate 16 0#8) 0#32).srcBytes.take 16) :=
  ⟨State.ready_of_noRules rfl (by decide) (by decide) rfl, by decide +kernel⟩

/-- `ShortBuffersDoNotVerify`: 15 and 19 bytes. -/
theorem witness_ShortBuffersDoNotVerify : ∀ s ∈ [latched 0x1000#32 15#32 0 0, latched 0x1000#32 19#32 0 0],
    s.raced = false ∧ s.regionError .none = none := by decide

/-- `Ac1350ChecksRecordedRegion`: 20 bytes, accepted (length field 20) and not accepted (0). -/
theorem witness_Ac1350ChecksRecordedRegion :
    (withSource (emptyDigest ++ [0#8, 0x14#8, 0#8, 0#8]) 0#32).Ready .none ∧
    (withSource (emptyDigest ++ [0#8, 0x14#8, 0#8, 0#8]) 0#32).slen = 20 ∧
    get16 (withSource (emptyDigest ++ [0#8, 0x14#8, 0#8, 0#8]) 0#32).srcBytes 16 .big = 20 ∧
    (withSource (List.replicate 20 0#8) 0#32).Ready .none ∧
    get16 (withSource (List.replicate 20 0#8) 0#32).srcBytes 16 .big = 0 :=
  ⟨State.ready_of_noRules rfl (by decide) (by decide) rfl, by decide, by decide +kernel,
    State.ready_of_noRules rfl (by decide) (by decide) rfl, by decide +kernel⟩

/-- `DigestCompletesWithMd5` with an adjacent destination, and `DigestNeedsSixteenBytes`. -/
theorem witness_digest : (latched 0x1010#32 3#32 0x1000#32 16#32).Ready .digest ∧
    16 ≤ (latched 0x1010#32 3#32 0x1000#32 16#32).dcap ∧ (latched 0 0 0 15#32).regionError .digest = none ∧
    (latched 0 0 0 15#32).dcap < 16 :=
  ⟨State.ready_of_noRules rfl (by decide) (by decide) rfl, by decide⟩

/-- `DecompressChecksInOrder`: a short header; size 0; size above the capacity; a missing seed. -/
theorem witness_DecompressChecksInOrder : (∀ b ∈ [[0#8, 0#8, 0#8], [0#8, 0#8, 0#8, 0#8], [0#8, 0#8, 0#8, 9#8],
      [0#8, 0#8, 0#8, 8#8]], (withSource b 8#32).Ready .codec) ∧
    get32 (withSource [0#8, 0#8, 0#8, 9#8] 8#32).srcBytes 0 .big = 9 ∧
    get32 (withSource [0#8, 0#8, 0#8, 8#8] 8#32).srcBytes 0 .big = 8 := by
  refine ⟨fun b hb => ?_, by decide +kernel, by decide +kernel⟩
  simp only [List.mem_cons, List.not_mem_nil, or_false] at hb
  rcases hb with rfl | rfl | rfl | rfl <;> exact State.ready_of_noRules rfl (by decide) (by decide) rfl

theorem witness_DecompressOfLengthOneIsSeed : (withSource [0#8, 0#8, 0#8, 1#8, 0x41#8] 1#32).Ready .codec ∧
    (withSource [0#8, 0#8, 0#8, 1#8, 0x41#8] 1#32).slen = 5 ∧
    get32 (withSource [0#8, 0#8, 0#8, 1#8, 0x41#8] 1#32).srcBytes 0 .big = 1 :=
  ⟨State.ready_of_noRules rfl (by decide) (by decide) rfl, by decide, by decide +kernel⟩

/-- The decompressor's job on the source bytes `b`, on a bus that serves every access. -/
def job (b : List Byte) : DecJob := ⟨defaultParams, 0, 0, 0, b, .big⟩

/-- `DictCodeIsAtLeastTwo`: the code of 2 is `00` (30_encoding R108). -/
theorem witness_DictCodeIsAtLeastTwo :
    (match dictLd (job [0#8, 0#8]) ⟨0, 1, 0, 0, 1, 8⟩ with
      | .ok (v, _) => v
      | .error _ => 0) = 2 := by decide +kernel

/-- `MatchCopyRepeatsEarlierOutput`: three copies from distance 1. -/
theorem witness_MatchCopyRepeatsEarlierOutput :
    (match copyMatch (job []) 3 0 [7#8] with
      | .ok out => out
      | .error _ => []) = [7#8, 7#8, 7#8, 7#8] := by decide +kernel

/-- `DecompressInvertsCompress`: two bytes, with a byte after the stream. -/
theorem witness_DecompressInvertsCompress_two :
    (withSource [0#8, 0#8, 0#8, 2#8, 0x41#8, 0#8, 0#8, 0x42#8, 9#8] 2#32).Ready .codec ∧
    (withSource [0#8, 0#8, 0#8, 2#8, 0x41#8, 0#8, 0#8, 0x42#8, 9#8] 2#32).srcBytes =
      compressBytes [0x41#8, 0x42#8] .big true ++ [9#8] ∧
    2 ≤ (withSource [0#8, 0#8, 0#8, 2#8, 0x41#8, 0#8, 0#8, 0x42#8, 9#8] 2#32).dcap :=
  ⟨State.ready_of_noRules rfl (by decide) (by decide) rfl, by decide +kernel, by decide⟩

/-- The decoder's error of an outcome, so that it can be compared. -/
def errorOf {α : Type} : Except Stop α → Option Stop
  | .ok _ => none
  | .error st => some st

/-- `DecompressExecutionErrors`: a match one byte too far back, read whole before it is refused (the codes of 2 and 2, low
byte 1, at output index 1 of 4). -/
theorem witness_DecompressExecutionErrors_match :
    (match dictLd (job [0#8, 0#8, 1#8]) ⟨0, 1, 0, 0, 1, 4⟩ with
      | .ok (v1, w1) =>
        (match dictLd (job [0#8, 0#8, 1#8]) w1 with
          | .ok (v2, w2) => (v1, v2, (getByte (job [0#8, 0#8, 1#8]) w2).toOption.map (fun p => (p.1, p.2.d)))
          | .error _ => (0, 0, none))
      | .error _ => (0, 0, none)) = (2, 2, some (1#8, 1)) := by decide +kernel

/-- `DecompressExecutionErrors`, the error of the writing phase: a stream with no control word after its seed. -/
theorem witness_DecompressExecutionErrors_write :
    (withSource [0#8, 0#8, 0#8, 2#8, 0x41#8] 2#32).Ready .codec ∧
    (match decHeader ((withSource [0#8, 0#8, 0#8, 2#8, 0x41#8] 2#32).decJob .big) 2 with
      | .ok (b, w) => errorOf (decWrite ((withSource [0#8, 0#8, 0#8, 2#8, 0x41#8] 2#32).decJob .big) b w)
      | .error _ => none) = some (.error .srcUnderrun 5) :=
  ⟨State.ready_of_noRules rfl (by decide) (by decide) rfl, by decide +kernel⟩

/-- `DecompressExecutionErrors`, a stream cut short: the last byte of the stream of two bytes is missing. -/
theorem witness_DecompressExecutionErrors_cut :
    (withSource [0#8, 0#8, 0#8, 2#8, 0x41#8, 0#8, 0#8] 2#32).Ready .codec ∧
    (withSource [0#8, 0#8, 0#8, 2#8, 0x41#8, 0#8, 0#8] 2#32).srcBytes =
      (compressBytes [0x41#8, 0x42#8] .big true).take 7 ∧
    (compressBytes [0x41#8, 0x42#8] .big true).length = 8 :=
  ⟨State.ready_of_noRules rfl (by decide) (by decide) rfl, by decide +kernel, by decide +kernel⟩

/-- `DecompressInvertsCompress`: one byte. -/
theorem witness_DecompressInvertsCompress :
    (withSource [0#8, 0#8, 0#8, 1#8, 0x41#8, 0#8, 0#8] 1#32).Ready .codec ∧
    (withSource [0#8, 0#8, 0#8, 1#8, 0x41#8, 0#8, 0#8] 1#32).srcBytes = compressBytes [0x41#8] .big false ++ [] :=
  ⟨State.ready_of_noRules rfl (by decide) (by decide) rfl, by decide +kernel⟩

/-- `CompressCompletesWithStream` (7 bytes that just fit) and `CompressErrors` (an empty source; 6 bytes do not fit). -/
theorem witness_compress : (withSource [0x41#8] 7#32).Ready .codec ∧
    (compressBytes (withSource [0x41#8] 7#32).srcBytes .big false).length = 7 ∧ (withSource [] 7#32).Ready .codec ∧
    (withSource [] 7#32).slen = 0 ∧ (withSource [0x41#8] 6#32).Ready .codec ∧ (withSource [0x41#8] 6#32).dcap = 6 :=
  ⟨State.ready_of_noRules rfl (by decide) (by decide) rfl, by decide +kernel,
    State.ready_of_noRules rfl (by decide) (by decide) rfl, by decide,
    State.ready_of_noRules rfl (by decide) (by decide) rfl, by decide⟩

/-- `ShortSourceCompressesToLiterals` and `CompressedLengthIsBounded`: four bytes after the seed, one byte, none after it. -/
theorem witness_short_sources : ([2#8, 3#8, 4#8, 5#8] : List Byte).length ≤ 4 ∧ ([] : List Byte).length ≤ 4 ∧
    1 ≤ ([1#8] : List Byte).length ∧ ([1#8] : List Byte).length ≤ 65536 := by decide

/-- `InvariantKeptByEveryStep`, `KeyNeverChanges`: a busy state with the invariant that steps. -/
theorem witness_invariant : ∃ s t : State, s.Inv ∧ core.step s = .next t :=
  ⟨busyWith (.regWrite 0x40000004#32 4 4#32), { busyWith .engine with inputs := [], irqEn := true },
    inv_busyWith _, eq_next (o := step (busyWith (.regWrite 0x40000004#32 4 4#32))) (by decide +kernel)⟩

end Sys2Proof.Tests
end

section
/-! 00_scope R12: decryption inverts encryption, and the parity bits of a key have no effect. The first holds for every list
of subkeys: IP and FP undo each other, and running the rounds backwards on swapped halves undoes each round. The second holds
because PC-1 reads no parity bit. -/

namespace Sys2Proof.Machine

/-- A permutation depends only on the bits that its table names. -/
theorem permute_congr {n m : Nat} {tbl : List Nat} {x x' : BitVec n} (hl : tbl.length = m)
    (h : ∀ p ∈ tbl, x.getMsbD (p - 1) = x'.getMsbD (p - 1)) : permute m tbl x = permute m tbl x' := by
  refine BitVec.eq_of_getMsbD_eq fun i hi => ?_
  rw [getMsbD_permute m tbl x hl i hi, getMsbD_permute m tbl x' hl i hi, List.getD_eq_getElem _ _ (hl ▸ hi)]
  exact h _ (List.getElem_mem _)

/-- The table `inv` names, at every place, the entry of `tbl` that selects the bit of that place. -/
def UndoesTable (n : Nat) (inv tbl : List Nat) : Prop :=
  ∀ i < n, inv.getD i 0 - 1 < n ∧ tbl.getD (inv.getD i 0 - 1) 0 - 1 = i

/-- A permutation followed by the one whose table undoes it. -/
theorem permute_permute_of_undoesTable {n : Nat} {inv tbl : List Nat} (hinv : inv.length = n) (htbl : tbl.length = n)
    (h : UndoesTable n inv tbl) (x : BitVec n) : permute n inv (permute n tbl x) = x := by
  refine BitVec.eq_of_getMsbD_eq fun i hi => ?_
  obtain ⟨hlt, heq⟩ := h i hi
  rw [getMsbD_permute n inv _ hinv i hi, getMsbD_permute n tbl x htbl _ hlt, heq]

theorem permute_desFp_desIp (x : BitVec 64) : permute 64 desFp (permute 64 desIp x) = x :=
  permute_permute_of_undoesTable (n := 64) rfl rfl (by unfold UndoesTable; decide) x

theorem permute_desIp_desFp (x : BitVec 64) : permute 64 desIp (permute 64 desFp x) = x :=
  permute_permute_of_undoesTable (n := 64) rfl rfl (by unfold UndoesTable; decide) x

/-- The Feistel property: the rounds under the reversed subkeys, on the swapped result, give the swapped input. -/
theorem desRounds_reverse_swap (ks : List (BitVec 48)) (l r : BitVec 32) :
    desRounds ks.reverse (desRounds ks l r).2 (desRounds ks l r).1 = (r, l) := by
  induction ks generalizing l r with
  | nil => rfl
  | cons k ks ih =>
    have hrest : desRounds ks.reverse (desRounds (k :: ks) l r).2 (desRounds (k :: ks) l r).1 =
        (l ^^^ desRound r k, r) := ih r (l ^^^ desRound r k)
    rw [List.reverse_cons, desRounds_append, hrest]
    simp [desRounds]

/-- A block is its left half followed by its right half. -/
theorem append_block_halves (y : BitVec 64) : (y.extractLsb' 32 32 ++ y.extractLsb' 0 32 : BitVec 64) = y :=
  (BitVec.extractLsb'_append_extractLsb'_eq_extractLsb' (by decide)).trans BitVec.extractLsb'_eq_self

/-- The cipher under the reversed subkeys undoes the cipher, whatever the subkeys are. -/
theorem desCrypt_reverse_desCrypt (ks : List (BitVec 48)) (x : BitVec 64) :
    desCrypt ks.reverse (desCrypt ks x) = x := by
  simp only [desCrypt, permute_desIp_desFp, BitVec.extractLsb'_append_eq_left, BitVec.extractLsb'_append_eq_right,
    desRounds_reverse_swap, append_block_halves, permute_desFp_desIp]

/-- Keys that agree outside the parity bits have the same subkeys: no entry of PC-1 is a multiple of 8. -/
theorem desSubkeys_congr {key key' : BitVec 64} (h : ∀ n, n % 8 ≠ 0 → key.getLsbD n = key'.getLsbD n) :
    desSubkeys key = desSubkeys key' := by
  have hpc1 : ∀ p ∈ desPc1, p ≤ 64 ∧ p % 8 ≠ 0 := by decide
  have hperm : permute 56 desPc1 key = permute 56 desPc1 key' := permute_congr rfl fun p hp => by
    obtain ⟨hle, hparity⟩ := hpc1 p hp
    rw [BitVec.getMsbD_eq_getLsbD, BitVec.getMsbD_eq_getLsbD, h _ (by omega)]
  simp only [desSubkeys, hperm]

/-- Settles O34: decryption is the cipher under the reversed subkeys of encryption. -/
theorem desDecryptionInvertsEncryption : Obligations.DesDecryptionInvertsEncryption :=
  fun key x => desCrypt_reverse_desCrypt (desSubkeys key) x

/-- Settles O35: both directions read the key through its subkeys only. -/
theorem desKeyParityIsIgnored : Obligations.DesKeyParityIsIgnored := fun key key' h x => by
  simp only [desEncryptBlock, desDecryptBlock, desSubkeys_congr h, and_self]

end Sys2Proof.Machine
end

section
/-! What one step of the machine can do, said once: the moves of the outside, and the completion in which every command
ends, with what it leaves of memory and of the hash table. -/

namespace Sys2Proof.Machine

/-! ### The moves of a step -/

@[simp] theorem State.busy_iff (s : State) : s.busy = true ↔ s.phase = .busy := by simp [State.busy]

@[simp] theorem State.not_busy_iff (s : State) : s.busy = false ↔ s.phase = .idle := by
  unfold State.busy; cases s.phase <;> simp

/-- The state with other pending inputs, other values the host has read, and another number of the next free value. -/
def State.withOutside (s : State) (inputs : List Input) (rdata : Word) (mdata : List Byte) (draws : Nat) : State :=
  { s with inputs := inputs, rdata := rdata, mdata := mdata, draws := draws }

/-- What a step does to the block, besides the fields of `withOutside`. -/
inductive State.Move (s : State) : State → Prop where
  | stay : s.Move s
  | engine {t : State} (h : s.engineStep = .next t) : s.Move t
  | write (r : Reg) (v : Word) (h : s.resetHeld = false) : s.Move (s.writeReg r v)
  | store (a : Nat) (bytes : List Byte) (h : a + bytes.length ≤ addrSpace) : s.Move (s.agentStoreBytes a bytes)
  | assertReset : s.Move s.assertReset
  | releaseReset : s.Move s.releaseReset

/-- A store on the slave port has no effect, or is the write of a register outside reset. -/
theorem State.storePort_cases (s : State) (addr : Word) (width : Nat) (v : Word) :
    s.storePort addr width v = s ∨ s.resetHeld = false ∧ ∃ r, s.storePort addr width v = s.writeReg r v := by
  unfold State.storePort
  cases hr : s.resetHeld
  · cases regOfAccess s.cfg addr width with
    | none => exact .inl rfl
    | some r => exact .inr ⟨rfl, r, rfl⟩
  · exact .inl rfl

/-- A load on the slave port changes at most the value read and the number of the next free value. -/
theorem State.loadPort_eq (s : State) (addr : Word) (width : Nat) :
    ∃ v n, s.loadPort addr width = { s with rdata := v, draws := n } := by
  unfold State.loadPort
  split
  · exact ⟨_, s.draws, rfl⟩
  · exact ⟨_, _, rfl⟩

/-- Every step that answers a next state is one of the moves. -/
theorem step_move {s t : State} (h : step s = .next t) :
    ∃ inputs rdata mdata draws, (s.withOutside inputs rdata mdata draws).Move t := by
  cases hi : s.inputs with
  | nil =>
    rw [step_noInput hi] at h
    exact ⟨s.inputs, s.rdata, s.mdata, s.draws, .engine h⟩
  | cons x rest =>
    rw [step_input hi] at h
    cases x with
    | regWrite addr width v =>
      cases h
      rcases State.storePort_cases { s with inputs := rest } addr width v with he | ⟨hr, r, he⟩ <;> rw [he]
      · exact ⟨rest, s.rdata, s.mdata, s.draws, .stay⟩
      · exact ⟨rest, s.rdata, s.mdata, s.draws, .write r v hr⟩
    | regRead addr width =>
      cases h
      obtain ⟨v, n, he⟩ := State.loadPort_eq { s with inputs := rest } addr width
      rw [he]
      exact ⟨rest, v, s.mdata, n, .stay⟩
    | poll addr mask value =>
      obtain ⟨v, n, he⟩ := State.loadPort_eq { s with inputs := rest } addr 4
      simp only [State.inputStep, he] at h
      split_ifs at h
      · cases h
        exact ⟨rest, v, s.mdata, n, .stay⟩
      · exact ⟨.poll addr mask value :: rest, v, s.mdata, n, .engine h⟩
    | memWrite a bytes =>
      simp only [State.inputStep, State.memWrite] at h
      split_ifs at h with ha
      cases h
      exact ⟨rest, s.rdata, s.mdata, s.draws, .store a bytes (by omega)⟩
    | memRead a n =>
      simp only [State.inputStep, State.memRead] at h
      split_ifs at h
      cases h
      exact ⟨rest, s.rdata, _, s.draws + 1, .stay⟩
    | resetAssert =>
      cases h
      exact ⟨rest, s.rdata, s.mdata, s.draws, .assertReset⟩
    | resetRelease =>
      cases h
      exact ⟨rest, s.rdata, s.mdata, s.draws, .releaseReset⟩
    | engine => exact ⟨rest, s.rdata, s.mdata, s.draws, .engine h⟩

/-- The block's own step: nothing when idle, `BAD_COMMAND` for an illegal word, else the command. -/
theorem State.engineStep_cases {s t : State} (h : s.engineStep = .next t) :
    (s.phase = .idle ∧ t = s) ∨
    (s.phase = .busy ∧ (t = s.fail .badCommand s.lCmd.toNat ∨ ∃ i, exec i s = .next t)) := by
  unfold State.engineStep at h
  split at h
  · next hp => exact .inl ⟨hp, by cases h; rfl⟩
  · next hp =>
    split at h
    · exact .inr ⟨hp, .inl (by cases h; rfl)⟩
    · exact .inr ⟨hp, .inr ⟨_, h⟩⟩

/-! ### Completed commands -/

theorem ErrCode.number_ne_zero (code : ErrCode) : code.number ≠ 0 := by cases code <;> decide

theorem ErrCode.number_legal (code : ErrCode) : legalCode code.number :=
  .inr ⟨code, by cases code <;> decide, rfl⟩

/-- What every completion leaves: phase IDLE, no race, one of `DONE` and `ERR`, and a code exactly with `ERR`. -/
structure State.Completed (t : State) : Prop where
  idle : t.phase = .idle
  notRaced : t.raced = false
  oneFlag : t.done = !t.err
  codeIffErr : t.errCode ≠ 0 ↔ t.err = true
  codeLegal : legalCode t.errCode

theorem State.fail_completed (s : State) (code : ErrCode) (info : Nat) : (s.fail code info).Completed where
  idle := rfl
  notRaced := rfl
  oneFlag := rfl
  codeIffErr := ⟨fun _ => rfl, fun _ => code.number_ne_zero⟩
  codeLegal := code.number_legal

theorem State.succeed_completed (s : State) (len aux : Nat) : (s.succeed len aux).Completed where
  idle := rfl
  notRaced := rfl
  oneFlag := rfl
  codeIffErr := ⟨fun h => absurd rfl h, fun h => by cases h⟩
  codeLegal := .inl rfl

/-- A raced completion reports 0 or the number of some code (20_memory R80, log 11). -/
theorem State.completeRaced_code (s : State) (w : Bool) :
    ((s.completeRaced w).err = false ∧ (s.completeRaced w).errCode = 0) ∨
    ((s.completeRaced w).err = true ∧ ∃ code, (s.completeRaced w).errCode = ErrCode.number code) := by
  have hc : (s.completeRaced w).errCode = if (!(s.completeRaced w).err) = true then 0 else
      (ErrCode.all.getD (Config.freeChoice s.draws 2 % 10) .badCommand).number := by
    simp [State.completeRaced]
  cases he : (s.completeRaced w).err <;> rw [hc, he]
  · exact .inl ⟨rfl, rfl⟩
  · exact .inr ⟨rfl, _, rfl⟩

theorem State.completeRaced_completed (s : State) (w : Bool) : (s.completeRaced w).Completed := by
  obtain ⟨-, hp, hr, he, -⟩ := s.completeRaced_fields w
  have hf : (s.completeRaced w).done = !(s.completeRaced w).err := by rw [he, Bool.not_not]
  rcases s.completeRaced_code w with ⟨h, hc⟩ | ⟨h, code, hc⟩
  · exact ⟨hp, hr, hf, by simp [h, hc], .inl hc⟩
  · exact ⟨hp, hr, hf, by simpa [h, hc] using code.number_ne_zero, hc ▸ code.number_legal⟩

theorem State.failChecks_completed (s : State) (code : ErrCode) (info : Nat) : (s.failChecks code info).Completed := by
  rcases s.failChecks_cases code info with ⟨-, h⟩ | ⟨-, h⟩ <;> rw [h]
  · exact s.fail_completed code info
  · exact s.completeRaced_completed false

/-- Every command that answers a next state completes (10_state R39, R53). -/
theorem exec_completed {i : Instr} {s t : State} (h : exec i s = .next t) : t.Completed := by
  rcases exec_cases h with ⟨c, n, -, rfl⟩ | ⟨-, -, rfl⟩ | ⟨-, -, c, n, -, rfl | ⟨-, rfl⟩⟩ |
    ⟨-, -, out, aux, w, -, -, rfl⟩
  · exact s.failChecks_completed c n
  · exact s.completeRaced_completed _
  · exact s.fail_completed c n
  · exact s.scramble.fail_completed c n
  · exact State.succeed_completed _ _ _

theorem State.engineStep_completed {s t : State} (hb : s.phase = .busy) (h : s.engineStep = .next t) : t.Completed := by
  rcases State.engineStep_cases h with ⟨hi, -⟩ | ⟨-, rfl | ⟨i, he⟩⟩
  · rw [hb] at hi; cases hi
  · exact s.fail_completed _ _
  · exact exec_completed he

/-! ### Memory and the hash table after a command -/

theorem State.failChecks_mem (s : State) (code : ErrCode) (info : Nat) : (s.failChecks code info).mem = s.mem := by
  rcases s.failChecks_cases code info with ⟨-, h⟩ | ⟨-, h⟩ <;> rw [h] <;> rfl

theorem State.failChecks_work (s : State) (code : ErrCode) (info : Nat) : (s.failChecks code info).work = s.work := by
  rcases s.failChecks_cases code info with ⟨-, h⟩ | ⟨-, h⟩ <;> rw [h] <;> rfl

theorem State.completeRaced_memWf {s : State} (w : Bool) (h : Memory.wf s.mem) : Memory.wf (s.completeRaced w).mem := by
  obtain ⟨-, -, -, -, -, -, -, hm⟩ := s.completeRaced_fields w
  rw [hm]
  cases w
  · exact h
  · exact State.scramble_wf h

/-- The destination region of a command that passes the region checks lies in the bus memory space (20_memory R76). -/
theorem State.destRegion_le {s : State} {u : DestUse} (h : s.regionError u = none) :
    s.dst + (s.destRegion u).size ≤ addrSpace := by
  have hd : s.dst < addrSpace := s.lDst.isLt
  unfold State.regionError at h
  split_ifs at h with _ h1 _
  cases hu : u.hasDest
  · simpa [State.destRegion, hu] using hd.le
  · simpa [State.destRegion, hu] using h1

theorem exec_memWf {i : Instr} {s t : State} (h : exec i s = .next t) (hm : Memory.wf s.mem) : Memory.wf t.mem := by
  rcases exec_cases h with ⟨c, n, -, rfl⟩ | ⟨-, -, rfl⟩ | ⟨-, -, c, n, -, rfl | ⟨-, rfl⟩⟩ |
    ⟨hr, -, out, aux, w, hl, -, rfl⟩
  · rw [State.failChecks_mem]; exact hm
  · exact State.completeRaced_memWf _ hm
  · exact hm
  · exact State.scramble_wf hm
  · have hd := State.destRegion_le hr
    exact Memory.wf_writeBytes out s.dst (by omega) hm

theorem exec_tableWf {i : Instr} {s t : State} (h : exec i s = .next t) (ht : tableWf s.work.comp.table) :
    tableWf t.work.comp.table := by
  rcases exec_cases h with ⟨c, n, -, rfl⟩ | ⟨-, -, rfl⟩ | ⟨-, -, c, n, -, rfl | ⟨-, rfl⟩⟩ |
    ⟨-, -, out, aux, w, -, hw, rfl⟩
  · rw [State.failChecks_work]; exact ht
  · obtain ⟨-, -, -, -, hw, -⟩ := s.completeRaced_fields (destUse i).hasDest
    rw [hw]; exact ht
  · exact ht
  · exact ht
  · exact hw ht

/-- Settles O21: a BUSY block's own step completes its command. -/
theorem completionSetsExactlyOneFlag : Obligations.CompletionSetsExactlyOneFlag := by
  intro s t hb hi hs
  rw [step_noInput hi] at hs
  have hc := State.engineStep_completed hb hs
  exact ⟨hc.idle, hc.oneFlag⟩

end Sys2Proof.Machine
end

section
/-! The invariant that every step keeps: one lemma for each operation of the outside, and completions by the form that
all of them have. -/

namespace Sys2Proof.Machine

/-- An idle block needs only the clauses about memory, the hash table and the flags. -/
theorem State.inv_of_idle {s : State} (hp : s.phase = .idle) (hm : Memory.wf s.mem) (ht : tableWf s.work.comp.table)
    (hf : s.done = true → s.err = false) (hc : s.errCode ≠ 0 ↔ s.err = true) (hl : legalCode s.errCode)
    (hr : s.raced = false) : s.Inv := by
  have hb : s.phase ≠ .busy := by simp [hp]
  exact ⟨hm, ht, ⟨fun h => absurd h hb, hf⟩, hc, hl, fun h => absurd h hb, fun h => absurd h hb, fun _ => hp,
    fun h => by simp [hr] at h⟩

theorem State.Completed.inv {t : State} (h : t.Completed) (hm : Memory.wf t.mem) (ht : tableWf t.work.comp.table) :
    t.Inv :=
  State.inv_of_idle h.idle hm ht (fun hd => by simpa [hd] using h.oneFlag) h.codeIffErr h.codeLegal h.notRaced

theorem State.Inv.notRaced_of_idle {s : State} (h : s.Inv) (hp : s.phase = .idle) : s.raced = false := by
  cases hr : s.raced
  · rfl
  · simpa [hp] using h.racedBusy hr

theorem State.Inv.withOutside {s : State} (h : s.Inv) (inputs : List Input) (rdata : Word) (mdata : List Byte)
    (draws : Nat) : (s.withOutside inputs rdata mdata draws).Inv :=
  ⟨h.memWf, h.table, h.oneFlag, h.codeIffErr, h.codeLegal, h.latched, h.noResults, h.heldIdle, h.racedBusy⟩

theorem State.Inv.withIrqEn {s : State} (h : s.Inv) (b : Bool) : ({ s with irqEn := b } : State).Inv :=
  ⟨h.memWf, h.table, h.oneFlag, h.codeIffErr, h.codeLegal, h.latched, h.noResults, h.heldIdle, h.racedBusy⟩

/-- An idle block may be given any operands. -/
theorem State.Inv.withOperands {s : State} (h : s.Inv) (hp : s.phase = .idle)
    (cmd srcAddr srcLen dstAddr dstCap : Word) :
    ({ s with cmd := cmd, srcAddr := srcAddr, srcLen := srcLen, dstAddr := dstAddr, dstCap := dstCap } : State).Inv :=
  State.inv_of_idle hp h.memWf h.table h.oneFlag.2 h.codeIffErr h.codeLegal (h.notRaced_of_idle hp)

theorem State.Inv.start {s : State} (h : s.Inv) (hr : s.resetHeld = false) : s.start.Inv where
  memWf := h.memWf
  table := h.table
  oneFlag := ⟨fun _ => ⟨rfl, rfl⟩, fun _ => rfl⟩
  codeIffErr := ⟨fun hc => absurd rfl hc, fun he => by cases he⟩
  codeLegal := .inl rfl
  latched := fun _ => ⟨rfl, rfl, rfl, rfl, rfl⟩
  noResults := fun _ => ⟨rfl, rfl, rfl⟩
  heldIdle := fun hh => by simp [hr] at hh
  racedBusy := fun _ => rfl

theorem State.Inv.acknowledge {s : State} (h : s.Inv) (v : Word) : (s.acknowledge v).Inv where
  memWf := h.memWf
  table := h.table
  oneFlag := by
    obtain ⟨hb, hd⟩ := h.oneFlag
    refine ⟨fun hp => ?_, fun hd' => ?_⟩
    · obtain ⟨h1, h2⟩ := hb hp
      simp [h1, h2]
    · have h1 : s.done = true := (Bool.and_eq_true_iff.1 hd').1
      simp [hd h1]
  codeIffErr := by
    show (if v.getLsbD 2 then 0 else s.errCode) ≠ 0 ↔ (s.err && !v.getLsbD 2) = true
    cases v.getLsbD 2
    · simpa using h.codeIffErr
    · simp
  codeLegal := by
    show legalCode (if v.getLsbD 2 then 0 else s.errCode)
    split
    · exact .inl rfl
    · exact h.codeLegal
  latched := h.latched
  noResults := h.noResults
  heldIdle := h.heldIdle
  racedBusy := h.racedBusy

theorem State.abandon_memWf {s : State} (h : Memory.wf s.mem) : Memory.wf s.abandon.mem := by
  rcases s.abandon_cases with ⟨-, he⟩ | ⟨-, he⟩ <;> rw [he]
  · exact h
  · exact State.scramble_wf h

theorem State.abandon_work (s : State) : s.abandon.work = s.work := by
  rcases s.abandon_cases with ⟨-, he⟩ | ⟨-, he⟩
  · rw [he]
  · rw [he]; rfl

/-- A soft reset meets the invariant, with the reset input at either level. -/
theorem State.Inv.softReset {s : State} (h : s.Inv) (held : Bool) :
    ({ s.softReset with resetHeld := held } : State).Inv := by
  have ht : tableWf s.abandon.work.comp.table := by rw [s.abandon_work]; exact h.table
  exact State.inv_of_idle rfl (State.abandon_memWf h.memWf) ht (fun _ => rfl)
    ⟨fun hc => absurd rfl hc, fun he => by cases he⟩ (.inl rfl) rfl

theorem State.Inv.writeCtrl {s : State} (h : s.Inv) (hr : s.resetHeld = false) (v : Word) : (s.writeCtrl v).Inv := by
  unfold State.writeCtrl
  split
  · exact h.softReset s.softReset.resetHeld
  · simp only
    split
    · exact (h.withIrqEn _).start hr
    · exact h.withIrqEn _

theorem State.Inv.writeReg {s : State} (h : s.Inv) (hr : s.resetHeld = false) (r : Reg) (v : Word) :
    (s.writeReg r v).Inv := by
  have operand : ∀ cmd srcAddr srcLen dstAddr dstCap : Word, (if s.busy then s else { s with
      cmd := cmd, srcAddr := srcAddr, srcLen := srcLen, dstAddr := dstAddr, dstCap := dstCap } : State).Inv := by
    intro cmd srcAddr srcLen dstAddr dstCap
    split
    · exact h
    · next hb => exact h.withOperands (s.not_busy_iff.1 (eq_false_of_ne_true hb)) cmd srcAddr srcLen dstAddr dstCap
  cases r with
  | ctrl => exact h.writeCtrl hr v
  | status => exact h.acknowledge v
  | cmd => exact operand v s.srcAddr s.srcLen s.dstAddr s.dstCap
  | srcAddr => exact operand s.cmd v s.srcLen s.dstAddr s.dstCap
  | srcLen => exact operand s.cmd s.srcAddr v s.dstAddr s.dstCap
  | dstAddr => exact operand s.cmd s.srcAddr s.srcLen v s.dstCap
  | dstCap => exact operand s.cmd s.srcAddr s.srcLen s.dstAddr v
  | id => exact h
  | resultLen => exact h
  | resultAux => exact h
  | errInfo => exact h
  | reserved => exact h

/-- A store of another agent may race the running command only (20_memory R80). -/
theorem State.Inv.agentStore {s : State} (h : s.Inv) {a : Nat} (ha : a < addrSpace) (b : Byte) :
    (s.agentStore a b).Inv := by
  unfold State.agentStore
  split
  · exact h
  · refine ⟨Memory.wf_write a b ha h.memWf, h.table, h.oneFlag, h.codeIffErr, h.codeLegal, h.latched, h.noResults,
      h.heldIdle, fun hr => ?_⟩
    rcases Bool.or_eq_true_iff.1 hr with hr | hg
    · exact h.racedBusy hr
    · simp only [State.guarded, Bool.and_eq_true, State.busy_iff] at hg
      exact hg.1.1

theorem State.Inv.agentStoreBytes {s : State} (h : s.Inv) {a : Nat} {bytes : List Byte}
    (ha : a + bytes.length ≤ addrSpace) : (s.agentStoreBytes a bytes).Inv := by
  induction bytes generalizing s a with
  | nil => exact h
  | cons b rest ih =>
    simp only [List.length_cons] at ha
    exact ih (h.agentStore (by omega) b) (by omega)

theorem State.Inv.engineStep {s t : State} (h : s.Inv) (he : s.engineStep = .next t) : t.Inv := by
  rcases State.engineStep_cases he with ⟨-, rfl⟩ | ⟨-, rfl | ⟨i, hx⟩⟩
  · exact h
  · exact (s.fail_completed _ _).inv h.memWf h.table
  · exact (exec_completed hx).inv (exec_memWf hx h.memWf) (exec_tableWf hx h.table)

theorem State.Inv.move {s t : State} (h : s.Inv) (hm : s.Move t) : t.Inv := by
  cases hm with
  | stay => exact h
  | engine he => exact h.engineStep he
  | write r v hr => exact h.writeReg hr r v
  | store a bytes ha => exact h.agentStoreBytes ha
  | assertReset => exact h.softReset true
  | releaseReset => exact h.softReset false

/-- Settles O58: every step is a move, and every move keeps the invariant. -/
theorem invariantKeptByEveryStep : Obligations.InvariantKeptByEveryStep := by
  intro s t h hs
  obtain ⟨inputs, rdata, mdata, draws, hm⟩ := step_move hs
  exact (h.withOutside inputs rdata mdata draws).move hm

/-- Settles O57: after reset the block is idle, memory and hash table are empty, and no flag or code is set. -/
theorem invariantHoldsAtReset : Obligations.InvariantHoldsAtReset :=
  State.inv_of_idle rfl Memory.wf_reset ⟨List.Pairwise.nil, fun _ hc => by cases hc⟩ (fun _ => rfl) (by decide)
    (.inl rfl) rfl

end Sys2Proof.Machine
end

section
/-! The parameters no step changes (10_state R55), and the commands' working state (R56, R57): each command writes its
own part and reads none. -/

namespace Sys2Proof.Machine

/-! ### The parameters -/

theorem State.abandon_cfg (s : State) : s.abandon.cfg = s.cfg := by
  rcases s.abandon_cases with ⟨-, h⟩ | ⟨-, h⟩
  · rw [h]
  · rw [h]; rfl

theorem State.softReset_cfg (s : State) : s.softReset.cfg = s.cfg := s.abandon_cfg

theorem State.writeCtrl_cfg (s : State) (v : Word) : (s.writeCtrl v).cfg = s.cfg := by
  unfold State.writeCtrl
  split
  · exact s.softReset_cfg
  · simp only
    split <;> rfl

theorem State.writeReg_cfg (s : State) (r : Reg) (v : Word) : (s.writeReg r v).cfg = s.cfg := by
  cases r with
  | ctrl => exact s.writeCtrl_cfg v
  | cmd | srcAddr | srcLen | dstAddr | dstCap => unfold State.writeReg; simp only; split <;> rfl
  | _ => rfl

theorem State.agentStoreBytes_cfg (s : State) (a : Nat) (bytes : List Byte) :
    (s.agentStoreBytes a bytes).cfg = s.cfg := by
  induction bytes generalizing s a with
  | nil => rfl
  | cons b rest ih =>
    have hb : (s.agentStore a b).cfg = s.cfg := by unfold State.agentStore; split <;> rfl
    rw [State.agentStoreBytes, ih, hb]

theorem exec_operands {i : Instr} {s t : State} (h : exec i s = .next t) : s.SameOperands t := by
  rw [exec_eq_runCommand] at h
  exact State.runCommand_operands h

theorem State.engineStep_cfg {s t : State} (h : s.engineStep = .next t) : t.cfg = s.cfg := by
  rcases State.engineStep_cases h with ⟨-, rfl⟩ | ⟨-, rfl | ⟨i, hx⟩⟩
  · rfl
  · rfl
  · exact (exec_operands hx).cfg

theorem State.Move.cfg {s t : State} (h : s.Move t) : t.cfg = s.cfg := by
  cases h with
  | stay => rfl
  | engine he => exact State.engineStep_cfg he
  | write r v _ => exact s.writeReg_cfg r v
  | store a bytes _ => exact s.agentStoreBytes_cfg a bytes
  | assertReset => exact s.softReset_cfg
  | releaseReset => exact s.softReset_cfg

/-- Settles O59: every step is a move, and no move writes the parameters. -/
theorem keyNeverChanges : Obligations.KeyNeverChanges := by
  intro s t h
  obtain ⟨inputs, rdata, mdata, draws, hm⟩ := step_move h
  exact hm.cfg

/-! ### The working state -/

/-- The state with another working state. -/
def State.withWork (s : State) (w : Work) : State := { s with work := w }

/-- The working state `w` with the part of command `i` taken from `k` (10_state R57). -/
def Work.takeOwn (i : Instr) (k w : Work) : Work :=
  match i with
  | .desDecrypt _ _ => { w with block := k.block }
  | .desEncrypt _ _ => { w with block := k.block }
  | .verify _ _ => { w with probe := k.probe }
  | .verifyAc1350 _ _ => { w with acLen := k.acLen }
  | .digest _ _ => { w with md5 := k.md5 }
  | .decompress _ _ => { w with dec := k.dec }
  | .compress _ _ => { w with comp := k.comp }

/-- An ending with the working state it leaves replaced. -/
def Ending.mapWork (g : Work → Work) : Ending → Ending
  | .done out len aux work => .done out len aux (g work)
  | .stopped why dirty => .stopped why dirty

/-- What a command reads besides the working state. -/
@[simp] theorem State.withWork_reads (s : State) (w : Work) :
    (s.withWork w).cfg = s.cfg ∧ (s.withWork w).draws = s.draws ∧ (s.withWork w).srcBytes = s.srcBytes ∧
    (s.withWork w).src = s.src ∧ (s.withWork w).slen = s.slen ∧ (s.withWork w).dst = s.dst ∧
    (s.withWork w).dcap = s.dcap ∧ (s.withWork w).work = w ∧ cipherAccesses (s.withWork w) = cipherAccesses s ∧
    cipherMayHaveWritten (s.withWork w) = cipherMayHaveWritten s ∧ ∀ e, (s.withWork w).decJob e = s.decJob e :=
  ⟨rfl, rfl, rfl, rfl, rfl, rfl, rfl, rfl, rfl, rfl, fun _ => rfl⟩

theorem cipherBody_withWork (s : State) (w : Work) (f : BitVec 64 → BitVec 64 → BitVec 64) :
    cipherBody (s.withWork w) f = (cipherBody s f).mapWork (fun k => { w with block := k.block }) := by
  simp only [cipherBody, State.withWork_reads]
  cases anyStop s.cfg s.draws (cipherAccesses s) <;> rfl

theorem verifyBody_withWork (s : State) (w : Work) :
    verifyBody (s.withWork w) = (verifyBody s).mapWork (fun k => { w with probe := k.probe }) := by
  simp only [verifyBody, State.withWork_reads]
  cases anyStop s.cfg s.draws (accesses .read s.src s.slen) with
  | some st => rfl
  | none => cases probeTrailing s.srcBytes probeMax 0 <;> rfl

theorem ac1350Body_withWork (s : State) (w : Work) (e : Endian) :
    ac1350Body (s.withWork w) e = (ac1350Body s e).mapWork (fun k => { w with acLen := k.acLen }) := by
  simp only [ac1350Body, State.withWork_reads]
  cases valueStop s.cfg s.draws e (s.src + 16) 2 with
  | some st => rfl
  | none =>
    simp only
    split
    · rfl
    · cases anyStop s.cfg s.draws _ with
      | some st => rfl
      | none => simp only; split <;> rfl

theorem digestBody_withWork (s : State) (w : Work) :
    digestBody (s.withWork w) = (digestBody s).mapWork (fun k => { w with md5 := k.md5 }) := by
  simp only [digestBody, State.withWork_reads]
  cases anyStop s.cfg s.draws (accesses .read s.src s.slen) with
  | some st => rfl
  | none => cases anyStop s.cfg s.draws (accesses .write s.dst digestLen) <;> rfl

theorem decompressBody_withWork (s : State) (w : Work) (e : Endian) :
    decompressBody (s.withWork w) e = (decompressBody s e).mapWork (fun k => { w with dec := k.dec }) := by
  simp only [decompressBody, State.withWork_reads]
  cases decHeader (s.decJob e) s.dcap with
  | error st => rfl
  | ok p =>
    obtain ⟨b0, w0⟩ := p
    simp only
    cases decWrite (s.decJob e) b0 w0 <;> rfl

theorem compressEnd_withWork (s : State) (w : Work) (c : CompState) :
    compressEnd (s.withWork w) c = (compressEnd s c).mapWork (fun k => { w with comp := k.comp }) := by
  simp only [compressEnd, State.withWork_reads]
  cases anyStop s.cfg s.draws _ <;> cases decide (s.dcap < c.out.length) <;> rfl

theorem compressBody_withWork (s : State) (w : Work) (e : Endian) (ovl : Bool) :
    compressBody (s.withWork w) e ovl = (compressBody s e ovl).mapWork (fun k => { w with comp := k.comp }) := by
  simp only [compressBody, State.withWork_reads, compressEnd_withWork]
  cases firstStop s.cfg (accesses .read s.src s.slen) <;> rfl

/-- Another working state changes of a command's ending only the working state it leaves, and of that not the command's
own part. -/
theorem bodyOf_withWork (i : Instr) (s : State) (w : Work) :
    bodyOf (s.withWork w) i = (bodyOf s i).mapWork (fun k => Work.takeOwn i k w) := by
  cases i with
  | desDecrypt le ovl => exact cipherBody_withWork s w desDecryptBlock
  | desEncrypt le ovl => exact cipherBody_withWork s w desEncryptBlock
  | verify le ovl => exact verifyBody_withWork s w
  | verifyAc1350 le ovl => exact ac1350Body_withWork s w le
  | digest le ovl => exact digestBody_withWork s w
  | decompress le ovl => exact decompressBody_withWork s w le
  | compress le ovl => exact compressBody_withWork s w le ovl

theorem ownChecks_withWork (i : Instr) (s : State) (w : Work) : ownChecks i (s.withWork w) = ownChecks i s := by
  cases i <;> rfl

/-! #### What a command leaves in it -/

/-- The working state that a command completes with is the one before it, but for the command's own part. -/
theorem bodyOf_done_work {i : Instr} {s : State} {out : List Byte} {len aux : Nat} {k : Work}
    (h : bodyOf s i = .done out len aux k) : k = Work.takeOwn i k s.work := by
  have hb := bodyOf_withWork i s s.work
  rw [show s.withWork s.work = s from rfl, h] at hb
  exact (Ending.done.inj hb).2.2.2

theorem Work.takeOwn_self (i : Instr) (w : Work) : Work.takeOwn i w w = w := by cases i <;> rfl

/-- A command that answers a next state changes at most its own part of the working state (10_state R57). -/
theorem exec_work {i : Instr} {s t : State} (h : exec i s = .next t) : t.work = Work.takeOwn i t.work s.work := by
  have keep : t.work = s.work → t.work = Work.takeOwn i t.work s.work := by
    intro hw
    rw [hw, Work.takeOwn_self]
  rw [exec_eq_runCommand] at h
  rcases State.runCommand_cases h with ⟨info, -, rfl⟩ | ⟨-, code, info, -, rfl⟩ | ⟨-, -, -, hc⟩
  · exact keep (s.failChecks_work _ _)
  · exact keep (s.failChecks_work _ _)
  · rcases State.complete_cases hc with ⟨-, rfl⟩ | ⟨-, c, n, -, rfl⟩ | ⟨-, c, n, -, rfl⟩ |
      ⟨-, out, len, aux, k, hb, rfl⟩
    · obtain ⟨-, -, -, -, hw, -⟩ := s.completeRaced_fields (destUse i).hasDest
      exact keep hw
    · exact keep rfl
    · exact keep rfl
    · exact bodyOf_done_work hb

/-- Settles O24: the frame of the working state, command by command. -/
theorem commandKeepsOtherWorkingState : Obligations.CommandKeepsOtherWorkingState :=
  fun _ _ _ _ => ⟨exec_work, exec_work, exec_work, exec_work, exec_work, exec_work, exec_work⟩

/-! #### What a command reads of it -/

/-- An outcome without the working state. -/
def Outcome.forgetWork : Host.Outcome State Fault Refusal → Host.Outcome State Fault Refusal
  | .next t => .next (t.withWork Work.reset)
  | .fault r => .fault r
  | .refused r => .refused r

theorem State.completeRaced_withWork (s : State) (w : Work) (dest : Bool) :
    (s.withWork w).completeRaced dest = (s.completeRaced dest).withWork w := by cases dest <;> rfl

theorem State.failChecks_withWork (s : State) (w : Work) (code : ErrCode) (info : Nat) :
    (s.withWork w).failChecks code info = (s.failChecks code info).withWork w := by
  unfold State.failChecks
  rw [State.completeRaced_withWork, show (s.withWork w).raced = s.raced from rfl]
  split <;> rfl

theorem State.complete_forgetWork (s : State) (w : Work) (g : Work → Work) (dest : Bool) (e : Ending) :
    Outcome.forgetWork ((s.withWork w).complete dest (e.mapWork g)) = Outcome.forgetWork (s.complete dest e) := by
  have hr : (s.withWork w).raced = s.raced := rfl
  rcases e with ⟨out, len, aux, k⟩ | ⟨⟨code, info⟩ | _, dirty⟩
  · simp only [State.complete, Ending.mapWork, hr, State.completeRaced_withWork]
    split <;> rfl
  · simp only [State.complete, Ending.mapWork, hr, State.completeRaced_withWork]
    split
    · rfl
    · split <;> rfl
  · rfl

/-- No command's outcome depends on the working state it finds, but for the working state itself (10_state R56). -/
theorem exec_forgetWork (i : Instr) (s : State) (w : Work) :
    Outcome.forgetWork (exec i (s.withWork w)) = Outcome.forgetWork (exec i s) := by
  have hr : (s.withWork w).regionError (destUse i) = s.regionError (destUse i) := rfl
  have hm : (s.withWork w).regionNotMemory (destUse i) = s.regionNotMemory (destUse i) := rfl
  simp only [exec_eq_runCommand, State.runCommand, hr, hm, ownChecks_withWork, bodyOf_withWork,
    State.failChecks_withWork]
  cases s.regionError (destUse i) with
  | some info => rfl
  | none =>
    cases ownChecks i s with
    | some c => rfl
    | none =>
      simp only
      split
      · rfl
      · exact s.complete_forgetWork w _ _ _

/-- Outcomes that agree without the working state agree but for it. -/
theorem Outcome.eq_of_forgetWork {o o' : Host.Outcome State Fault Refusal}
    (h : Outcome.forgetWork o' = Outcome.forgetWork o) :
    (∀ t, o = .next t → ∃ w', o' = .next (t.withWork w')) ∧ (∀ r, o = .fault r → o' = .fault r) ∧
      (∀ r, o = .refused r → o' = .refused r) := by
  cases o with
  | next t =>
    refine ⟨fun t' ht => ?_, nofun, nofun⟩
    cases ht
    cases o' with
    | next u =>
      have hu : u.withWork Work.reset = t.withWork Work.reset := Host.Outcome.next.inj h
      exact ⟨u.work, congrArg (fun v => Host.Outcome.next (v.withWork u.work)) hu⟩
    | fault r => cases h
    | refused r => cases h
  | fault r =>
    refine ⟨nofun, fun r' hf => ?_, nofun⟩
    cases hf
    cases o' <;> cases h
    rfl
  | refused r =>
    refine ⟨nofun, nofun, fun r' hf => ?_⟩
    cases hf
    cases o' <;> cases h
    rfl

/-- Settles O31: the outcomes on the two working states agree without the working state. -/
theorem resultIndependentOfWorkingState : Obligations.ResultIndependentOfWorkingState :=
  fun i s w => Outcome.eq_of_forgetWork (exec_forgetWork i s w)

end Sys2Proof.Machine
end

section
/-! The register window, one register access at a time (10_state R30 to R51), and the soft reset (R34, 70_reset
R283). -/

namespace Sys2Proof.Machine

/-! ### What a register reads -/

theorem State.ctrlWord_eq (s : State) : s.ctrlWord = if s.irqEn then 4#32 else 0#32 := by
  unfold State.ctrlWord; cases s.irqEn <;> rfl

/-- `STATUS` bit by bit (10_state R37). -/
theorem State.getLsbD_statusWord (s : State) :
    s.statusWord.getLsbD 0 = s.busy ∧ s.statusWord.getLsbD 1 = s.done ∧ s.statusWord.getLsbD 2 = s.err ∧
    ∀ n, s.statusWord.getLsbD (n + 3) = if n < 5 then false else s.errCode.getLsbD (n - 5) := by
  have fields : ∀ n, s.statusWord.getLsbD n = (0#16 ++ s.errCode ++ 0#5 ++ BitVec.ofBool s.err ++
    BitVec.ofBool s.done ++ BitVec.ofBool s.busy : BitVec (16 + 8 + 5 + 1 + 1 + 1)).getLsbD n := fun _ => rfl
  simp only [fields, BitVec.getLsbD_append, BitVec.getLsbD_ofBool, BitVec.getLsbD_zero]
  refine ⟨by simp, by simp, by simp, fun n => ?_⟩
  rw [if_neg (by omega), if_neg (by omega), if_neg (by omega), show n + 3 - 1 - 1 - 1 = n by omega]
  split_ifs with h5 h8
  · rfl
  · rfl
  · exact (BitVec.getLsbD_of_ge _ _ (by omega)).symm

/-- `ERRCODE` is bits 15:8 of `STATUS`, and bits 31:16 are 0 (10_state R37). -/
theorem State.statusWord_code (s : State) : s.statusWord >>> 8 = s.errCode.setWidth 32 := by
  obtain ⟨-, -, -, hcode⟩ := s.getLsbD_statusWord
  apply BitVec.eq_of_getLsbD_eq
  intro n hn
  rw [BitVec.getLsbD_ushiftRight, BitVec.getLsbD_setWidth, show 8 + n = n + 5 + 3 by omega, hcode]
  simp [hn]

/-- After a soft reset every register but `ID` reads 0 (10_state R59). -/
theorem State.readReg_resetRegs (s : State) {r : Reg} (h : r ≠ .id) : s.resetRegs.readReg r = 0 := by
  cases r with
  | id => exact absurd rfl h
  | ctrl => exact s.resetRegs.ctrlWord_eq
  | status => show (0#16 ++ 0#8 ++ 0#5 ++ BitVec.ofBool false ++ BitVec.ofBool false ++ BitVec.ofBool false) = 0#32; rfl
  | _ => rfl

theorem regAt_reserved {k : Nat} (h : 11 ≤ k) : regAt k = .reserved := by
  obtain ⟨m, rfl⟩ := Nat.exists_eq_add_of_le' h
  rfl

/-! ### What a write of a register does -/

theorem State.softReset_inputs (s : State) : s.softReset.inputs = s.inputs := by
  show s.abandon.inputs = s.inputs
  rcases s.abandon_cases with ⟨-, h⟩ | ⟨-, h⟩
  · rw [h]
  · rw [h]; rfl

theorem State.writeCtrl_reset (s : State) {v : Word} (h : v.getLsbD 1 = true) : s.writeCtrl v = s.softReset := by
  simp only [State.writeCtrl, h, if_true]

theorem State.writeCtrl_noReset (s : State) {v : Word} (h : v.getLsbD 1 = false) : s.writeCtrl v =
    if v.getLsbD 0 && !s.busy then ({ s with irqEn := v.getLsbD 2 } : State).start
    else { s with irqEn := v.getLsbD 2 } := by
  rw [State.writeCtrl, h]
  rfl

/-- START while idle (10_state R33). -/
theorem State.writeCtrl_start {s : State} {v : Word} (h0 : v.getLsbD 0 = true) (h1 : v.getLsbD 1 = false)
    (hp : s.phase = .idle) : s.writeCtrl v = ({ s with irqEn := v.getLsbD 2 } : State).start := by
  rw [s.writeCtrl_noReset h1, h0, s.not_busy_iff.2 hp]
  rfl

/-- A `CTRL` write that neither resets nor starts stores `IRQ_EN` (10_state R33, R35). -/
theorem State.writeCtrl_irqEn {s : State} {v : Word} (h1 : v.getLsbD 1 = false)
    (h : v.getLsbD 0 = false ∨ s.phase = .busy) : s.writeCtrl v = { s with irqEn := v.getLsbD 2 } := by
  rw [s.writeCtrl_noReset h1]
  rcases h with h0 | hp
  · rw [h0]; rfl
  · rw [s.busy_iff.2 hp, Bool.not_true, Bool.and_false]; rfl

/-- The operand registers keep their values while BUSY (10_state R47). -/
theorem State.writeReg_busy {s : State} {r : Reg} (v : Word) (hp : s.phase = .busy)
    (hr : r ∈ [Reg.cmd, .srcAddr, .srcLen, .dstAddr, .dstCap]) : s.writeReg r v = s := by
  have hb : s.busy = true := s.busy_iff.2 hp
  simp only [List.mem_cons, List.not_mem_nil, or_false] at hr
  rcases hr with rfl | rfl | rfl | rfl | rfl <;> exact if_pos hb

/-! ### Steps with a register access -/

/-- A 32-bit write to word `k` of the window outside reset. -/
theorem step_wordWrite {s : State} {k : Nat} {v : Word} {rest : List Input} (hr : s.resetHeld = false) (hk : k < 16)
    (h : s.inputs = .regWrite (s.cfg.cceBase + BitVec.ofNat 32 (4 * k)) 4 v :: rest) :
    step s = .next (({ s with inputs := rest } : State).writeReg (regAt k) v) := by
  rw [step_input h]
  simp only [State.inputStep, State.storePort, hr, regOfAccess_word _ k hk]
  rfl

/-- Settles O1: the state after reset is the reset of its registers. -/
theorem resetStateHoldsSpecifiedValues : Obligations.ResetStateHoldsSpecifiedValues :=
  ⟨rfl, rfl, rfl, fun _ hr => State.reset.readReg_resetRegs hr, rfl⟩

/-- Settles O2: the write is the soft reset of the state without this input. -/
theorem softResetFromAnyState : Obligations.SoftResetFromAnyState := by
  intro s v rest hr hv hi
  have hs : step s = .next ({ s with inputs := rest } : State).softReset := by
    rw [step_regWrite hr hi]
    exact congrArg _ (State.writeCtrl_reset _ hv)
  obtain ⟨hidle, hout⟩ := State.softReset_mem { s with inputs := rest }
  exact ⟨_, hs, State.softReset_inputs _, rfl, rfl, rfl, rfl, fun r hne => State.readReg_resetRegs _ hne, rfl,
    State.softReset_cfg _, hidle, hout⟩

/-- Settles O4: the value read is the register's, and each register's word is as the map says. -/
theorem registerReadHasNoSideEffect : Obligations.RegisterReadHasNoSideEffect := by
  intro s k rest hr hk hi
  refine ⟨s.readReg (regAt k), step_wordRead hr hk hi, ?_, ?ctrl, ?_, ?status, ?_, ?_, ?_, ?_, ?_, ?_, ?_, ?reserved⟩
  case ctrl => rintro rfl; exact s.ctrlWord_eq
  case status =>
    rintro rfl
    obtain ⟨hb, hd, he, hn⟩ := s.getLsbD_statusWord
    refine ⟨hb, hd, he, fun n h3 h8 => ?_, s.statusWord_code⟩
    obtain ⟨m, rfl⟩ := Nat.exists_eq_add_of_le' h3
    exact (hn m).trans (if_pos (by omega))
  case reserved => intro h; rw [regAt_reserved h]; rfl
  all_goals rintro rfl; rfl

/-- Settles O5: these registers read constants, and a write to them is no write. -/
theorem idAndReservedOffsetsIgnoreWrites : Obligations.IdAndReservedOffsetsIgnoreWrites := by
  intro s k v rest hr
  refine ⟨step_regRead hr, step_regWrite hr, fun h11 h15 hi => ?_, fun h11 h15 hi => ?_⟩
  · rw [step_wordRead hr (by omega) hi, regAt_reserved h11]; rfl
  · rw [step_wordWrite hr (by omega) hi, regAt_reserved h11]; rfl

/-- Settles O7: such an access reaches no register. -/
theorem otherWidthOrAlignmentHasNoEffect : Obligations.OtherWidthOrAlignmentHasNoEffect := by
  intro s addr width v rest hr hw
  have hnone := regOfAccess_none s.cfg addr width hw
  refine ⟨fun hi => ?_, fun hi => ⟨Config.freeWord s.draws 0, ?_⟩⟩
  · rw [step_input hi]
    simp only [State.inputStep, State.storePort, hr, hnone]
    rfl
  · rw [step_input hi]
    simp only [State.inputStep, State.loadPort, hnone]

/-- Settles O8: START is accepted exactly when the block is not BUSY. -/
theorem startLatchesOperandsOnlyWhenIdle : Obligations.StartLatchesOperandsOnlyWhenIdle := by
  intro s v rest hr h0 h1 hi
  rw [step_regWrite hr hi]
  exact ⟨fun hp => congrArg _ (State.writeCtrl_start h0 h1 hp),
    fun hp => congrArg _ (State.writeCtrl_irqEn h1 (.inr hp))⟩

/-- Settles O9: neither action bit is set. -/
theorem ctrlWriteWithoutActionSetsIrqEnable : Obligations.CtrlWriteWithoutActionSetsIrqEnable := by
  intro s v rest hr h0 h1 hi
  rw [step_regWrite hr hi]
  exact congrArg _ (State.writeCtrl_irqEn h1 (.inl h0))

/-- Settles O10: a BUSY block ignores the write, and the invariant says that its latches equal its registers. -/
theorem operandRegistersFrozenWhileBusy : Obligations.OperandRegistersFrozenWhileBusy := by
  intro s r v rest h hp hm hi
  have hr : s.resetHeld = false := by
    cases hr : s.resetHeld
    · rfl
    · simpa [hp] using h.heldIdle hr
  obtain ⟨hc, hs, hl, hd, hcap⟩ := h.latched hp
  exact ⟨(step_regWrite hr hi).trans (congrArg _ (State.writeReg_busy v hp hm)), hc.symm, hs.symm, hl.symm, hd.symm,
    hcap.symm⟩

/-- Settles O11: an idle block stores the word; a result register takes no write. -/
theorem operandRegisterWriteStoresWholeWord : Obligations.OperandRegisterWriteStoresWholeWord := by
  intro s v rest hr
  refine ⟨fun hp => ?_, fun r hm hi => ?_⟩
  · have hb : ({ s with inputs := rest } : State).busy ≠ true := by simp [hp]
    refine ⟨?_, ?_, ?_, ?_, ?_⟩ <;> exact fun hi => (step_regWrite hr hi).trans (congrArg _ (if_neg hb))
  · rw [step_regWrite hr hi]
    simp only [List.mem_cons, List.not_mem_nil, or_false] at hm
    rcases hm with rfl | rfl | rfl <;> rfl

/-- Settles O12: the write is the acknowledgement. -/
theorem statusWriteClearsFlags : Obligations.StatusWriteClearsFlags := by
  intro s v rest hr hi
  rw [step_regWrite hr hi]
  have hclear : ∀ flag bit : Bool, (flag && !bit) = if bit then false else flag := by decide
  simp only [State.writeReg, State.acknowledge, hclear]

end Sys2Proof.Machine
end

section
/-! Commands and bus memory (20_memory): which bytes a command may change (R78), the region checks (R76, R77), regions
that are no ordinary memory (R82), bus errors (R73), and stores of other agents (R80). -/

namespace Sys2Proof.Machine

/-! ### Bytes outside a span -/

theorem sameOutside_of_eq {m m' : Memory} (h : m' = m) (r : Span) : sameOutside m m' r := fun _ _ => by rw [h]

theorem sameOutside.grow {m m' : Memory} {a n n' : Nat} (h : sameOutside m m' ⟨a, n⟩) (hn : n ≤ n') :
    sameOutside m m' ⟨a, n'⟩ := by
  intro b hb
  refine h b (Bool.eq_false_iff.2 fun hin => ?_)
  obtain ⟨h1, h2⟩ := spanHas_iff.1 hin
  have hout : spanHas ⟨a, n'⟩ b = true := spanHas_iff.2 ⟨h1, Nat.lt_of_lt_of_le h2 (Nat.add_le_add_left hn a)⟩
  simp [hb] at hout

theorem State.destRegion_size_le (s : State) (u : DestUse) : (s.destRegion u).size ≤ s.dcap := by
  unfold State.destRegion
  cases u.hasDest
  · exact Nat.zero_le _
  · exact Nat.le_refl _

theorem State.completeRaced_sameOutside (s : State) (u : DestUse) :
    sameOutside s.mem (s.completeRaced u.hasDest).mem (s.destRegion u) := by
  obtain ⟨-, -, -, -, -, -, -, hm⟩ := s.completeRaced_fields u.hasDest
  rw [hm]
  unfold State.destRegion
  cases u.hasDest
  · exact sameOutside_of_eq rfl _
  · exact s.scramble_sameOutside

/-! ### What a command writes -/

/-- Settles O25: a failed check writes nothing, a raced or late-failing command draws at most its destination region, and
a success stores bytes that fit it. -/
theorem commandWritesOnlyDestinationRegion : Obligations.CommandWritesOnlyDestinationRegion := by
  intro i s t h
  rcases exec_cases h with ⟨c, n, -, rfl⟩ | ⟨-, -, rfl⟩ | ⟨-, -, c, n, -, rfl | ⟨hd, rfl⟩⟩ |
    ⟨-, -, out, aux, w, hl, -, rfl⟩
  · exact sameOutside_of_eq (s.failChecks_mem c n) _
  · exact s.completeRaced_sameOutside _
  · exact sameOutside_of_eq rfl _
  · exact s.scramble_sameOutside.grow (Nat.le_of_eq hd.symm)
  · exact (Memory.writeBytes_sameOutside s.mem s.dst out).grow hl

theorem State.failChecks_eq_fail {s : State} (hr : s.raced = false) (code : ErrCode) (info : Nat) :
    s.failChecks code info = s.fail code info := by
  simp [State.failChecks, hr]

/-- A command that is not raced fails, with an honest error and some memory, or succeeds with the bytes it stores. -/
theorem exec_cases_of_notRaced {i : Instr} {s t : State} (hr : s.raced = false) (h : exec i s = .next t) :
    (∃ m code info, (Stop.error code info).honest s.cfg ∧ t = ({ s with mem := m } : State).fail code info) ∨
    (∃ out aux work, out.length ≤ (s.destRegion (destUse i)).size ∧
      t = ({ s with mem := Memory.writeBytes s.mem s.dst out, work := work } : State).succeed out.length aux) := by
  rcases exec_cases h with ⟨c, n, hc, rfl⟩ | ⟨-, hr', -⟩ | ⟨-, -, c, n, hc, ht⟩ | ⟨-, -, out, aux, w, hl, -, rfl⟩
  · exact .inl ⟨s.mem, c, n, fun hb => absurd hb hc, State.failChecks_eq_fail hr c n⟩
  · simp [hr] at hr'
  · rcases ht with rfl | ⟨-, rfl⟩
    · exact .inl ⟨s.mem, c, n, hc, rfl⟩
    · exact .inl ⟨s.scramble.mem, c, n, hc, rfl⟩
  · exact .inr ⟨out, aux, w, hl, rfl⟩

/-- Settles O26: `RESULT_LEN` is the number of bytes stored, which fits 32 bits. -/
theorem successWritesOnlyResultBytes : Obligations.SuccessWritesOnlyResultBytes := by
  intro i s t hr h hd
  rcases exec_cases_of_notRaced hr h with ⟨m, c, n, -, rfl⟩ | ⟨out, aux, w, hl, rfl⟩
  · cases hd
  · have hcap : s.dcap < 2 ^ 32 := s.lDCap.isLt
    have hle := s.destRegion_size_le (destUse i)
    have hlen : (BitVec.ofNat 32 out.length).toNat = out.length := Nat.mod_eq_of_lt (by omega)
    exact (Memory.writeBytes_sameOutside s.mem s.dst out).grow (Nat.le_of_eq hlen.symm)

/-! ### Bus errors -/

theorem ErrCode.eq_busError_of_number {code : ErrCode} : code.number = ErrCode.number .busError → code = .busError := by
  cases code <;> decide

/-- Settles O30: a command's error is honest about the address it names. -/
theorem busErrorReportsFaultingAddress : Obligations.BusErrorReportsFaultingAddress := by
  intro i s t hr h he hc
  rcases exec_cases_of_notRaced hr h with ⟨m, c, n, hn, rfl⟩ | ⟨out, aux, w, -, rfl⟩
  · obtain ⟨k, hk⟩ := hn (ErrCode.eq_busError_of_number hc)
    exact ⟨n, k, hk, rfl⟩
  · cases he

/-! ### The region checks -/

/-- Two ranges overlap when they share an address (20_memory R77). -/
theorem spansOverlap_iff_exists {r q : Span} :
    spansOverlap r q = true ↔ ∃ a, spanHas r a = true ∧ spanHas q a = true := by
  simp only [spansOverlap_iff, spanHas_iff]
  constructor
  · intro h
    exact ⟨max r.base q.base, by omega, by omega⟩
  · rintro ⟨a, h1, h2⟩
    omega

/-- The overlap rule is broken by a shared address, except in place (20_memory R77). -/
theorem State.overlapLegal_eq_false_iff (s : State) (u : DestUse) : s.overlapLegal u = false ↔
    (∃ a, spanHas s.srcSpan a = true ∧ spanHas (s.destSpan u) a = true) ∧ ¬(u = .cipher ∧ s.lDst = s.lSrc) := by
  have hcomm : (∃ a, spanHas s.srcSpan a = true ∧ spanHas (s.destSpan u) a = true) ↔
      spansOverlap (s.destSpan u) s.srcSpan = true := by
    simp only [spansOverlap_iff_exists, and_comm]
  rw [hcomm]
  cases u with
  | none => simp [State.overlapLegal, State.destSpan, spansOverlap]
  | cipher => simp [State.overlapLegal, State.dst, State.src, BitVec.toNat_inj, and_comm]
  | digest => simp [State.overlapLegal]
  | codec => simp [State.overlapLegal]

/-- A region error of a command that is not raced is reported, and nothing is written. -/
theorem exec_regionError {i : Instr} {s : State} {info : Nat} (hr : s.raced = false)
    (h : s.regionError (destUse i) = some info) :
    ∃ t, exec i s = .next t ∧ t.Failed .badRegion info ∧ t.mem = s.mem := by
  refine ⟨s.fail .badRegion info, ?_, s.fail_failed _ _, rfl⟩
  rw [exec_eq_runCommand]
  simp only [State.runCommand, h, State.failChecks_eq_fail hr]

/-- Settles O28: the three checks are the branches of `State.regionError`, in order. -/
theorem regionChecksInOrder : Obligations.RegionChecksInOrder := by
  intro i s hr wrapsSource wrapsDest shared inPlace badRegion
  have bad : ∀ info, s.regionError (destUse i) = some info → badRegion info := fun _ => exec_regionError hr
  have hdest : ((destUse i).hasDest && addrSpace < s.dst + s.dcap) = true ↔ wrapsDest := by
    rw [Bool.and_eq_true, decide_eq_true_iff]
    rfl
  have hover : (!s.overlapLegal (destUse i)) = true ↔ shared ∧ ¬inPlace := by
    rw [Bool.not_eq_true', State.overlapLegal_eq_false_iff]
  refine ⟨fun h0 => bad 0 (if_pos h0), fun h0 h1 => bad 1 ?_, fun h0 h1 h2 => bad 2 ?_, fun h0 h1 h2 => ?_⟩
  · exact (if_neg h0).trans (if_pos (hdest.2 h1))
  · exact (if_neg h0).trans ((if_neg (mt hdest.1 h1)).trans (if_pos (hover.2 h2)))
  · exact (if_neg h0).trans ((if_neg (mt hdest.1 h1)).trans (if_neg (mt hover.1 h2)))

/-! ### Regions that are no ordinary memory -/

/-- Errors of the checks write nothing, raced or not (20_memory R78). -/
theorem exec_checkError {i : Instr} {s : State} (h : s.regionError (destUse i) ≠ none ∨ ownChecks i s ≠ none) :
    ∃ t, exec i s = .next t ∧ t.mem = s.mem := by
  rw [exec_eq_runCommand]
  unfold State.runCommand
  cases hr : s.regionError (destUse i) with
  | some info => exact ⟨_, rfl, s.failChecks_mem _ _⟩
  | none =>
    cases ho : ownChecks i s with
    | some c => exact ⟨_, rfl, s.failChecks_mem _ _⟩
    | none => simp [hr, ho] at h

theorem exec_refused {i : Instr} {s : State} (hr : s.regionError (destUse i) = none) (ho : ownChecks i s = none)
    (hm : s.regionNotMemory (destUse i) = true) : exec i s = .refused .regionNotMemory := by
  rw [exec_eq_runCommand]
  simp only [State.runCommand, hr, ho, hm, if_true]

/-- The source region of a command that passes the region checks lies in the bus memory space (20_memory R76). -/
theorem State.srcSpan_le {s : State} {u : DestUse} (h : s.regionError u = none) : s.src + s.slen ≤ addrSpace := by
  unfold State.regionError at h
  split_ifs at h with h0
  exact Nat.le_of_not_lt h0

theorem State.lt_addrSpace_of_region {s : State} {u : DestUse} {a : Nat} (h : s.regionError u = none)
    (ha : spanHas s.srcSpan a = true ∨ spanHas (s.destRegion u) a = true) : a < addrSpace := by
  rcases ha with ha | ha
  · exact Nat.lt_of_lt_of_le (spanHas_iff.1 ha).2 (State.srcSpan_le h)
  · exact Nat.lt_of_lt_of_le (spanHas_iff.1 ha).2 (State.destRegion_le h)

theorem State.regionNotMemory_of_mem {s : State} {u : DestUse} {a : Nat} {r : Span}
    (hr : r ∈ regWindows s.cfg ++ s.cfg.devices) (hra : spanHas r a = true)
    (ha : spanHas s.srcSpan a = true ∨ spanHas (s.destRegion u) a = true) : s.regionNotMemory u = true := by
  refine List.any_eq_true.2 ⟨r, hr, Bool.or_eq_true_iff.2 ?_⟩
  exact ha.imp (fun h => spansOverlap_iff_exists.2 ⟨a, h, hra⟩) (fun h => spansOverlap_iff_exists.2 ⟨a, h, hra⟩)

/-- Settles O29: the address is in a span of the window or of a device, so the region overlaps that span. -/
theorem regionOverWindowIsRefused : Obligations.RegionOverWindowIsRefused := by
  intro i s a ha hwin
  refine ⟨fun hr ho => exec_refused hr ho ?_, exec_checkError⟩
  rcases hwin with hoff | ⟨r, hr', hra⟩
  · have hin : inWindow s.cfg a = true := (inWindow_iff s.cfg (State.lt_addrSpace_of_region hr ha)).2 hoff
    obtain ⟨r, hr', hra⟩ := List.any_eq_true.1 hin
    exact State.regionNotMemory_of_mem (List.mem_append_left _ hr') hra ha
  · exact State.regionNotMemory_of_mem (List.mem_append_right _ hr') hra ha

/-! ### Stores of other agents -/

theorem State.hitsDevice_eq_false {s : State} (h : s.cfg.devices = []) (a n : Nat) : s.hitsDevice a n = false := by
  simp [State.hitsDevice, h]

/-- The source region of a running legal command is guarded (70_reset R286). -/
theorem State.guarded_of_srcSpan {s : State} {i : Instr} {a : Nat} (hp : s.phase = .busy) (hd : decode s.lCmd = .ok i)
    (ha : spanHas s.srcSpan a = true) : s.guarded a = true := by
  simp [State.guarded, State.fetch, s.busy_iff.2 hp, hd, ha, Except.toBool]

/-- A one-byte store of another agent to ordinary memory. -/
theorem State.memWrite_singleton {s : State} {a : Nat} (b : Byte) (ha : a < addrSpace) (hw : inWindow s.cfg a = false)
    (hd : s.cfg.devices = []) :
    s.memWrite a [b] = .next { s with mem := Memory.write s.mem a b, raced := s.raced || s.guarded a } := by
  have hlen : ¬addrSpace < a + [b].length := Nat.not_lt.2 ha
  have hdev : ¬s.hitsDevice a [b].length = true := by simp [State.hitsDevice_eq_false hd]
  have hwin : ¬inWindow s.cfg a = true := by simp [hw]
  unfold State.memWrite
  rw [if_neg hlen, if_neg hdev, State.agentStoreBytes, State.agentStore, if_neg hwin, State.agentStoreBytes]

/-- Settles O32: the store is one to ordinary memory at a guarded address. -/
theorem storeIntoSourceWhileBusyRaces : Obligations.StoreIntoSourceWhileBusyRaces := by
  intro s i a b rest hp hd hi ha hlt hw hdev
  have hg : ({ s with inputs := rest } : State).guarded a = true := State.guarded_of_srcSpan hp hd ha
  rw [step_input hi]
  refine (State.memWrite_singleton (s := { s with inputs := rest }) b hlt hw hdev).trans ?_
  rw [hg, Bool.or_true]

end Sys2Proof.Machine
end

section
/-! 30_encoding: the decoder and the encoder agree. A word is its four fields; an instruction is its opcode and its two
option fields; decoding compares the one with the other. -/

namespace Sys2Proof.Machine

/-! ### The fields of a command word -/

theorem getLsbD_commandWord (op : BitVec 4) (le : Endian) (ovl : Bool) (k : Nat) :
    (commandWord op le ovl).getLsbD k =
      if k < 4 then op.getLsbD k else if k = 4 then le.bit else if k = 5 then ovl else false := by
  simp only [commandWord, BitVec.getLsbD_append, BitVec.getLsbD_ofBool, BitVec.getLsbD_zero]
  by_cases h4 : k < 4
  · rw [if_pos h4, if_pos h4]
  · obtain ⟨n, rfl⟩ : ∃ n, k = 4 + n := ⟨k - 4, by omega⟩
    match n with
    | 0 => simp
    | 1 => simp
    | n + 2 => simp; omega

theorem opField_commandWord (op : BitVec 4) (le : Endian) (ovl : Bool) : opField (commandWord op le ovl) = op :=
  BitVec.extractLsb'_append_eq_right

theorem leField_commandWord (op : BitVec 4) (le : Endian) (ovl : Bool) : leField (commandWord op le ovl) = le := by
  rw [leField, getLsbD_commandWord]
  cases le <;> rfl

theorem ovlField_commandWord (op : BitVec 4) (le : Endian) (ovl : Bool) : ovlField (commandWord op le ovl) = ovl :=
  getLsbD_commandWord op le ovl 5

theorem rsvField_commandWord (op : BitVec 4) (le : Endian) (ovl : Bool) : rsvField (commandWord op le ovl) = 0 := by
  refine BitVec.eq_of_getLsbD_eq fun k _ => ?_
  rw [rsvField, BitVec.getLsbD_extractLsb', getLsbD_commandWord,
    if_neg (by omega), if_neg (by omega), if_neg (by omega), Bool.and_false]
  exact BitVec.getLsbD_zero.symm

theorem bit_leField (w : Word) : (leField w).bit = w.getLsbD 4 := by
  unfold leField
  cases w.getLsbD 4 <;> rfl

/-- Where `RSV` is 0, no bit from 6 on is set. -/
theorem getLsbD_of_rsvField {w : Word} (h : rsvField w = 0) (k : Nat) : w.getLsbD (6 + k) = false := by
  by_cases hk : k < 26
  · have hb : (rsvField w).getLsbD k = false := by rw [h]; exact BitVec.getLsbD_zero
    simpa [rsvField, hk] using hb
  · exact BitVec.getLsbD_of_ge w _ (by omega)

/-- A word whose `RSV` is 0 is rebuilt from its other fields (30_encoding R90). -/
theorem commandWord_fields {w : Word} (h : rsvField w = 0) : commandWord (opField w) (leField w) (ovlField w) = w := by
  refine BitVec.eq_of_getLsbD_eq fun k _ => ?_
  rw [getLsbD_commandWord, bit_leField, ovlField]
  split_ifs with h4 he he
  · simp [opField, h4]
  · rw [he]
  · rw [he]
  · obtain ⟨n, rfl⟩ : ∃ n, k = 6 + n := ⟨k - 6, by omega⟩
    exact (getLsbD_of_rsvField h n).symm

/-- `OP` is the word modulo 16 (30_encoding R90). -/
theorem toNat_opField (w : Word) : (opField w).toNat = w.toNat % 16 := by
  simp [opField]

/-- `RSV` is the word divided by 64 (30_encoding R90). -/
theorem toNat_rsvField (w : Word) : (rsvField w).toNat = w.toNat / 64 := by
  have hw : w.toNat < 2 ^ 32 := w.isLt
  rw [rsvField, BitVec.extractLsb'_toNat, Nat.shiftRight_eq_div_pow]
  omega

/-! ### The decoder and the encoder by fields -/

/-- The opcode of a command (30_encoding R91). -/
def opcodeOf : Instr → BitVec 4
  | .desDecrypt _ _ => 1#4
  | .desEncrypt _ _ => 2#4
  | .verify _ _ => 3#4
  | .verifyAc1350 _ _ => 4#4
  | .digest _ _ => 5#4
  | .decompress _ _ => 6#4
  | .compress _ _ => 7#4

theorem encode_eq_commandWord (i : Instr) : encode i = commandWord (opcodeOf i) (optionsOf i).1 (optionsOf i).2 := by
  cases i <;> rfl

/-- A word decodes to `i` exactly when its `RSV` is 0 and its other fields are those of `i`. -/
theorem decode_eq_ok_iff {w : Word} {i : Instr} : decode w = .ok i ↔
    rsvField w = 0 ∧ opField w = opcodeOf i ∧ leField w = (optionsOf i).1 ∧ ovlField w = (optionsOf i).2 := by
  constructor
  · intro h
    unfold decode at h
    split at h
    · next hr =>
      split at h <;> cases h
      all_goals exact ⟨hr, BitVec.eq_of_toNat_eq ‹_›, rfl, rfl⟩
    · cases h
  · rintro ⟨hr, ho, hl, hv⟩
    unfold decode
    rw [if_pos hr, ho, hl, hv]
    cases i <;> rfl

/-- A word is refused exactly when `RSV` is not 0 or no command has its opcode (30_encoding R95). -/
theorem decode_eq_error_iff {w : Word} : (∃ e, decode w = .error e) ↔
    rsvField w ≠ 0 ∨ (opField w).toNat = 0 ∨ 8 ≤ (opField w).toNat := by
  unfold decode
  split
  · next hr =>
    split
    case h_8 =>
      have ho : (opField w).toNat = 0 ∨ 8 ≤ (opField w).toNat := by simp only [imp_false] at *; omega
      exact iff_of_true ⟨_, rfl⟩ (.inr ho)
    all_goals simp [*]
  · next hr => exact iff_of_true ⟨_, rfl⟩ (.inl hr)

/-- Settles O13: the word of an instruction has the instruction's fields. -/
theorem decodeOfEncodeIsInstruction : Obligations.DecodeOfEncodeIsInstruction := fun i => by
  rw [encode_eq_commandWord]
  exact decode_eq_ok_iff.2
    ⟨rsvField_commandWord _ _ _, opField_commandWord _ _ _, leField_commandWord _ _ _, ovlField_commandWord _ _ _⟩

/-- Settles O14: the instruction has the fields of the word, and the word is rebuilt from them. -/
theorem legalWordIsEncodingOfItsInstruction : Obligations.LegalWordIsEncodingOfItsInstruction := fun w i h => by
  obtain ⟨hr, ho, hl, hv⟩ := decode_eq_ok_iff.1 h
  rw [encode_eq_commandWord, ← ho, ← hl, ← hv, commandWord_fields hr]

/-- Settles O15: the two fields that decide, read as numbers. -/
theorem illegalWordsAreOpcodeOrReservedBits : Obligations.IllegalWordsAreOpcodeOrReservedBits := fun w => by
  have hr : rsvField w ≠ 0 ↔ w.toNat / 64 ≠ 0 := by
    rw [← toNat_rsvField]
    exact not_congr BitVec.toNat_inj.symm
  rw [decode_eq_error_iff, toNat_opField, hr]
  tauto

/-- Settles O16, by running the decoder on each word. -/
theorem exampleWordsDecode : Obligations.ExampleWordsDecode := by
  unfold Obligations.ExampleWordsDecode
  decide

/-! ### The step of a BUSY block -/

theorem State.engineStep_illegal {s : State} {e : DecodeError} (hp : s.phase = .busy) (hd : decode s.lCmd = .error e) :
    s.engineStep = .next (s.fail .badCommand s.lCmd.toNat) := by
  simp only [State.engineStep, State.fetch, hp, hd]

theorem State.engineStep_legal {s : State} {i : Instr} (hp : s.phase = .busy) (hd : decode s.lCmd = .ok i) :
    s.engineStep = exec i s := by
  simp only [State.engineStep, State.fetch, hp, hd]

/-- Settles O17: the block's own step is the error completion, and the number of `lCMD` as a word is `lCMD`. -/
theorem illegalWordEndsWithBadCommand : Obligations.IllegalWordEndsWithBadCommand := by
  intro s hp hi hw
  obtain ⟨e, hd⟩ := (illegalWordsAreOpcodeOrReservedBits s.lCmd).2 hw
  rw [step_noInput hi, State.engineStep_illegal hp hd]
  simp only [State.fail, BitVec.ofNat_toNat, BitVec.setWidth_eq]
  rfl

/-- Settles O18: with no input or with input `engine`, a step is the block's own. -/
theorem stepRunsDecodedInstruction : Obligations.StepRunsDecodedInstruction := by
  intro s i hp hd
  refine ⟨fun hi => ?_, fun rest hi => ?_⟩
  · rw [step_noInput hi, State.engineStep_legal hp hd]
  · rw [step_input hi]
    exact State.engineStep_legal (s := { s with inputs := rest }) hp hd

/-- Settles O20: the shared shape of the commands has these fields nowhere. -/
theorem unusedOptionFieldsAreIgnored : Obligations.UnusedOptionFieldsAreIgnored := by
  intro s le le' ovl ovl'
  simp only [exec_eq_runCommand]
  exact ⟨rfl, rfl, rfl, rfl, rfl, rfl⟩

end Sys2Proof.Machine
end

section
/-! 40_cipher: what the two cipher commands complete with, their own checks in order (R131), and R139, decryption after
encryption. Both commands are one argument with a block function; ECB undoes itself block by block. -/

namespace Sys2Proof.Machine

/-! ### A command that stores its output, and one that its own checks end -/

/-- A ready command without an error of its own that stores the `n` bytes `out` succeeds, as a host sees it. -/
theorem State.runCommand_done {s : State} {u : DestUse} {out : List Byte} {n len aux : Nat} {work : Work}
    (h : s.Ready u) (hn : out.length = n) :
    ∃ t, s.runCommand u none (.done out len aux work) = .next t ∧ t.Succeeded len aux ∧ s.SameOperands t ∧
      Memory.readBytes t.mem s.dst n = out ∧ sameOutside s.mem t.mem ⟨s.dst, n⟩ := by
  subst hn
  exact ⟨_, (State.runCommand_ready _ h.regions h.ordinary).trans (State.complete_done out len aux work h.notRaced),
    s.stored_facts out len aux work⟩

/-- A command that is not raced, with legal regions, ends with the error that its own checks find. -/
theorem exec_ownCheck {i : Instr} {s : State} {code : ErrCode} {info : Nat} (hr : s.raced = false)
    (h : s.regionError (destUse i) = none) (ho : ownChecks i s = some (code, info)) :
    ∃ t, exec i s = .next t ∧ t.Failed code info ∧ t.mem = s.mem := by
  refine ⟨s.fail code info, ?_, s.fail_failed _ _, rfl⟩
  rw [exec_eq_runCommand, ho, State.runCommand_check _ hr h]

/-! ### The checks of a cipher command (40_cipher R131) -/

theorem cipherChecks_invalidSize {s : State} (d : Bool) (h : s.slen % 8 ≠ 0) :
    cipherChecks s d = some (.invalidSize, s.slen) :=
  if_pos h

theorem cipherChecks_decryptionFailure {s : State} (h : s.slen = 0) :
    cipherChecks s true = some (.decryptionFailure, 0) := by
  simp [cipherChecks, h]

/-- Past the checks on the length alone, the check of the capacity is left. -/
theorem cipherChecks_of_multiple {s : State} (d : Bool) (h8 : s.slen % 8 = 0) (hd : d = true → 0 < s.slen) :
    cipherChecks s d = if s.dcap < s.slen then some (.dstOverflow, s.slen) else none := by
  have hlen : (d && s.slen == 0) = false := by
    cases d with
    | false => rfl
    | true => exact beq_false_of_ne (hd rfl).ne'
  simp [cipherChecks, h8, hlen]

/-- Settles O38: each clause is one branch of `cipherChecks`, the earlier ones passed. -/
theorem cipherChecksInOrder : Obligations.CipherChecksInOrder := by
  intro s le ovl hr hreg fails enc dec
  refine ⟨fun h8 => ⟨?_, ?_⟩, fun h0 => ?_, fun h8 hc => ⟨?_, ?_⟩⟩
  · exact exec_ownCheck hr hreg (cipherChecks_invalidSize false h8)
  · exact exec_ownCheck hr hreg (cipherChecks_invalidSize true h8)
  · exact exec_ownCheck hr hreg (cipherChecks_decryptionFailure h0)
  · exact exec_ownCheck hr hreg ((cipherChecks_of_multiple false h8 nofun).trans (if_pos hc))
  · exact exec_ownCheck hr hreg ((cipherChecks_of_multiple true h8 fun _ => Nat.zero_lt_of_lt hc).trans (if_pos hc))

/-! ### The execution of a cipher command (40_cipher R132) -/

/-- A ready cipher command meets no access that is not served, so it stores the ECB image of its source. -/
theorem cipherBody_ready {s : State} (f : BitVec 64 → BitVec 64 → BitVec 64) (h : s.Ready .cipher)
    (hc : s.slen ≤ s.dcap) : cipherBody s f =
      .done (ecb (f s.cfg.desKey) (s.slen / 8) s.srcBytes) s.slen 0 { s.work with block := s.slen / 8 } := by
  have hserved : anyStop s.cfg s.draws (cipherAccesses s) = none := by
    refine (anyStop_eq_none _ _ _).2 fun x hx => ?_
    rcases List.mem_append.1 hx with hread | hwrite
    · exact h.reads 0 s.slen (by omega) x hread
    · exact h.writes rfl s.slen hc x hwrite
  simp only [cipherBody, hserved]

/-- A ready cipher command on whole blocks that fit replaces `lSLEN` destination bytes by the ECB image of its source. -/
theorem State.runCommand_cipher {s : State} (d : Bool) (f : BitVec 64 → BitVec 64 → BitVec 64) (h : s.Ready .cipher)
    (h8 : s.slen % 8 = 0) (hd : d = true → 0 < s.slen) (hc : s.slen ≤ s.dcap) :
    ∃ t, s.runCommand .cipher (cipherChecks s d) (cipherBody s f) = .next t ∧ t.Succeeded s.slen 0 ∧
      s.SameOperands t ∧ Memory.readBytes t.mem s.dst s.slen = ecb (f s.cfg.desKey) (s.slen / 8) s.srcBytes ∧
      sameOutside s.mem t.mem ⟨s.dst, s.slen⟩ := by
  have hlen : (ecb (f s.cfg.desKey) (s.slen / 8) s.srcBytes).length = s.slen := by
    rw [length_ecb, Nat.mul_div_cancel' (Nat.dvd_of_mod_eq_zero h8)]
  rw [cipherChecks_of_multiple d h8 hd, if_neg (Nat.not_lt.2 hc), cipherBody_ready f h hc]
  exact State.runCommand_done h hlen

/-- Settles O36: encryption has no check on an empty source, so the length may be 0. -/
theorem desEncryptCompletesWithCiphertext : Obligations.DesEncryptCompletesWithCiphertext := by
  intro s le ovl h h8 hc
  rw [exec_eq_runCommand]
  exact State.runCommand_cipher false desEncryptBlock h h8 nofun hc

/-- Settles O37: a positive length passes the one check that decryption has and encryption has not. -/
theorem desDecryptCompletesWithPlaintext : Obligations.DesDecryptCompletesWithPlaintext := by
  intro s le ovl h h8 hpos hc
  rw [exec_eq_runCommand]
  exact State.runCommand_cipher true desDecryptBlock h h8 (fun _ => hpos) hc

/-! ### Blocks and their bytes (00_scope R12) -/

/-- The eight base-256 digits of a 64-bit number give it back. -/
theorem blockOfBytes_bytesOfBlock (x : BitVec 64) : blockOfBytes (bytesOfBlock x) = x := by
  apply BitVec.eq_of_toNat_eq
  simp only [blockOfBytes, bytesOfBlock, List.cons_append, List.nil_append, List.foldl_cons, List.foldl_nil,
    BitVec.extractLsb'_toNat, BitVec.toNat_ofNat, Nat.shiftRight_eq_div_pow]
  omega

/-- The base-256 digits of the number that eight bytes write are these bytes. -/
theorem bytesOfBlock_blockOfBytes {b : List Byte} (h : b.length = 8) : bytesOfBlock (blockOfBytes b) = b := by
  match b, h with
  | [b0, b1, b2, b3, b4, b5, b6, b7], _ =>
    simp only [blockOfBytes, bytesOfBlock, List.cons_append, List.nil_append, List.foldl_cons, List.foldl_nil,
      List.cons.injEq, and_true, ← BitVec.toNat_inj, BitVec.extractLsb'_toNat, BitVec.toNat_ofNat,
      Nat.shiftRight_eq_div_pow]
    omega

/-- ECB under `g` undoes ECB under `f` on whole blocks where `g` undoes `f` on one block. -/
theorem ecb_ecb {f g : BitVec 64 → BitVec 64} (hgf : ∀ x, g (f x) = x) (m : Nat) {b : List Byte}
    (hb : b.length = 8 * m) : ecb g m (ecb f m b) = b := by
  induction m generalizing b with
  | zero => exact (List.eq_nil_of_length_eq_zero hb).symm
  | succ m ih =>
    have hblock : (b.take 8).length = 8 := by rw [List.length_take]; omega
    have hrest : (b.drop 8).length = 8 * m := by rw [List.length_drop]; omega
    calc ecb g (m + 1) (ecb f (m + 1) b)
        = bytesOfBlock (g (f (blockOfBytes (b.take 8)))) ++ ecb g m (ecb f m (b.drop 8)) := by
          simp only [ecb, desBlock, List.take_left' (length_bytesOfBlock _), List.drop_left' (length_bytesOfBlock _),
            blockOfBytes_bytesOfBlock]
      _ = b.take 8 ++ b.drop 8 := by rw [hgf, bytesOfBlock_blockOfBytes hblock, ih hrest]
      _ = b := List.take_append_drop 8 b

/-- Settles O39: the two completions (R136, R133), and ECB decryption that undoes ECB encryption under one key. -/
theorem decryptOfEncryptRestoresBytes : Obligations.DecryptOfEncryptRestoresBytes := by
  intro s s' t le le' ovl ovl' h hpos h8 hc ht h' hkey hlen hc' hsrc
  have hslen : s'.slen = s.slen := congrArg BitVec.toNat hlen
  obtain ⟨t', ht', -, -, hcipher, -⟩ := desEncryptCompletesWithCiphertext s le ovl h h8 hc
  obtain rfl : t = t' := by simpa only [ht, Host.Outcome.next.injEq] using ht'
  obtain ⟨u, hu, hdone, -, hplain, -⟩ :=
    desDecryptCompletesWithPlaintext s' le' ovl' h' (hslen ▸ h8) (hslen ▸ hpos) hc'
  rw [hslen] at hdone hplain
  refine ⟨u, hu, hdone, ?_⟩
  rw [hplain, hsrc, hcipher, hkey]
  refine ecb_ecb (desDecryptionInvertsEncryption s.cfg.desKey) _ ?_
  rw [length_srcBytes, Nat.mul_div_cancel' (Nat.dvd_of_mod_eq_zero h8)]

end Sys2Proof.Machine
end

section
/-! 41_integrity: VERIFY, VERIFY_AC1350 and DIGEST. The two verify commands have no destination, so they store nothing
(R152, R157); what they answer turns on the trailing-length probe (R151) and on the recorded region (R156). -/

namespace Sys2Proof.Machine

/-- Settles O41: a digest is four 32-bit words. -/
theorem digestIsSixteenBytes : Obligations.DigestIsSixteenBytes := fun _ => length_md5Bytes _

/-! ### Commands without a destination -/

theorem State.freeDest_eq_nil {s : State} (h : s.dcap = 0) : s.freeDest = [] := by
  rw [← List.length_eq_zero_iff, State.length_freeDest, h, Nat.zero_min]

/-- A command without a destination leaves memory the same data (20_memory R78): a destination region drawn after an
error is empty, and so are the bytes a success stores. -/
theorem exec_mem_of_noDest {i : Instr} {s t : State} (hu : (destUse i).hasDest = false) (h : exec i s = .next t) :
    t.mem = s.mem := by
  have hsize : (s.destRegion (destUse i)).size = 0 := by simp [State.destRegion, hu]
  rcases exec_cases h with ⟨c, n, -, rfl⟩ | ⟨-, -, rfl⟩ | ⟨-, -, c, n, -, rfl | ⟨hd, rfl⟩⟩ |
    ⟨-, -, out, aux, w, hl, -, rfl⟩
  · exact s.failChecks_mem c n
  · rw [hu]; rfl
  · rfl
  · change Memory.writeBytes s.mem s.dst s.freeDest = s.mem
    rw [State.freeDest_eq_nil (hd.symm.trans hsize), Memory.writeBytes]
  · obtain rfl : out = [] := List.eq_nil_of_length_eq_zero (Nat.le_zero.1 (hsize ▸ hl))
    rfl

/-- Settles O27: neither verify command has a destination. -/
theorem verifyCommandsWriteNoMemory : Obligations.VerifyCommandsWriteNoMemory :=
  fun _ _ _ _ => ⟨exec_mem_of_noDest rfl, exec_mem_of_noDest rfl⟩

/-- A ready command without an error of its own that has no bytes to store succeeds, memory unchanged. -/
theorem exec_accepts {i : Instr} {s : State} {len aux : Nat} {work : Work} (h : s.Ready (destUse i))
    (ho : ownChecks i s = none) (hb : bodyOf s i = .done [] len aux work) :
    ∃ t, exec i s = .next t ∧ t.Succeeded len aux ∧ t.mem = s.mem := by
  refine ⟨({ s with work := work } : State).succeed len aux, ?_, State.succeed_succeeded _ _ _, rfl⟩
  rw [exec_eq_runCommand, ho, hb, State.runCommand_ready _ h.regions h.ordinary, State.complete_done _ _ _ _ h.notRaced]
  rfl

/-- A ready command without an error of its own checks that ends with an error before any destination write reports it,
memory unchanged. -/
theorem exec_rejects {i : Instr} {s : State} {code : ErrCode} {info : Nat} (h : s.Ready (destUse i))
    (ho : ownChecks i s = none) (hb : bodyOf s i = .stopped (.error code info) false) :
    ∃ t, exec i s = .next t ∧ t.Failed code info ∧ t.mem = s.mem := by
  refine ⟨s.fail code info, ?_, s.fail_failed _ _, rfl⟩
  rw [exec_eq_runCommand, ho, hb, State.runCommand_ready _ h.regions h.ordinary, State.complete_clean _ _ h.notRaced]

/-! ### The checks that read no memory (R153, R155, R160) -/

/-- Settles O43: both errors come from the commands' own checks on the length. -/
theorem shortBuffersDoNotVerify : Obligations.ShortBuffersDoNotVerify := fun _ _ _ hr hreg =>
  ⟨fun hn => exec_ownCheck hr hreg (if_pos hn), fun hn => exec_ownCheck hr hreg (if_pos hn)⟩

/-- Settles O47: the error comes from the command's own check on the capacity. -/
theorem digestNeedsSixteenBytes : Obligations.DigestNeedsSixteenBytes := fun _ _ _ hr hreg hc =>
  exec_ownCheck hr hreg (if_pos hc)

/-! ### The trailing-length probe (R151) -/

/-- Candidate `i` of the probe is long enough for the digest, and its region has the stored digest (R151). -/
abbrev Candidate (src : List Byte) (i : Nat) : Prop :=
  i + digestLen ≤ src.length ∧ md5 (slice src digestLen (src.length - i)) = src.take digestLen

/-- The probe is a search for the first match. -/
theorem probeTrailing_eq_find? (src : List Byte) (fuel i : Nat) :
    probeTrailing src fuel i = (List.range' i fuel).find? fun j => decide (Candidate src j) := by
  induction fuel generalizing i with
  | zero => rfl
  | succ fuel ih =>
    rw [probeTrailing, ih, List.range'_succ, List.find?_cons]
    by_cases hit : Candidate src i
    · rw [if_pos hit, decide_eq_true hit]
    · rw [if_neg hit, decide_eq_false hit]

theorem probeTrailing_eq_none_iff {src : List Byte} {fuel i : Nat} :
    probeTrailing src fuel i = none ↔ ∀ j, i ≤ j → j < i + fuel → ¬Candidate src j := by
  rw [probeTrailing_eq_find?, List.find?_range'_eq_none]
  simp only [Bool.not_eq_true', decide_eq_false_iff_not]

/-- What the probe answers is the first match. -/
theorem probeTrailing_some {src : List Byte} {fuel i k : Nat} (h : probeTrailing src fuel i = some k) :
    Candidate src k ∧ ∀ j, i ≤ j → j < k → ¬Candidate src j := by
  rw [probeTrailing_eq_find?, List.find?_range'_eq_some] at h
  simp only [Bool.not_eq_true', decide_eq_false_iff_not, decide_eq_true_iff] at h
  obtain ⟨hk, -, hfirst⟩ := h
  exact ⟨hk, hfirst⟩

/-- Where some candidate matches, the probe finds a match no later than it. -/
theorem probeTrailing_of_candidate {src : List Byte} {fuel p : Nat} (hp : p < fuel) (h : Candidate src p) :
    ∃ k ≤ p, probeTrailing src fuel 0 = some k ∧ Candidate src k := by
  cases hprobe : probeTrailing src fuel 0 with
  | none => exact absurd h (probeTrailing_eq_none_iff.1 hprobe p (Nat.zero_le p) (by omega))
  | some k =>
    obtain ⟨hk, hfirst⟩ := probeTrailing_some hprobe
    exact ⟨k, Nat.le_of_not_lt fun hlt => hfirst p (Nat.zero_le p) hlt h, rfl, hk⟩

/-! ### VERIFY (R151, R152) -/

/-- The reads of the whole source of a ready command are served, in whatever order. -/
theorem State.Ready.source {s : State} {u : DestUse} (h : s.Ready u) :
    anyStop s.cfg s.draws (accesses .read s.src s.slen) = none :=
  (anyStop_eq_none _ _ _).2 (h.reads 0 s.slen (by omega))

theorem verifyBody_of_probe_some {s : State} {i : Nat} (h : s.Ready .none)
    (hp : probeTrailing s.srcBytes probeMax 0 = some i) :
    verifyBody s = .done [] 0 i { s.work with probe := i } := by
  simp only [verifyBody, h.source, hp]

theorem verifyBody_of_probe_none {s : State} (h : s.Ready .none) (hp : probeTrailing s.srcBytes probeMax 0 = none) :
    verifyBody s = .stopped (.error .integrityMismatch 0) false := by
  simp only [verifyBody, h.source, hp]

theorem exec_verify_of_probe_some {s : State} {le : Endian} {ovl : Bool} {i : Nat} (h : s.Ready .none)
    (hn : 16 ≤ s.slen) (hp : probeTrailing s.srcBytes probeMax 0 = some i) :
    ∃ t, exec (.verify le ovl) s = .next t ∧ t.Succeeded 0 i ∧ t.mem = s.mem :=
  exec_accepts h (if_neg (Nat.not_lt.2 hn)) (verifyBody_of_probe_some h hp)

theorem exec_verify_of_probe_none {s : State} {le : Endian} {ovl : Bool} (h : s.Ready .none) (hn : 16 ≤ s.slen)
    (hp : probeTrailing s.srcBytes probeMax 0 = none) :
    ∃ t, exec (.verify le ovl) s = .next t ∧ t.Failed .integrityMismatch 0 ∧ t.mem = s.mem :=
  exec_rejects h (if_neg (Nat.not_lt.2 hn)) (verifyBody_of_probe_none h hp)

/-- Settles O42: the obligation's `hit` is `Candidate`, and the probe finds the first of them. -/
theorem verifyAcceptsFirstCandidate : Obligations.VerifyAcceptsFirstCandidate := by
  intro s le ovl h hn src hit
  have hiff : ∀ i, hit i ↔ Candidate src i := by
    intro i
    rw [Candidate, show src.length = s.slen from length_srcBytes s]
    rfl
  simp only [hiff]
  refine ⟨fun i hi hc hfirst => ?_, fun hnone => ?_⟩
  · obtain ⟨k, hk, hprobe, hck⟩ := probeTrailing_of_candidate (fuel := probeMax) hi hc
    obtain rfl : k = i := Nat.le_antisymm hk (Nat.le_of_not_lt fun hlt => hfirst k hlt hck)
    exact exec_verify_of_probe_some h hn hprobe
  · exact exec_verify_of_probe_none h hn (probeTrailing_eq_none_iff.2 fun j _ hj => hnone j (by omega))

/-- Behind a stored digest `d`, dropping `i` of `p` trailing zero bytes leaves the other `p - i`. -/
theorem slice_digest_trailing {d c : List Byte} {i p : Nat} (hd : d.length = 16) (hi : i ≤ p) :
    slice (d ++ c ++ List.replicate p 0) 16 ((d ++ c ++ List.replicate p 0).length - i) =
      c ++ List.replicate (p - i) 0 := by
  have hlen : (d ++ c ++ List.replicate p 0).length - i - 16 = c.length + (p - i) := by
    simp only [List.length_append, List.length_replicate]
    omega
  rw [slice, hlen, List.append_assoc, List.drop_left' hd, List.take_length_add_append, List.take_replicate,
    Nat.min_eq_left (Nat.sub_le p i)]

/-- A candidate among the trailing zeros matches exactly when its region has the digest of the bytes before them. -/
theorem candidate_trailing_iff {c : List Byte} {i p : Nat} (hi : i ≤ p) :
    Candidate (md5 c ++ c ++ List.replicate p 0) i ↔ md5 (c ++ List.replicate (p - i) 0) = md5 c := by
  have hd : (md5 c).length = 16 := digestIsSixteenBytes c
  have hlong : i + 16 ≤ (md5 c ++ c ++ List.replicate p 0).length := by
    simp only [List.length_append, List.length_replicate, hd]
    omega
  rw [Candidate, and_iff_right hlong, slice_digest_trailing hd hi, List.append_assoc, List.take_left' hd]

/-- Settles O44: candidate `p` matches, so the probe finds one no later than it, a collision if it is an earlier one. -/
theorem verifyToleratesTrailingZeros : Obligations.VerifyToleratesTrailingZeros := by
  intro s le ovl c p h hp hsrc
  have hlen : 16 ≤ s.slen := by
    rw [← length_srcBytes, hsrc]
    simp only [List.length_append, digestIsSixteenBytes c]
    omega
  have hcand : Candidate s.srcBytes p := by
    rw [hsrc, candidate_trailing_iff (Nat.le_refl p), Nat.sub_self, List.replicate_zero, List.append_nil]
  obtain ⟨i, hi, hprobe, hci⟩ := probeTrailing_of_candidate (fuel := probeMax) (Nat.lt_succ_of_le hp) hcand
  obtain ⟨t, ht, hs, -⟩ := exec_verify_of_probe_some (le := le) (ovl := ovl) h hlen hprobe
  rw [hsrc, candidate_trailing_iff hi] at hci
  exact ⟨t, i, ht, hs, hi, hci⟩

/-! ### VERIFY_AC1350 (R156, R157) -/

/-- The recorded end of the covered region is in the buffer, and the region up to it has the stored digest (R156). -/
def Recorded (s : State) (stop : Nat) : Prop :=
  20 ≤ stop ∧ stop ≤ s.slen ∧ md5 (slice s.srcBytes 20 stop) = s.srcBytes.take digestLen

/-- The length field of a ready VERIFY_AC1350 of at least 20 bytes can be read. -/
theorem State.Ready.lengthField {s : State} {u : DestUse} (h : s.Ready u) (hn : 20 ≤ s.slen) (e : Endian) :
    valueStop s.cfg s.draws e (s.src + 16) 2 = none :=
  (valueStop_eq_none _ _ _ _ _).2 fun b h1 h2 => h.read b (by omega) (by omega)

/-- A covered region inside the source of a ready command can be read, and so can the stored digest. -/
theorem State.Ready.coveredRegion {s : State} {u : DestUse} {stop : Nat} (h : s.Ready u) (h20 : 20 ≤ stop)
    (hle : stop ≤ s.slen) :
    anyStop s.cfg s.draws (accesses .read (s.src + 20) (stop - 20) ++ accesses .read s.src digestLen) = none := by
  refine (anyStop_eq_none _ _ _).2 fun x hx => ?_
  rcases List.mem_append.1 hx with hregion | hdigest
  · exact h.reads 20 (stop - 20) (by omega) x hregion
  · exact h.reads 0 16 (by omega) x hdigest

theorem ac1350Body_accepted {s : State} {e : Endian} (h : s.Ready .none) (hn : 20 ≤ s.slen)
    (hr : Recorded s (regionEndOf s.cfg (get16 s.srcBytes 16 e))) :
    ac1350Body s e = .done [] 0 (get16 s.srcBytes 16 e) { s.work with acLen := get16 s.srcBytes 16 e } := by
  obtain ⟨h20, hle, hmd5⟩ := hr
  simp only [ac1350Body, h.lengthField hn e]
  rw [if_neg (by omega), h.coveredRegion h20 hle]
  exact if_pos hmd5

theorem ac1350Body_rejected {s : State} {e : Endian} (h : s.Ready .none) (hn : 20 ≤ s.slen)
    (hr : ¬Recorded s (regionEndOf s.cfg (get16 s.srcBytes 16 e))) :
    ac1350Body s e = .stopped (.error .integrityMismatch (get16 s.srcBytes 16 e)) false := by
  simp only [ac1350Body, h.lengthField hn e]
  split
  · rfl
  · next hbound =>
    have h20 : 20 ≤ regionEndOf s.cfg (get16 s.srcBytes 16 e) := by omega
    have hle : regionEndOf s.cfg (get16 s.srcBytes 16 e) ≤ s.slen := by omega
    rw [h.coveredRegion h20 hle]
    exact if_neg fun hmd5 => hr ⟨h20, hle, hmd5⟩

/-- Settles O45: the obligation's end and acceptance are `regionEndOf` and `Recorded`. -/
theorem ac1350ChecksRecordedRegion : Obligations.Ac1350ChecksRecordedRegion := by
  intro s le ovl h hn src len stop accepted
  have hchecks : ownChecks (.verifyAc1350 le ovl) s = none := if_neg (Nat.not_lt.2 hn)
  exact ⟨fun ha => exec_accepts h hchecks (ac1350Body_accepted h hn ha),
    fun ha => exec_rejects h hchecks (ac1350Body_rejected h hn ha)⟩

/-! ### DIGEST (R160, R161) -/

/-- A ready DIGEST meets no access that is not served, so it stores the MD5 of its source. -/
theorem digestBody_ready {s : State} (h : s.Ready .digest) (hc : 16 ≤ s.dcap) :
    digestBody s = .done (md5 s.srcBytes) 16 0 { s.work with md5 := md5State s.srcBytes } := by
  have hwrites : anyStop s.cfg s.draws (accesses .write s.dst digestLen) = none :=
    (anyStop_eq_none _ _ _).2 (h.writes rfl digestLen hc)
  simp only [digestBody, h.source, hwrites, md5]

/-- Settles O46: the digest is sixteen bytes (R150), stored whole. -/
theorem digestCompletesWithMd5 : Obligations.DigestCompletesWithMd5 := by
  intro s le ovl h hc
  have hchecks : ownChecks (.digest le ovl) s = none := if_neg (Nat.not_lt.2 hc)
  have hbody : bodyOf s (.digest le ovl) = .done (md5 s.srcBytes) 16 0 { s.work with md5 := md5State s.srcBytes } :=
    digestBody_ready h hc
  rw [exec_eq_runCommand, hchecks, hbody]
  exact State.runCommand_done h (digestIsSixteenBytes s.srcBytes)

end Sys2Proof.Machine
end

section
/-! 42_codec, DECOMPRESS: its checking phase (R174), its code `dict_ld` (R173) and its match copy (R182), each said of the
primitive itself and carried to the command by the shape that every command shares. -/

namespace Sys2Proof.Machine

/-! ### A command that stores its output, and one that stops after a destination write -/

/-- A ready command without an error of its own checks that stores `out` succeeds, as a host sees it. -/
theorem exec_stores {i : Instr} {s : State} {out : List Byte} {len aux : Nat} {work : Work} (h : s.Ready (destUse i))
    (ho : ownChecks i s = none) (hb : bodyOf s i = .done out len aux work) :
    ∃ t, exec i s = .next t ∧ t.Succeeded len aux ∧ s.SameOperands t ∧
      Memory.readBytes t.mem s.dst out.length = out ∧ sameOutside s.mem t.mem ⟨s.dst, out.length⟩ := by
  rw [exec_eq_runCommand, ho, hb]
  exact State.runCommand_done h rfl

/-- A ready command without an error of its own checks that ends with an error after a destination write reports it, and no
byte outside the destination region changes (20_memory R78). -/
theorem exec_stops {i : Instr} {s : State} {code : ErrCode} {info : Nat} (h : s.Ready (destUse i))
    (ho : ownChecks i s = none) (hb : bodyOf s i = .stopped (.error code info) true) :
    ∃ t, exec i s = .next t ∧ t.Failed code info ∧ sameOutside s.mem t.mem ⟨s.dst, s.dcap⟩ := by
  refine ⟨s.scramble.fail code info, ?_, State.fail_failed _ _ _, s.scramble_sameOutside⟩
  rw [exec_eq_runCommand, ho, hb, State.runCommand_ready _ h.regions h.ordinary]
  simp [State.complete, h.notRaced]

/-! ### The bus serves a decompression -/

/-- The bus serves every source byte of the job and every access to its first `n` output bytes. -/
structure DecJob.Served (j : DecJob) (n : Nat) : Prop where
  read : ∀ i < j.src.length, busStop j.cfg (j.lSrc + i) .read = none
  dest : ∀ i < n, ∀ k, busStop j.cfg (j.lDst + i) k = none

theorem State.Ready.decJob_served {s : State} (h : s.Ready .codec) (e : Endian) : (s.decJob e).Served s.dcap where
  read i hi := h.read (s.src + i) (by omega) (by simp only [State.decJob, length_srcBytes] at hi; omega)
  dest i hi k := h.dest rfl (s.dst + i) k (by omega) (by omega)

theorem DecJob.Served.mono {j : DecJob} {n m : Nat} (h : j.Served n) (hm : m ≤ n) : j.Served m :=
  ⟨h.read, fun i hi => h.dest i (Nat.lt_of_lt_of_le hi hm)⟩

/-- A value that lies inside the source can be read, in either byte order. -/
theorem DecJob.Served.value {j : DecJob} {n o k : Nat} (h : j.Served n) (hk : o + k ≤ j.src.length) :
    valueStop j.cfg j.draw j.e (j.lSrc + o) k = none := by
  refine (valueStop_eq_none _ _ _ _ _).2 fun b h1 h2 => ?_
  obtain ⟨i, rfl⟩ := Nat.exists_eq_add_of_le (show j.lSrc ≤ b by omega)
  exact h.read i (by omega)

/-- An access to an output byte goes through. -/
theorem DecJob.Served.access {j : DecJob} {n i : Nat} (h : j.Served n) (hi : i < n) (k : AccessKind) :
    j.access (j.lDst + i) k = .ok () :=
  DecJob.access_ok.2 (h.dest i hi k)

/-! ### The checking phase (R174) -/

/-- The first source byte past the end is `SRC_UNDERRUN` (R170). -/
theorem getByte_underrun {j : DecJob} {w : DecState} (h : j.src.length ≤ w.s) :
    getByte j w = .error (.error .srcUnderrun w.s) := if_pos h

/-- A source byte of a served job (R170). -/
theorem DecJob.Served.getByte {j : DecJob} {n : Nat} {w : DecState} (h : j.Served n) (hs : w.s < j.src.length) :
    getByte j w = .ok (byteAt j.src w.s, { w with s := w.s + 1 }) := by
  rw [Machine.getByte, if_neg (Nat.not_le.2 hs), DecJob.access_ok.2 (h.read w.s hs)]
  rfl

/-- The checks on the header's size, once the four header bytes are there (R174 steps 3 to 6). -/
theorem DecJob.Served.decHeader {j : DecJob} {n : Nat} (h : j.Served n) (h4 : 4 ≤ j.src.length) (cap : Nat) :
    decHeader j cap =
      if get32 j.src 0 j.e = 0 then .error (.error .badLength 0)
      else if cap < get32 j.src 0 j.e then .error (.error .dstOverflow (get32 j.src 0 j.e))
      else Machine.getByte j { s := 4, d := 0, win := 0, cnt := 0, acc := 1, size := get32 j.src 0 j.e } := by
  have hv : valueStop j.cfg j.draw j.e j.lSrc 4 = none := h.value (o := 0) (by omega)
  simp only [Machine.decHeader, hv]

theorem decompressBody_of_header_error {s : State} {e : Endian} {st : Stop}
    (h : decHeader (s.decJob e) s.dcap = .error st) : decompressBody s e = .stopped st false := by
  simp only [decompressBody, h]

theorem decompressBody_of_write_error {s : State} {e : Endian} {st : Stop} {b : Byte} {w : DecState}
    (h : decHeader (s.decJob e) s.dcap = .ok (b, w)) (hw : decWrite (s.decJob e) b w = .error st) :
    decompressBody s e = .stopped st true := by
  simp only [decompressBody, h, hw]

theorem decompressBody_of_write_ok {s : State} {e : Endian} {out : List Byte} {b : Byte} {w w' : DecState}
    (h : decHeader (s.decJob e) s.dcap = .ok (b, w)) (hw : decWrite (s.decJob e) b w = .ok (out, w')) :
    decompressBody s e = .done out w'.size w'.s { s.work with dec := w' } := by
  simp only [decompressBody, h, hw]

/-- The command's own check passes where the header is complete (R174 step 2). -/
theorem decompressChecks_none {s : State} (h : 4 ≤ s.slen) : decompressChecks s = none := if_neg (Nat.not_lt.2 h)

/-- Settles O48: the length is the command's own check; the others are the header's, before any write. -/
theorem decompressChecksInOrder : Obligations.DecompressChecksInOrder := by
  intro s le ovl h size fails
  have hheader : 4 ≤ s.slen → decHeader (s.decJob le) s.dcap = if size = 0 then .error (.error .badLength 0)
      else if s.dcap < size then .error (.error .dstOverflow size)
      else getByte (s.decJob le) { s := 4, d := 0, win := 0, cnt := 0, acc := 1, size := size } := fun h4 =>
    (h.decJob_served le).decHeader (by rw [State.decJob, length_srcBytes]; exact h4) s.dcap
  have hfails : ∀ code info, 4 ≤ s.slen → decHeader (s.decJob le) s.dcap = .error (.error code info) →
      fails code info := fun code info h4 he =>
    exec_rejects h (decompressChecks_none h4) (decompressBody_of_header_error he)
  refine ⟨fun hn => exec_ownCheck h.notRaced h.regions (if_pos hn), fun h4 h0 => hfails _ _ h4 ?_,
    fun h4 hc => hfails _ _ h4 ?_, fun h4 h0 hc => hfails _ _ (Nat.le_of_eq h4.symm) ?_⟩
  · rw [hheader h4, if_pos h0]
  · rw [hheader h4, if_neg (by omega), if_pos hc]
  · rw [hheader (by omega), if_neg (by omega), if_neg (by omega)]
    exact getByte_underrun (by simp only [State.decJob, length_srcBytes]; omega)

/-- The header of a ready command whose size fits, with its seed literal (R174 step 6). -/
theorem DecJob.Served.decHeader_seed {j : DecJob} {n cap : Nat} (h : j.Served n) (h5 : 5 ≤ j.src.length)
    (h0 : 0 < get32 j.src 0 j.e) (hc : get32 j.src 0 j.e ≤ cap) :
    Machine.decHeader j cap = .ok (byteAt j.src 4,
      { s := 5, d := 0, win := 0, cnt := 0, acc := 1, size := get32 j.src 0 j.e }) := by
  rw [h.decHeader (by omega), if_neg (by omega), if_neg (by omega)]
  exact h.getByte h5

/-- The main loop has nothing to do once the seed of a stream of length 1 is written (R180 (a)). -/
theorem DecJob.Served.decWrite_seed {j : DecJob} {n : Nat} {w : DecState} (h : j.Served n) (hn : 0 < n) (b : Byte)
    (hw : w.size = 1) : decWrite j b w = .ok ([b], { w with d := 1 }) := by
  have hseed : j.access j.lDst .write = .ok () := h.access (i := 0) hn .write
  have hloop : decLoop j w.size { w with d := 1 } [b] = .ok ([b], { w with d := 1 }) := by
    rw [hw, decLoop, if_pos (by simp only; omega)]
  rw [decWrite, hseed]
  exact hloop

/-- Settles O49: header, seed and no token; the one byte stored is the seed literal. -/
theorem decompressOfLengthOneIsSeed : Obligations.DecompressOfLengthOneIsSeed := by
  intro s le ovl h h5 h1 hc
  have hserved := h.decJob_served le
  have hsize : get32 (s.decJob le).src 0 (s.decJob le).e = 1 := h1
  have hheader := hserved.decHeader_seed (cap := s.dcap) (by rw [State.decJob, length_srcBytes]; exact h5)
    (by omega) (by omega)
  rw [hsize] at hheader
  obtain ⟨t, ht, hsucc, hops, hmem, hout⟩ := exec_stores (i := .decompress le ovl) h (decompressChecks_none (by omega))
    (decompressBody_of_write_ok hheader (hserved.decWrite_seed hc _ rfl))
  refine ⟨t, ht, hsucc, hops, ?_, hout⟩
  have hbyte := Memory.byteAt_readBytes t.mem s.dst 1 0 (by omega)
  rw [show Memory.readBytes t.mem s.dst 1 = _ from hmem] at hbyte
  exact hbyte.symm

/-! ### The code `dict_ld` (R173) -/

/-- A code of more than 32 bits is `BAD_MATCH` (R178 (c)). -/
theorem dictLoop_badMatch {j : DecJob} {fuel : Nat} {w : DecState} (h : 2 ^ 31 ≤ w.acc) :
    dictLoop j fuel w = .error (.error .badMatch w.d) := by
  cases fuel with
  | zero => rfl
  | succ fuel => rw [dictLoop, if_pos h]

/-- From an accumulator of at least 1, each round at least doubles it, and it stays below `2^32`. -/
theorem dictLoop_range {j : DecJob} {fuel : Nat} {w w' : DecState} {v : Nat} (ha : 1 ≤ w.acc)
    (h : dictLoop j fuel w = .ok (v, w')) : 2 ≤ v ∧ v < 2 ^ 32 := by
  induction fuel generalizing w with
  | zero => cases h
  | succ fuel ih =>
    unfold dictLoop at h
    split_ifs at h with hacc
    obtain ⟨⟨b, w1⟩, h1, h⟩ := Except.bind_ok h
    obtain ⟨⟨more, w2⟩, h2, h⟩ := Except.bind_ok h
    obtain ⟨-, -, hacc1⟩ := getBit_ok h1
    obtain ⟨-, -, hacc2⟩ := getBit_ok h2
    have hbit : b.toNat < 2 := b.toNat_lt
    simp only at h hacc2
    split_ifs at h
    · exact ih (by omega) h
    · cases h
      omega

/-- Settles O50: the accumulator starts at 1. -/
theorem dictCodeIsAtLeastTwo : Obligations.DictCodeIsAtLeastTwo := fun _ _ _ _ h => dictLoop_range (Nat.le_refl 1) h

/-! ### The match copy (R182) -/

theorem byteAt_append_left {l m : List Byte} {i : Nat} (h : i < l.length) : byteAt (l ++ m) i = byteAt l i := by
  simp [byteAt, List.getD_eq_getElem?_getD, List.getElem?_append_left h]

theorem byteAt_append_right {l m : List Byte} {i : Nat} (h : l.length ≤ i) :
    byteAt (l ++ m) i = byteAt m (i - l.length) := by
  simp [byteAt, List.getD_eq_getElem?_getD, List.getElem?_append_right h]

theorem byteAt_append_length (l : List Byte) (x : Byte) : byteAt (l ++ [x]) l.length = x := by
  rw [byteAt_append_right (Nat.le_refl _), Nat.sub_self]
  rfl

theorem byteAt_take {l : List Byte} {n i : Nat} (h : i < n) : byteAt (l.take n) i = byteAt l i := by
  simp [byteAt, List.getD_eq_getElem?_getD, List.getElem?_take_of_lt h]

theorem take_append_byteAt {l : List Byte} {i : Nat} (h : i < l.length) : l.take i ++ [byteAt l i] = l.take (i + 1) := by
  rw [byteAt, List.getD_eq_getElem _ _ h, List.take_append_getElem]

/-- Settles O51, by induction on the copy: its first byte is the byte at `r`, the others are a copy from `r + 1` on. -/
theorem matchCopyRepeatsEarlierOutput : Obligations.MatchCopyRepeatsEarlierOutput := by
  intro j len
  induction len with
  | zero =>
    intro r out out' _ h
    cases h
    exact ⟨rfl, List.take_length, fun k hk => absurd hk (Nat.not_lt_zero k)⟩
  | succ len ih =>
    intro r out out' hr h
    obtain ⟨_, -, h⟩ := Except.bind_ok h
    obtain ⟨_, -, h⟩ := Except.bind_ok h
    obtain ⟨hlen, hkeep, hrep⟩ := ih (r + 1) _ out' (by simp; omega) h
    rw [List.length_append, List.length_singleton] at hlen hkeep hrep
    have hold : ∀ i < out.length + 1, byteAt out' i = byteAt (out ++ [byteAt out r]) i := fun i hi => by
      rw [← hkeep, byteAt_take hi]
    refine ⟨by omega, ?_, fun k hk => ?_⟩
    · have := congrArg (List.take out.length) hkeep
      rwa [List.take_take, Nat.min_eq_left (Nat.le_succ _), List.take_left' rfl] at this
    · cases k with
      | zero =>
        rw [Nat.add_zero, Nat.add_zero, hold _ (by omega), hold _ (by omega), byteAt_append_length, byteAt_append_left hr]
      | succ k =>
        have := hrep k (by omega)
        rwa [Nat.add_right_comm, Nat.add_right_comm r] at this

end Sys2Proof.Machine
end

section
/-! 42_codec, COMPRESS: what it completes with (R191, R197), its short sources (R200) and the bound on its output (R201). -/

namespace Sys2Proof.Machine

/-! ### The end of COMPRESS (R190, R197) -/

/-- The bus serves every source byte of a ready COMPRESS. -/
theorem compressBody_ready {s : State} (h : s.Ready .codec) (e : Endian) (ovl : Bool) :
    compressBody s e ovl = compressEnd s (compressRun s.srcBytes e ovl) := by
  have hreads : firstStop s.cfg (accesses .read s.src s.slen) = none :=
    (firstStop_eq_none _ _).2 (h.reads 0 s.slen (by omega))
  simp only [compressBody, hreads]

/-- The bus serves every destination byte of a ready COMPRESS, so that the length of its output alone decides how it ends. -/
theorem State.Ready.outputWrites {s : State} (h : s.Ready .codec) (n : Nat) :
    anyStop s.cfg s.draws (accesses .write s.dst (min n s.dcap)) = none :=
  (anyStop_eq_none _ _ _).2 (h.writes rfl _ (Nat.min_le_right _ _))

theorem compressEnd_fits {s : State} {c : CompState} (h : s.Ready .codec) (hfit : c.out.length ≤ s.dcap) :
    compressEnd s c = .done c.out c.out.length 0 { s.work with comp := c } := by
  simp only [compressEnd, h.outputWrites, decide_eq_false (Nat.not_lt.2 hfit)]

theorem compressEnd_overflows {s : State} {c : CompState} (h : s.Ready .codec) (hover : s.dcap < c.out.length) :
    compressEnd s c = .stopped (.error .dstOverflow s.dcap) true := by
  simp only [compressEnd, h.outputWrites, decide_eq_true hover]

theorem compressChecks_none {s : State} (h : 1 ≤ s.slen) : compressChecks s = none := if_neg (by omega)

/-- Settles O53: an output that fits is stored whole. -/
theorem compressCompletesWithStream : Obligations.CompressCompletesWithStream := by
  intro s le ovl h h1 hfit out
  exact exec_stores h (compressChecks_none h1) ((compressBody_ready h le ovl).trans (compressEnd_fits h hfit))

/-- Settles O54: an empty source is the command's own check, the overflow comes when the output is complete. -/
theorem compressErrors : Obligations.CompressErrors := fun _ le ovl h =>
  ⟨fun h0 => exec_ownCheck h.notRaced h.regions (if_pos h0), fun h1 hover =>
    exec_stops h (compressChecks_none h1) ((compressBody_ready h le ovl).trans (compressEnd_overflows h hover))⟩

/-! ### What a token does to the cursor -/

/-- Every position in the hash table is below the source cursor. -/
def CompState.TableBelow (c : CompState) : Prop := ∀ x ∈ c.table, x.2 < c.cur

/-- A match of `len` bytes from position `q` at the cursor: a real repetition, within the source (R195). -/
structure CompState.MatchAt (c : CompState) (src : List Byte) (q len : Nat) : Prop where
  before : q < c.cur
  long : 4 ≤ len
  inside : c.cur + len ≤ src.length
  same : ∀ i < len, byteAt src (q + i) = byteAt src (c.cur + i)

theorem extendMatch_spec {src : List Byte} {q cur fuel len : Nat} (hin : cur + len ≤ src.length)
    (hsame : ∀ i < len, byteAt src (q + i) = byteAt src (cur + i)) :
    cur + extendMatch src q cur fuel len ≤ src.length ∧
      ∀ i < extendMatch src q cur fuel len, byteAt src (q + i) = byteAt src (cur + i) := by
  induction fuel generalizing len with
  | zero => exact ⟨hin, hsame⟩
  | succ fuel ih =>
    unfold extendMatch
    split_ifs with hnext
    · refine ih (by omega) fun i hi => ?_
      rcases Nat.lt_succ_iff_lt_or_eq.1 hi with hlt | rfl
      · exact hsame i hlt
      · exact hnext.2
    · exact ⟨hin, hsame⟩

theorem mem_of_sparseFind {α : Type} {k : Nat} {v : α} {l : List (Nat × α)} (h : sparseFind k l = some v) :
    (k, v) ∈ l := by
  induction l with
  | nil => cases h
  | cons x l ih =>
    unfold sparseFind at h
    split_ifs at h with hk
    · cases h; exact hk ▸ List.mem_cons_self
    · exact List.mem_cons_of_mem _ (ih h)

theorem mem_insertRange {src : List Byte} {k p : Nat} {t : HashTable} {x : Nat × Nat}
    (h : x ∈ insertRange src k p t) : x ∈ t ∨ x.2 < p + k := by
  induction k generalizing p t with
  | zero => exact .inl h
  | succ k ih =>
    rcases ih h with hx | hx
    · rcases mem_sparseSet hx with rfl | hx
      · exact .inr (by simp only; omega)
      · exact .inl hx
    · exact .inr (by omega)

/-- The insertion before a probe enters positions below the cursor only. -/
theorem insertPending_tableBelow (src : List Byte) {c : CompState} (h : c.TableBelow) :
    (insertPending src c).TableBelow := by
  intro x hx
  by_cases hn : c.h ≤ c.cur
  · rcases mem_insertRange hx with hx | hx
    · exact h x hx
    · exact (by omega : x.2 < c.cur)
  · have h0 : c.cur - c.h = 0 := by omega
    simp only [insertPending, h0, insertRange] at hx
    exact h x hx

/-- A match that the probe finds and accepts is one (R195), at least 5 bytes before the end. -/
theorem findMatch_some {src : List Byte} {c : CompState} {q len : Nat} (ht : c.TableBelow)
    (hn : 5 ≤ src.length - c.cur) (h : findMatch src c = some (q, len)) : c.MatchAt src q len := by
  unfold findMatch at h
  split at h
  · cases h
  · next q' hq =>
    simp only at h
    split_ifs at h with hacc
    cases h
    obtain ⟨hin, hsame⟩ := extendMatch_spec (src := src) (q := q) (fuel := src.length - c.cur)
      (show c.cur + 0 ≤ src.length by omega) (fun i hi => absurd hi (Nat.not_lt_zero i))
    exact ⟨ht _ (mem_of_sparseFind hq), by simp only [minMatch] at hacc; omega, hin, hsame⟩

/-- What a round of the main loop can do (R195, R199): after entering positions in the table, if any, it emits the literal at
the cursor or a match there. -/
theorem compToken_cases {src : List Byte} {e : Endian} {ovl : Bool} {c : CompState} (ht : c.TableBelow) :
    ∃ h t, let c1 := { c with h := h, table := t }
      c1.TableBelow ∧ (compToken src e ovl c = putLiteral src e c1 ∨
        ∃ q len, c1.MatchAt src q len ∧ compToken src e ovl c = putMatch e ovl q len c1) := by
  unfold compToken
  split_ifs with hn
  · exact ⟨c.h, c.table, ht, .inl rfl⟩
  · have ht1 := insertPending_tableBelow src ht
    refine ⟨_, _, ht1, ?_⟩
    simp only
    split
    · next q len hm => exact .inr ⟨q, len, findMatch_some ht1 (Nat.not_lt.1 hn) hm, rfl⟩
    · exact .inl rfl

end Sys2Proof.Machine
end

section
/-! 42_codec R200, R201: how long a compressed stream is. A control bit costs one eighth of a byte whether or not it opens a
window, so eight times the output and the bits of the open window keep an exact account. -/

namespace Sys2Proof.Machine

@[simp] theorem length_patch (out : List Byte) (pos : Nat) (p : List Byte) : (patch out pos p).length = out.length := by
  simp [patch]

theorem flushWindow_of_room {e : Endian} {c : CompState} (h : c.wcnt ≠ 16) : flushWindow e c = c := if_neg h

theorem flushWindow_of_full {e : Endian} {c : CompState} (h : c.wcnt = 16) : flushWindow e c =
    { c with
      out := patch c.out c.wpos (put16 c.wbits.toNat e) ++ [0#8, 0#8]
      wpos := c.out.length, wbits := 0, wcnt := 0 } := if_pos h

/-- The next bit in the open window, which has room for it (R193). -/
def pushBit (b : Bool) (c : CompState) : CompState :=
  { c with wbits := (c.wbits <<< 1) ||| (BitVec.ofBool b).setWidth 16, wcnt := c.wcnt + 1 }

theorem putBit_eq (e : Endian) (b : Bool) (c : CompState) : putBit e b c = pushBit b (flushWindow e c) := rfl

/-! ### Cursors -/

theorem putLiteral_keeps (src : List Byte) (e : Endian) (c : CompState) :
    (putLiteral src e c).cur = c.cur + 1 ∧ (putLiteral src e c).table = c.table := by
  obtain ⟨hcur, -, htable⟩ := putBit_keeps e false c
  exact ⟨congrArg (· + 1) hcur, htable⟩

theorem putMatch_keeps (e : Endian) (ovl : Bool) (q len : Nat) (c : CompState) :
    (putMatch e ovl q len c).cur = c.cur + len ∧ (putMatch e ovl q len c).table = c.table := by
  obtain ⟨hcur, -, htable⟩ := putBit_keeps e true c
  obtain ⟨hcur1, -, htable1⟩ := putDictBits_keeps e (len - 2) (Nat.log2 (len - 2)) (putBit e true c)
  obtain ⟨hcur2, -, htable2⟩ := putDictBits_keeps e ((c.cur - q - 1) / 2 ^ 8 + 2)
    (Nat.log2 ((c.cur - q - 1) / 2 ^ 8 + 2)) (putDict e (len - 2) (putBit e true c))
  exact ⟨congrArg (· + len) (hcur2.trans (hcur1.trans hcur)), htable2.trans (htable1.trans htable)⟩

theorem CompState.TableBelow.mono {c c' : CompState} (h : c.TableBelow) (ht : c'.table = c.table) (hc : c.cur ≤ c'.cur) :
    c'.TableBelow := fun x hx => Nat.lt_of_lt_of_le (h x (ht ▸ hx)) hc

/-- A round moves the cursor on, not past the end, and keeps the table below it. -/
theorem compToken_advances {src : List Byte} {e : Endian} {ovl : Bool} {c : CompState} (ht : c.TableBelow)
    (hc : c.cur < src.length) : c.cur < (compToken src e ovl c).cur ∧ (compToken src e ovl c).cur ≤ src.length ∧
      (compToken src e ovl c).TableBelow := by
  obtain ⟨h, t, ht1, heq | ⟨q, len, hm, heq⟩⟩ := compToken_cases (src := src) (e := e) (ovl := ovl) ht
  · obtain ⟨hcur, htable⟩ := putLiteral_keeps src e { c with h := h, table := t }
    rw [heq]
    exact ⟨by rw [hcur]; exact Nat.lt_succ_self _, by rw [hcur]; exact hc,
      ht1.mono htable (by rw [hcur]; exact Nat.le_succ _)⟩
  · obtain ⟨hcur, htable⟩ := putMatch_keeps e ovl q len { c with h := h, table := t }
    have hlong := hm.long
    rw [heq]
    exact ⟨by rw [hcur]; simp only; omega, by rw [hcur]; exact hm.inside,
      ht1.mono htable (by rw [hcur]; exact Nat.le_add_right _ _)⟩

/-- What every round keeps holds at the end of the main loop. -/
theorem compLoop_induction {src : List Byte} {e : Endian} {ovl : Bool} {P : CompState → Prop}
    (hstep : ∀ c, P c → c.cur < src.length → P (compToken src e ovl c)) (fuel : Nat) {c : CompState} (h : P c) :
    P (compLoop src e ovl fuel c) := by
  induction fuel generalizing c with
  | zero => exact h
  | succ fuel ih =>
    unfold compLoop
    split_ifs with hend
    · exact h
    · exact ih (hstep c h (Nat.not_le.1 hend))

/-! ### The bound (R201) -/

/-- The output in eighths of a byte and the bits of the open window: each control bit adds one, each byte eight. -/
def CompState.ledger (c : CompState) : Nat := 8 * c.out.length + c.wcnt

theorem putBit_ledger (e : Endian) (b : Bool) (c : CompState) : (putBit e b c).ledger = c.ledger + 1 := by
  rw [putBit_eq]
  by_cases h : c.wcnt = 16
  · simp only [flushWindow_of_full h, pushBit, CompState.ledger, h, List.length_append, length_patch, List.length_cons,
      List.length_nil]
    omega
  · rw [flushWindow_of_room h]
    rfl

theorem putByte_ledger (x : Byte) (c : CompState) : (putByte x c).ledger = c.ledger + 8 := by
  simp only [putByte, CompState.ledger, List.length_append, List.length_singleton]
  omega

theorem putDictBits_ledger (e : Endian) (v k : Nat) (c : CompState) :
    (putDictBits e v k c).ledger = c.ledger + 2 * k := by
  induction k generalizing c with
  | zero => rfl
  | succ k ih =>
    rw [putDictBits, ih, putBit_ledger, putBit_ledger]
    omega

theorem putLiteral_ledger (src : List Byte) (e : Endian) (c : CompState) :
    (putLiteral src e c).ledger = c.ledger + 9 := by
  change (putByte _ (putBit e false c)).ledger = _
  rw [putByte_ledger, putBit_ledger]

theorem putMatch_ledger (e : Endian) (ovl : Bool) (q len : Nat) (c : CompState) :
    (putMatch e ovl q len c).ledger =
      c.ledger + 9 + 2 * Nat.log2 (len - 2) + 2 * Nat.log2 ((c.cur - q - 1) / 2 ^ 8 + 2) := by
  change (putByte _ (putDict e ((c.cur - q - 1) / 2 ^ 8 + 2) (putDict e (len - 2) (putBit e true c)))).ledger = _
  rw [putByte_ledger, putDict, putDictBits_ledger, putDict, putDictBits_ledger, putBit_ledger]
  omega

/-- A round pays at most two bytes for each source byte it covers: 9 eighths for a literal, at most
`25 + 2 log2 (len - 2)` for a match that is not more than `2^16` back. -/
theorem compToken_ledger {src : List Byte} {e : Endian} {ovl : Bool} {c : CompState} (ht : c.TableBelow)
    (hn : src.length ≤ 65536) :
    (compToken src e ovl c).ledger + 16 * c.cur ≤ c.ledger + 16 * (compToken src e ovl c).cur := by
  obtain ⟨h, t, -, heq | ⟨q, len, hm, heq⟩⟩ := compToken_cases (src := src) (e := e) (ovl := ovl) ht
  · rw [heq, putLiteral_ledger, (putLiteral_keeps _ _ _).1]
    simp only [CompState.ledger]
    omega
  · obtain ⟨-, hlong, hinside, -⟩ := hm
    have hlen : Nat.log2 (len - 2) ≤ len - 2 := Nat.log2_le_self _
    have hdist : Nat.log2 ((c.cur - q - 1) / 2 ^ 8 + 2) < 9 :=
      (Nat.log2_lt (by omega)).2 (by simp only at hinside; omega)
    rw [heq, putMatch_ledger, (putMatch_keeps _ _ _ _ _).1]
    simp only [CompState.ledger]
    omega

theorem compInit_ledger (src : List Byte) (e : Endian) : (compInit src e).ledger = 56 := by
  simp [compInit, CompState.ledger, length_put32]

theorem compInit_tableBelow (src : List Byte) (e : Endian) : (compInit src e).TableBelow := fun _ h => nomatch h

/-- Settles O56, by the account of the main loop: two bytes for each source byte after the seed, at most. -/
theorem compressedLengthIsBounded : Obligations.CompressedLengthIsBounded := by
  intro b e ovl h1 hn
  obtain ⟨-, hcur, hledger⟩ := compLoop_induction (src := b) (e := e) (ovl := ovl)
    (P := fun c => c.TableBelow ∧ c.cur ≤ b.length ∧ c.ledger ≤ 40 + 16 * c.cur)
    (fun c ⟨ht, _, hl⟩ hlt =>
      have ⟨_, hle, ht'⟩ := compToken_advances ht hlt
      ⟨ht', hle, by have := compToken_ledger (e := e) (ovl := ovl) ht hn; omega⟩)
    b.length (c := compInit b e)
    ⟨compInit_tableBelow b e, h1, by rw [compInit_ledger]; rfl⟩
  have hlen : (compressBytes b e ovl).length = (compLoop b e ovl b.length (compInit b e)).out.length := length_patch _ _ _
  rw [CompState.ledger] at hledger
  omega

/-! ### Literals only (R199, R200) -/

/-- A literal while every bit of the open window is 0 and it has room. -/
theorem putLiteral_zeros (src : List Byte) (e : Endian) {c : CompState} (hb : c.wbits = 0) (hw : c.wcnt < 16) :
    putLiteral src e c = { c with out := c.out ++ [byteAt src c.cur], wcnt := c.wcnt + 1, cur := c.cur + 1 } := by
  rw [putLiteral, putBit_eq, flushWindow_of_room (by omega)]
  simp [pushBit, putByte, hb]

theorem drop_eq_byteAt_cons {l : List Byte} {i : Nat} (h : i < l.length) : l.drop i = byteAt l i :: l.drop (i + 1) := by
  rw [List.drop_eq_getElem_cons h, byteAt, List.getD_eq_getElem _ _ h]

/-- The last bytes of a source, fewer than five, become literals, whose bits stay 0 (R199). -/
theorem compLoop_tail {src : List Byte} {e : Endian} {ovl : Bool} {fuel : Nat} {c : CompState}
    (hin : c.cur ≤ src.length) (h4 : src.length ≤ c.cur + 4) (hf : src.length ≤ c.cur + fuel) (hb : c.wbits = 0)
    (hw : c.wcnt + src.length ≤ 16 + c.cur) :
    (compLoop src e ovl fuel c).out = c.out ++ src.drop c.cur ∧ (compLoop src e ovl fuel c).wpos = c.wpos ∧
      (compLoop src e ovl fuel c).wbits = 0 := by
  induction fuel generalizing c with
  | zero => exact ⟨by rw [List.drop_eq_nil_of_le (i := c.cur) hf, List.append_nil]; rfl, rfl, hb⟩
  | succ fuel ih =>
    unfold compLoop
    split_ifs with hend
    · exact ⟨by rw [List.drop_eq_nil_of_le hend, List.append_nil], rfl, hb⟩
    · have htoken : compToken src e ovl c = putLiteral src e c := if_pos (by simp only [tailLiterals]; omega)
      rw [htoken, putLiteral_zeros src e hb (by omega)]
      obtain ⟨hout, hwpos, hwbits⟩ := ih (c := { c with
        out := c.out ++ [byteAt src c.cur], wcnt := c.wcnt + 1, cur := c.cur + 1 })
        (by simp only; omega) (by simp only; omega) (by simp only; omega) hb (by simp only; omega)
      exact ⟨by rw [hout, drop_eq_byteAt_cons (Nat.not_le.1 hend)]; simp, hwpos, hwbits⟩

/-- Setting the two bytes after `pre` (R193, R197). -/
theorem patch_middle (pre post : List Byte) (x y : Byte) (p : List Byte) :
    patch (pre ++ [x, y] ++ post) pre.length p = pre ++ [byteAt p 0, byteAt p 1] ++ post := by
  simp [patch]

/-- Settles O55: after the seed there are fewer than five bytes, and the open window is all zeros. -/
theorem shortSourceCompressesToLiterals : Obligations.ShortSourceCompressesToLiterals := by
  intro x rest e ovl h4
  obtain ⟨hout, hwpos, hwbits⟩ := compLoop_tail (src := x :: rest) (e := e) (ovl := ovl) (fuel := (x :: rest).length)
    (c := compInit (x :: rest) e) (Nat.le_add_left _ _) (by simp only [compInit, List.length_cons]; omega)
    (Nat.le_add_left _ _) rfl (by simp only [compInit, List.length_cons]; omega)
  have hpos : (compInit (x :: rest) e).wpos = (put32 (rest.length + 1) e ++ [x]).length := by
    simp [compInit, length_put32]
  have hzero : ∀ n : Nat, put16 (0#16 <<< n : BitVec 16).toNat e = [0#8, 0#8] := by
    intro n; cases e <;> simp [put16, natByte]
  have hinit : (compInit (x :: rest) e).out ++ (x :: rest).drop (compInit (x :: rest) e).cur =
      put32 (rest.length + 1) e ++ [x] ++ [0#8, 0#8] ++ rest := rfl
  rw [compressBytes, compressRun, compFinish, hout, hwpos, hwbits, hpos, hinit]
  simp only [patch_middle, BitVec.ofNat_eq_ofNat, hzero]
  simp [byteAt]

end Sys2Proof.Machine
end

section
/-! 42_codec R193, R197: the completed stream carries every state of the compressor. What a state has emitted is in the stream
for good, except that its open window still waits for its last bits; so "the stream carries this state" holds of the final
state and goes back from each state to the one before it. -/

namespace Sys2Proof.Machine

/-! ### Multi-byte values read back (00_scope R9) -/

theorem toNat_natByte (v k : Nat) : (natByte v k).toNat = v / 2 ^ (8 * k) % 2 ^ 8 := by
  rw [natByte, BitVec.toNat_ofNat, Nat.shiftRight_eq_div_pow]

theorem get16_congr {l l' : List Byte} {i i' : Nat} (e : Endian) (h : ∀ k < 2, byteAt l (i + k) = byteAt l' (i' + k)) :
    get16 l i e = get16 l' i' e := by
  have h0 : byteAt l i = byteAt l' i' := h 0 (by omega)
  cases e <;> simp only [get16, h0, h 1 (by omega)]

theorem get32_congr {l l' : List Byte} {i i' : Nat} (e : Endian) (h : ∀ k < 4, byteAt l (i + k) = byteAt l' (i' + k)) :
    get32 l i e = get32 l' i' e := by
  have h0 : byteAt l i = byteAt l' i' := h 0 (by omega)
  cases e <;> simp only [get32, h0, h 1 (by omega), h 2 (by omega), h 3 (by omega)]

theorem get16_put16 {v : Nat} (hv : v < 2 ^ 16) (e : Endian) : get16 (put16 v e) 0 e = v := by
  have h0 := toNat_natByte v 0
  have h1 := toNat_natByte v 1
  cases e <;> simp [get16, put16, byteAt, h0, h1] <;> omega

theorem get32_put32 {v : Nat} (hv : v < 2 ^ 32) (e : Endian) : get32 (put32 v e) 0 e = v := by
  have h0 := toNat_natByte v 0
  have h1 := toNat_natByte v 1
  have h2 := toNat_natByte v 2
  have h3 := toNat_natByte v 3
  cases e <;> simp [get32, put32, byteAt, h0, h1, h2, h3] <;> omega

/-! ### The open window -/

theorem patch_append (l m : List Byte) {pos : Nat} (p : List Byte) (h : pos + 2 ≤ l.length) :
    patch (l ++ m) pos p = patch l pos p ++ m := by
  rw [patch, patch, List.set_append_left _ _ (by omega), List.set_append_left _ _ (by rw [List.length_set]; omega)]

theorem patch_end (l : List Byte) (p : List Byte) : patch (l ++ [0#8, 0#8]) l.length p = l ++ [byteAt p 0, byteAt p 1] := by
  simpa using patch_middle l [] 0#8 0#8 p

theorem byteAt_patch_of_ne {l p : List Byte} {pos i : Nat} (h : i < pos ∨ pos + 2 ≤ i) :
    byteAt (patch l pos p) i = byteAt l i := by
  simp only [byteAt, patch, List.getD_eq_getElem?_getD]
  rw [List.getElem?_set_ne (by omega), List.getElem?_set_ne (by omega)]

theorem get16_patch {l p : List Byte} {pos : Nat} (e : Endian) (h : pos + 2 ≤ l.length) :
    get16 (patch l pos p) pos e = get16 p 0 e := by
  refine get16_congr e fun k hk => ?_
  simp only [byteAt, patch, List.getD_eq_getElem?_getD]
  obtain rfl | rfl : k = 0 ∨ k = 1 := by omega
  · rw [List.getElem?_set_ne (by omega), Nat.add_zero, List.getElem?_set_self (by omega)]; rfl
  · rw [List.getElem?_set_self (by rw [List.length_set]; omega)]; rfl

/-- The place reserved for the open window lies in the output, and the window holds the bits it counts (R193). -/
structure CompState.Open (c : CompState) : Prop where
  place : c.wpos + 2 ≤ c.out.length
  count : c.wcnt ≤ 16
  bits : c.wbits.toNat < 2 ^ c.wcnt

/-- The stream is what the compressor has put out, with a control word that starts with the bits of the open window in its
place, and whatever comes later. -/
def Carries (e : Endian) (stream : List Byte) (c : CompState) : Prop :=
  ∃ word more, word < 2 ^ 16 ∧ word / 2 ^ (16 - c.wcnt) = c.wbits.toNat ∧
    stream = patch c.out c.wpos (put16 word e) ++ more

theorem Carries.length_le {e : Endian} {stream : List Byte} {c : CompState} (h : Carries e stream c) :
    c.out.length ≤ stream.length := by
  obtain ⟨word, more, -, -, rfl⟩ := h
  simp

/-- The control word in the stream starts with the bits of the open window. -/
theorem Carries.word {e : Endian} {stream : List Byte} {c : CompState} (h : Carries e stream c) (ho : c.Open) :
    get16 stream c.wpos e < 2 ^ 16 ∧ get16 stream c.wpos e / 2 ^ (16 - c.wcnt) = c.wbits.toNat := by
  obtain ⟨word, more, hword, hbits, rfl⟩ := h
  have hplace := ho.place
  have hget : get16 (patch c.out c.wpos (put16 word e) ++ more) c.wpos e = word := by
    rw [get16_congr (l' := patch c.out c.wpos (put16 word e)) (i' := c.wpos) e fun k hk =>
      byteAt_append_left (by rw [length_patch]; omega), get16_patch e hplace, get16_put16 hword]
  rw [hget]
  exact ⟨hword, hbits⟩

/-- Bytes put out after the open window are in the stream. -/
theorem Carries.byteAt_eq {e : Endian} {stream : List Byte} {c : CompState} {i : Nat} (h : Carries e stream c)
    (hi : i < c.out.length) (hpos : i < c.wpos ∨ c.wpos + 2 ≤ i) : byteAt stream i = byteAt c.out i := by
  obtain ⟨word, more, -, -, rfl⟩ := h
  rw [byteAt_append_left (by rwa [length_patch]), byteAt_patch_of_ne hpos]

/-! ### From a state to the one before it -/

/-- Going on from `c` to `c'` keeps the window open, and a stream that carries `c'` carries `c`. -/
structure Precedes (e : Endian) (c c' : CompState) : Prop where
  opens : c.Open → c'.Open
  carries : ∀ stream, c.Open → Carries e stream c' → Carries e stream c

theorem Precedes.refl (e : Endian) (c : CompState) : Precedes e c c := ⟨id, fun _ _ => id⟩

theorem Precedes.trans {e : Endian} {c c' c'' : CompState} (h : Precedes e c c') (h' : Precedes e c' c'') :
    Precedes e c c'' :=
  ⟨fun ho => h'.opens (h.opens ho), fun st ho hc => h.carries st ho (h'.carries st (h.opens ho) hc)⟩

theorem flushWindow_precedes (e : Endian) (c : CompState) : Precedes e c (flushWindow e c) := by
  by_cases hfull : c.wcnt = 16
  · rw [flushWindow_of_full hfull]
    refine ⟨fun ho => ⟨by simp, Nat.zero_le _, by simp⟩, ?_⟩
    rintro _ ho ⟨word, more, -, -, rfl⟩
    have hbits : c.wbits.toNat < 2 ^ 16 := c.wbits.isLt
    refine ⟨c.wbits.toNat, [byteAt (put16 word e) 0, byteAt (put16 word e) 1] ++ more, hbits, ?_, ?_⟩
    · rw [hfull]; exact Nat.div_one _
    · have hlen := length_patch c.out c.wpos (put16 c.wbits.toNat e)
      simp only
      rw [← hlen, patch_end, List.append_assoc]
  · rw [flushWindow_of_room hfull]
    exact Precedes.refl e c

theorem toNat_wbits_push {x : BitVec 16} {n : Nat} (b : Bool) (hn : n < 16) (hx : x.toNat < 2 ^ n) :
    ((x <<< 1) ||| (BitVec.ofBool b).setWidth 16).toNat = 2 * x.toNat + b.toNat := by
  have hlt : x.toNat < 2 ^ 15 := Nat.lt_of_lt_of_le hx (Nat.pow_le_pow_right (by omega) (by omega))
  have hb : b.toNat < 2 ^ 1 := b.toNat_lt
  rw [BitVec.toNat_or, BitVec.toNat_shiftLeft, BitVec.toNat_setWidth, BitVec.toNat_ofBool, Nat.shiftLeft_eq,
    Nat.mod_eq_of_lt (by omega), Nat.mod_eq_of_lt (by omega), Nat.mul_comm, ← Nat.two_pow_add_eq_or_of_lt hb, Nat.pow_one]

theorem pushBit_precedes (e : Endian) (b : Bool) {c : CompState} (hroom : c.wcnt < 16) : Precedes e c (pushBit b c) := by
  constructor
  · rintro ⟨hplace, -, hbits⟩
    refine ⟨hplace, hroom, ?_⟩
    have hb := b.toNat_lt
    simp only [pushBit, toNat_wbits_push b hroom hbits, Nat.pow_succ]
    omega
  · rintro _ ho ⟨word, more, hword, hbits, rfl⟩
    refine ⟨word, more, hword, ?_, rfl⟩
    have hb := b.toNat_lt
    have hexp : 16 - c.wcnt = 16 - (c.wcnt + 1) + 1 := by omega
    simp only [pushBit, toNat_wbits_push b hroom ho.bits] at hbits
    rw [hexp, Nat.pow_succ, ← Nat.div_div_eq_div_mul, hbits]
    omega

theorem flushWindow_room {e : Endian} {c : CompState} (ho : c.Open) : (flushWindow e c).wcnt < 16 := by
  have hcount := ho.count
  by_cases hfull : c.wcnt = 16
  · rw [flushWindow_of_full hfull]; exact Nat.succ_pos 15
  · rw [flushWindow_of_room hfull]; omega

theorem putBit_precedes (e : Endian) (b : Bool) (c : CompState) : Precedes e c (putBit e b c) where
  opens ho := (pushBit_precedes e b (flushWindow_room ho)).opens ((flushWindow_precedes e c).opens ho)
  carries st ho hc := (flushWindow_precedes e c).carries st ho
    ((pushBit_precedes e b (flushWindow_room ho)).carries st ((flushWindow_precedes e c).opens ho) hc)

theorem putByte_precedes (e : Endian) (x : Byte) (c : CompState) : Precedes e c (putByte x c) := by
  constructor
  · rintro ⟨hplace, hcount, hbits⟩
    exact ⟨by rw [putByte, List.length_append]; exact Nat.le_add_right_of_le hplace, hcount, hbits⟩
  · rintro _ ho ⟨word, more, hword, hbits, rfl⟩
    refine ⟨word, x :: more, hword, hbits, ?_⟩
    simp only [putByte, patch_append _ _ _ ho.place, List.append_assoc, List.singleton_append]

theorem putDictBits_precedes (e : Endian) (v k : Nat) (c : CompState) : Precedes e c (putDictBits e v k c) := by
  induction k generalizing c with
  | zero => exact Precedes.refl e c
  | succ k ih => exact ((putBit_precedes e _ c).trans (putBit_precedes e _ _)).trans (ih _)

/-- Nothing that a stream carries is in the cursors or the table. -/
theorem Precedes.of_output {e : Endian} {c c' : CompState} (hout : c'.out = c.out) (hpos : c'.wpos = c.wpos)
    (hbits : c'.wbits = c.wbits) (hcnt : c'.wcnt = c.wcnt) : Precedes e c c' := by
  constructor
  · rintro ⟨h1, h2, h3⟩
    exact ⟨by rwa [hout, hpos], by rwa [hcnt], by rwa [hbits, hcnt]⟩
  · intro st _ h
    rwa [Carries, hout, hpos, hbits, hcnt] at h

theorem putLiteral_precedes (src : List Byte) (e : Endian) (c : CompState) :
    Precedes e (putBit e false c) (putLiteral src e c) :=
  (putByte_precedes e _ _).trans (.of_output rfl rfl rfl rfl)

theorem putMatch_precedes (e : Endian) (ovl : Bool) (q len : Nat) (c : CompState) :
    Precedes e (putBit e true c) (putMatch e ovl q len c) :=
  (((putDictBits_precedes e _ _ _).trans (putDictBits_precedes e _ _ _)).trans (putByte_precedes e _ _)).trans
    (.of_output rfl rfl rfl rfl)

theorem compToken_precedes {src : List Byte} {e : Endian} {ovl : Bool} {c : CompState} (ht : c.TableBelow) :
    Precedes e c (compToken src e ovl c) := by
  obtain ⟨h, t, -, htoken⟩ := compToken_cases (src := src) (e := e) (ovl := ovl) ht
  have hinsert : Precedes e c { c with h := h, table := t } := .of_output rfl rfl rfl rfl
  rcases htoken with heq | ⟨q, len, -, heq⟩ <;> rw [heq]
  · exact (hinsert.trans (putBit_precedes e false _)).trans (putLiteral_precedes src e _)
  · exact (hinsert.trans (putBit_precedes e true _)).trans (putMatch_precedes e ovl q len _)

theorem compLoop_precedes {src : List Byte} {e : Endian} {ovl : Bool} {c : CompState} (fuel : Nat) (ht : c.TableBelow) :
    Precedes e c (compLoop src e ovl fuel c) :=
  (compLoop_induction (P := fun c' => c'.TableBelow ∧ Precedes e c c')
    (fun _ ⟨ht', hp⟩ hlt => ⟨(compToken_advances ht' hlt).2.2, hp.trans (compToken_precedes ht')⟩) fuel
    ⟨ht, Precedes.refl e c⟩).2

/-! ### The ends of the stream -/

theorem compInit_open (src : List Byte) (e : Endian) : (compInit src e).Open :=
  ⟨by simp [compInit, length_put32], Nat.zero_le _, by simp [compInit]⟩

/-- The flush at the end gives the stream that carries the last state (R197). -/
theorem compFinish_carries {e : Endian} {c : CompState} (ho : c.Open) : Carries e (compFinish e c).out c := by
  obtain ⟨-, hcount, hbits⟩ := ho
  have hpow : 2 ^ c.wcnt * 2 ^ (16 - c.wcnt) = 2 ^ 16 := by rw [← Nat.pow_add, Nat.add_sub_cancel' hcount]
  have hlt : c.wbits.toNat * 2 ^ (16 - c.wcnt) < 2 ^ 16 :=
    hpow ▸ Nat.mul_lt_mul_of_pos_right hbits (Nat.two_pow_pos _)
  have hword : (c.wbits <<< (windowBits - c.wcnt)).toNat = c.wbits.toNat * 2 ^ (16 - c.wcnt) := by
    rw [BitVec.toNat_shiftLeft, Nat.shiftLeft_eq, Nat.mod_eq_of_lt hlt]
  refine ⟨c.wbits.toNat * 2 ^ (16 - c.wcnt), [], hlt, Nat.mul_div_cancel _ (Nat.two_pow_pos _), ?_⟩
  rw [compFinish, hword, List.append_nil]

end Sys2Proof.Machine
end

section
/-! 42_codec R202, R177: the decompressor follows the compressor token by token. Its source agrees with the compressor's
stream as far as it reaches; each step of it either reads what the compressor put there or meets the end of a source shorter
than the stream. The first case is the inverse law, the second the error of a stream cut short. -/

namespace Sys2Proof.Machine

/-! ### A result, or the end of a source cut short -/

/-- The decoder comes to a result with the property, or to the end of a source that is shorter than the stream. -/
def OkOrCut (j : DecJob) (stream : List Byte) {α : Type} (P : α → Prop) : Except Stop α → Prop
  | .ok a => P a
  | .error st => j.src.length < stream.length ∧ ∃ o ≤ j.src.length, st = .error .srcUnderrun o

theorem OkOrCut.bind {j : DecJob} {stream : List Byte} {α β : Type} {P : α → Prop} {Q : β → Prop} {x : Except Stop α}
    {f : α → Except Stop β} (h : OkOrCut j stream P x) (hf : ∀ a, x = .ok a → P a → OkOrCut j stream Q (f a)) :
    OkOrCut j stream Q (x >>= f) := by
  cases x with
  | error st => exact h
  | ok a => exact hf a rfl h

theorem OkOrCut.mono {j : DecJob} {stream : List Byte} {α : Type} {P Q : α → Prop} {x : Except Stop α}
    (h : OkOrCut j stream P x) (hq : ∀ a, x = .ok a → P a → Q a) : OkOrCut j stream Q x := by
  cases x with
  | error st => exact h
  | ok a => exact hq a rfl h

/-- What surrounds a decoder that follows the stream: the bus serves it, and its source agrees with the stream as far as both
reach. -/
structure DecJob.Follows (j : DecJob) (stream : List Byte) (n : Nat) : Prop where
  served : j.Served n
  agrees : ∀ i < j.src.length, i < stream.length → byteAt j.src i = byteAt stream i

/-- The decoder stands where the compressor does: behind all its output, in its open window. -/
structure InStep (j : DecJob) (stream : List Byte) (c : CompState) (w : DecState) : Prop where
  cnt : w.cnt = 16 - c.wcnt
  pos : w.s = c.out.length
  win : w.win.toNat = get16 stream c.wpos j.e
  inside : w.s ≤ j.src.length

/-- The decoder stands at the control word that the compressor has reserved and not begun, with nothing after it. -/
structure AtFetch (j : DecJob) (c : CompState) (w : DecState) : Prop where
  cnt : w.cnt = 0
  pos : w.s = c.wpos
  last : c.out.length = c.wpos + 2
  empty : c.wcnt = 0
  inside : w.s ≤ j.src.length

section
variable {j : DecJob} {stream : List Byte} {n : Nat} {c : CompState} {w : DecState}

/-! ### Bits and bytes -/

/-- The decoder's fetch brings it into the window that the compressor has reserved (R172). -/
theorem fetchWindow_atFetch (hj : j.Follows stream n) (h : AtFetch j c w) (ho : c.Open) (hc : Carries j.e stream c) :
    OkOrCut j stream (InStep j stream c) (fetchWindow j w) := by
  obtain ⟨hcnt, hpos, hlast, hempty, hinside⟩ := h
  have hlen := hc.length_le
  obtain ⟨hword, -⟩ := hc.word ho
  rw [fetchWindow, if_neg (by omega)]
  split_ifs with hcut
  · exact ⟨by omega, w.s, hinside, rfl⟩
  · have hget : get16 j.src w.s j.e = get16 stream c.wpos j.e := by
      rw [hpos]
      exact get16_congr j.e fun k hk => hj.agrees _ (by omega) (by omega)
    rw [hj.served.value (by omega)]
    refine ⟨by rw [hempty], by simp only; omega, ?_, by simp only; omega⟩
    rw [hget, BitVec.toNat_ofNat, Nat.mod_eq_of_lt hword]

/-- The decoder fetches where the compressor flushes (R172, R193). -/
theorem fetchWindow_inStep (hj : j.Follows stream n) (h : AtFetch j c w ∨ InStep j stream c w) (ho : c.Open)
    (hc : Carries j.e stream (flushWindow j.e c)) :
    OkOrCut j stream (InStep j stream (flushWindow j.e c)) (fetchWindow j w) := by
  have ho' := (flushWindow_precedes j.e c).opens ho
  have hcount := ho.count
  by_cases hfull : c.wcnt = 16
  · rcases h with h | h
    · exact absurd h.empty (by omega)
    · refine fetchWindow_atFetch hj ?_ ho' hc
      rw [flushWindow_of_full hfull]
      exact ⟨by rw [h.cnt, hfull], h.pos, by simp, rfl, h.inside⟩
  · rw [flushWindow_of_room hfull] at hc ⊢
    rcases h with h | h
    · exact fetchWindow_atFetch hj h ho hc
    · rw [fetchWindow, if_pos (by rw [h.cnt]; omega)]
      exact h

/-- `getbit()` reads what `putbit` wrote (R172, R193). -/
theorem getBit_follows (hj : j.Follows stream n) (b : Bool) (h : AtFetch j c w ∨ InStep j stream c w) (ho : c.Open)
    (hc : Carries j.e stream (putBit j.e b c)) :
    OkOrCut j stream (fun r => r.1 = b ∧ InStep j stream (putBit j.e b c) r.2) (getBit j w) := by
  have ho' := (flushWindow_precedes j.e c).opens ho
  have hroom := flushWindow_room (e := j.e) ho
  have hpush := pushBit_precedes j.e b hroom
  rw [putBit_eq] at hc ⊢
  refine (fetchWindow_inStep hj h ho (hpush.carries _ ho' hc)).bind fun w1 _ h1 => ?_
  obtain ⟨hcnt, hpos, hwin, hinside⟩ := h1
  obtain ⟨-, hbits⟩ := hc.word (hpush.opens ho')
  refine ⟨?_, by simp only [pushBit]; omega, hpos, hwin, hinside⟩
  have hb := b.toNat_lt
  have hcnt' : w1.cnt - 1 = 16 - ((flushWindow j.e c).wcnt + 1) := by omega
  simp only [pushBit, toNat_wbits_push b hroom ho'.bits] at hbits
  have hodd : (2 * (flushWindow j.e c).wbits.toNat + b.toNat) % 2 = b.toNat := by omega
  simp only [BitVec.getLsbD, Nat.testBit_eq_decide_div_mod_eq, hwin, hcnt', hbits, hodd]
  cases b <;> rfl

/-- `getbyte()` reads the byte that was put out (R170). -/
theorem getByte_follows (hj : j.Follows stream n) (x : Byte) (h : InStep j stream c w) (ho : c.Open)
    (hc : Carries j.e stream (putByte x c)) :
    OkOrCut j stream (fun r => r.1 = x ∧ InStep j stream (putByte x c) r.2) (getByte j w) := by
  obtain ⟨hcnt, hpos, hwin, hinside⟩ := h
  have hplace := ho.place
  have hlen : c.out.length + 1 ≤ stream.length := by simpa [putByte] using hc.length_le
  by_cases hcut : j.src.length ≤ w.s
  · rw [getByte_underrun hcut]
    exact ⟨by omega, w.s, hinside, rfl⟩
  · rw [hj.served.getByte (by omega)]
    refine ⟨?_, hcnt, ?_, hwin, by simp only; omega⟩
    · simp only
      rw [hj.agrees _ (by omega) (by omega), hpos, hc.byteAt_eq (by simp [putByte]) (.inr hplace)]
      exact byteAt_append_length c.out x
    · simp only [putByte, List.length_append, List.length_singleton, hpos]

/-! ### Codes and copies -/

theorem InStep.withAcc (h : InStep j stream c w) (a : Nat) : InStep j stream c { w with acc := a } :=
  ⟨h.cnt, h.pos, h.win, h.inside⟩

/-- The loop of `dict_ld` reads the low `k + 1` bits of the code that `put_dict` wrote (R173, R194). -/
theorem dictLoop_follows (hj : j.Follows stream n) {v k fuel : Nat} (hv : v < 2 ^ 32) (hf : k < fuel)
    (ha : w.acc = v / 2 ^ (k + 1)) (h : InStep j stream c w) (ho : c.Open)
    (hc : Carries j.e stream (putDictBits j.e v (k + 1) c)) :
    OkOrCut j stream (fun r => r.1 = v ∧ InStep j stream (putDictBits j.e v (k + 1) c) r.2) (dictLoop j fuel w) := by
  induction fuel generalizing k c w with
  | zero => exact absurd hf (Nat.not_lt_zero k)
  | succ fuel ih =>
    have hpayload := putBit_precedes j.e (v.testBit k) c
    have hmore := putBit_precedes j.e (decide (0 < k)) (putBit j.e (v.testBit k) c)
    have hrest := putDictBits_precedes j.e v k (putBit j.e (decide (0 < k)) (putBit j.e (v.testBit k) c))
    have ho1 := hpayload.opens ho
    have ho2 := hmore.opens ho1
    have hc2 := hrest.carries _ ho2 hc
    have hfit : w.acc < 2 ^ 31 := by
      rw [ha, Nat.div_lt_iff_lt_mul (Nat.two_pow_pos _)]
      have : 2 ^ 1 ≤ 2 ^ (k + 1) := Nat.pow_le_pow_right (by omega) (by omega)
      omega
    rw [dictLoop, if_neg (by omega)]
    refine (getBit_follows hj _ (.inr h) ho (hmore.carries _ ho1 hc2)).bind ?_
    rintro ⟨bit, w1⟩ hok1 ⟨rfl, h1⟩
    refine (getBit_follows hj _ (.inr (h1.withAcc _)) ho1 hc2).bind ?_
    rintro ⟨more, w2⟩ hok2 ⟨rfl, h2⟩
    have hacc : w2.acc = v / 2 ^ k := by
      obtain ⟨-, -, hacc1⟩ := getBit_ok hok1
      obtain ⟨-, -, hacc2⟩ := getBit_ok hok2
      simp only at hacc1 hacc2
      rw [hacc2, hacc1, ha, Nat.toNat_testBit, Nat.pow_succ, ← Nat.div_div_eq_div_mul]
      omega
    cases k with
    | zero => exact ⟨by simpa using hacc, h2⟩
    | succ k => exact ih (k := k) (by omega) hacc h2 ho2 hc

/-- `dict_ld()` reads the value that `put_dict` wrote (R173, R194). -/
theorem dictLd_follows (hj : j.Follows stream n) {v : Nat} (h2 : 2 ≤ v) (hv : v < 2 ^ 32) (h : InStep j stream c w)
    (ho : c.Open) (hc : Carries j.e stream (putDict j.e v c)) :
    OkOrCut j stream (fun r => r.1 = v ∧ InStep j stream (putDict j.e v c) r.2) (dictLd j w) := by
  obtain ⟨k, hk⟩ : ∃ k, Nat.log2 v = k + 1 := by
    have := (Nat.le_log2 (n := v) (k := 1) (by omega)).2 (by omega)
    exact ⟨Nat.log2 v - 1, by omega⟩
  have hlt : Nat.log2 v < 32 := (Nat.log2_lt (by omega)).2 hv
  rw [putDict, hk] at hc ⊢
  have hlead : v / 2 ^ Nat.log2 v = 1 :=
    Nat.div_eq_of_lt_le (by rw [Nat.one_mul]; exact Nat.log2_self_le (by omega))
      (by rw [Nat.mul_comm, ← Nat.pow_succ]; exact Nat.lt_log2_self)
  exact dictLoop_follows hj hv (by omega) (hk ▸ hlead.symm) (h.withAcc 1) ho hc

/-- A match copy writes the bytes of the source that repeat earlier ones (R182, R195). -/
theorem copyMatch_follows {src : List Byte} (hj : j.Served src.length) (len : Nat) {q cur : Nat} (hq : q < cur)
    (hin : cur + len ≤ src.length) (hsame : ∀ i < len, byteAt src (q + i) = byteAt src (cur + i)) :
    copyMatch j len q (src.take cur) = .ok (src.take (cur + len)) := by
  induction len generalizing q cur with
  | zero => rfl
  | succ len ih =>
    have hlen : (src.take cur).length = cur := by rw [List.length_take]; omega
    have hbyte : src.take cur ++ [byteAt (src.take cur) q] = src.take (cur + 1) := by
      rw [byteAt_take hq, show byteAt src q = byteAt src cur from hsame 0 (Nat.succ_pos _),
        take_append_byteAt (by omega)]
    have hread : j.access (j.lDst + q) .read = .ok () := hj.access (by omega) _
    have hwrite : j.access (j.lDst + (src.take cur).length) .write = .ok () := hj.access (by omega) _
    rw [copyMatch, hread, hwrite, hbyte]
    refine (ih (q := q + 1) (cur := cur + 1) (by omega) (by omega) fun i hi => ?_).trans ?_
    · rw [Nat.add_right_comm, Nat.add_right_comm cur]
      exact hsame (i + 1) (by omega)
    · rw [Nat.add_right_comm, Nat.add_assoc]

/-! ### Tokens -/

/-- After a token: the output is the source up to the compressor's cursor, and the decoder stands where the compressor
does. -/
structure TokenDone (j : DecJob) (stream src : List Byte) (c : CompState) (r : List Byte × DecState) : Prop where
  out : r.1 = src.take c.cur
  step : InStep j stream c r.2
  d : r.2.d = c.cur
  size : r.2.size = src.length

theorem decLiteral_follows {src : List Byte} (hj : j.Follows stream src.length)
    (h : InStep j stream (putBit j.e false c) w) (ho : c.Open) (hd : w.d = c.cur) (hsize : w.size = src.length)
    (hcur : c.cur < src.length) (hc : Carries j.e stream (putLiteral src j.e c)) :
    OkOrCut j stream (TokenDone j stream src (putLiteral src j.e c)) (decLiteral j w (src.take c.cur)) := by
  have ho1 := (putBit_precedes j.e false c).opens ho
  refine (getByte_follows hj (byteAt src c.cur) h ho1 hc).bind ?_
  rintro ⟨b, w1⟩ hok ⟨rfl, h1⟩
  obtain ⟨-, -, rfl⟩ := getByte_ok hok
  obtain ⟨hkeep, -⟩ := putLiteral_keeps src j.e c
  have hwrite : j.access (j.lDst + w.d) .write = .ok () := hj.served.access (by omega) _
  simp only [hwrite]
  refine ⟨?_, ⟨h1.cnt, h1.pos, h1.win, h1.inside⟩, by rw [hkeep, ← hd], hsize⟩
  simp only
  rw [hkeep, take_append_byteAt hcur]

theorem decMatch_follows {src : List Byte} {ovl : Bool} {q len : Nat} (hj : j.Follows stream src.length)
    (hlt : src.length < 2 ^ 32) (hm : c.MatchAt src q len) (h : InStep j stream (putBit j.e true c) w) (ho : c.Open)
    (hd : w.d = c.cur) (hsize : w.size = src.length) (hc : Carries j.e stream (putMatch j.e ovl q len c)) :
    OkOrCut j stream (TokenDone j stream src (putMatch j.e ovl q len c)) (decMatch j w (src.take c.cur)) := by
  obtain ⟨hbefore, hlong, hinside, hsame⟩ := hm
  have hdist := putDictBits_precedes j.e ((c.cur - q - 1) / 2 ^ 8 + 2) (Nat.log2 ((c.cur - q - 1) / 2 ^ 8 + 2))
    (putDict j.e (len - 2) (putBit j.e true c))
  have hlow := putByte_precedes j.e (BitVec.ofNat 8 (c.cur - q - 1))
    (putDict j.e ((c.cur - q - 1) / 2 ^ 8 + 2) (putDict j.e (len - 2) (putBit j.e true c)))
  have ho1 := (putBit_precedes j.e true c).opens ho
  have ho2 := (putDictBits_precedes j.e (len - 2) (Nat.log2 (len - 2)) _).opens ho1
  have ho3 := hdist.opens ho2
  have hc3 := hlow.carries _ ho3 hc
  refine (dictLd_follows hj (v := len - 2) (by omega) (by omega) h ho1 (hdist.carries _ ho2 hc3)).bind ?_
  rintro ⟨v1, w1⟩ hok1 ⟨rfl, h1⟩
  refine (dictLd_follows hj (v := (c.cur - q - 1) / 2 ^ 8 + 2) (by omega) (by omega) h1 ho2 hc3).bind ?_
  rintro ⟨v2, w2⟩ hok2 ⟨rfl, h2⟩
  refine (getByte_follows hj _ h2 ho3 hc).bind ?_
  rintro ⟨lo, w3⟩ hok3 ⟨rfl, h3⟩
  obtain ⟨hd1, hz1⟩ := dictLoop_ok hok1
  obtain ⟨hd2, hz2⟩ := dictLoop_ok hok2
  obtain ⟨-, -, hw3⟩ := getByte_ok hok3
  simp only at hd1 hz1 hd2 hz2
  have hd3 : w3.d = c.cur := by rw [hw3, hd2, hd1, hd]
  have hz3 : w3.size = src.length := by rw [hw3, hz2, hz1, hsize]
  have hback : (BitVec.ofNat 8 (c.cur - q - 1)).toNat + 1 + ((c.cur - q - 1) / 2 ^ 8 + 2 - 2) * 2 ^ 8 = c.cur - q := by
    rw [BitVec.toNat_ofNat]; omega
  have hlen : len - 2 + 2 = len := by omega
  obtain ⟨hkeep, -⟩ := putMatch_keeps j.e ovl q len c
  simp only [hback, hlen, hd3, hz3]
  rw [if_neg (by omega), Nat.sub_sub_self (Nat.le_of_lt hbefore),
    copyMatch_follows hj.served len hbefore hinside hsame]
  exact ⟨by rw [hkeep], ⟨h3.cnt, h3.pos, h3.win, h3.inside⟩, hkeep.symm, rfl⟩

/-- The decoder reads the token that the compressor emits (R175, R195). -/
theorem decToken_follows {src : List Byte} {ovl : Bool} (hj : j.Follows stream src.length) (hlt : src.length < 2 ^ 32)
    (h : AtFetch j c w ∨ InStep j stream c w) (ho : c.Open) (ht : c.TableBelow) (hd : w.d = c.cur)
    (hsize : w.size = src.length) (hcur : c.cur < src.length) (hc : Carries j.e stream (compToken src j.e ovl c)) :
    OkOrCut j stream (TokenDone j stream src (compToken src j.e ovl c)) (decToken j w (src.take c.cur)) := by
  obtain ⟨hpos, tbl, -, htoken⟩ := compToken_cases (src := src) (e := j.e) (ovl := ovl) ht
  have h1 : AtFetch j { c with h := hpos, table := tbl } w ∨ InStep j stream { c with h := hpos, table := tbl } w :=
    h.imp (fun h => ⟨h.cnt, h.pos, h.last, h.empty, h.inside⟩) (fun h => ⟨h.cnt, h.pos, h.win, h.inside⟩)
  have ho1 : CompState.Open { c with h := hpos, table := tbl } := ⟨ho.place, ho.count, ho.bits⟩
  rcases htoken with heq | ⟨q, len, hm, heq⟩ <;> rw [heq] at hc ⊢
  · refine (getBit_follows hj false h1 ho1 ((putLiteral_precedes src j.e _).carries _
      ((putBit_precedes j.e false _).opens ho1) hc)).bind ?_
    rintro ⟨flag, w1⟩ hok ⟨rfl, hstep⟩
    obtain ⟨hd1, hz1, -⟩ := getBit_ok hok
    exact decLiteral_follows hj hstep ho1 (hd1.trans hd) (hz1.trans hsize) hcur hc
  · refine (getBit_follows hj true h1 ho1 ((putMatch_precedes j.e ovl q len _).carries _
      ((putBit_precedes j.e true _).opens ho1) hc)).bind ?_
    rintro ⟨flag, w1⟩ hok ⟨rfl, hstep⟩
    obtain ⟨hd1, hz1, -⟩ := getBit_ok hok
    exact decMatch_follows hj hlt hm hstep ho1 (hd1.trans hd) (hz1.trans hsize) hc

/-! ### The main loop -/

/-- Between two tokens: the seed is the first byte of output, and only before the first token does the decoder stand before
a control word that is still empty. -/
structure BetweenTokens (j : DecJob) (stream src : List Byte) (c : CompState) (w : DecState) : Prop where
  opens : c.Open
  table : c.TableBelow
  pastSeed : 1 ≤ c.cur
  first : c.cur = 1 → AtFetch j c w
  later : 1 < c.cur → InStep j stream c w
  d : w.d = c.cur
  size : w.size = src.length

/-- The two main loops run in step, a token each a round (R175, R195). -/
theorem decLoop_follows {src : List Byte} {ovl : Bool} (hj : j.Follows stream src.length) (hlt : src.length < 2 ^ 32)
    (fuel : Nat) (h : BetweenTokens j stream src c w) (hc : Carries j.e stream (compLoop src j.e ovl fuel c)) :
    OkOrCut j stream (fun r => r.1 = src.take (compLoop src j.e ovl fuel c).cur ∧
      BetweenTokens j stream src (compLoop src j.e ovl fuel c) r.2) (decLoop j fuel w (src.take c.cur)) := by
  induction fuel generalizing c w with
  | zero => exact ⟨rfl, h⟩
  | succ fuel ih =>
    rw [compLoop] at hc ⊢
    rw [decLoop, h.d, h.size]
    split_ifs at hc ⊢ with hend
    · exact ⟨rfl, h⟩
    · have hp := compToken_precedes (src := src) (e := j.e) (ovl := ovl) h.table
      obtain ⟨hmoves, -, htable⟩ := compToken_advances (src := src) (e := j.e) (ovl := ovl) h.table (by omega)
      have hstart : AtFetch j c w ∨ InStep j stream c w :=
        (Nat.eq_or_lt_of_le h.pastSeed).imp (fun h1 => h.first h1.symm) h.later
      have hpast := h.pastSeed
      refine (decToken_follows hj hlt hstart h.opens h.table h.d h.size (by omega)
        ((compLoop_precedes fuel htable).carries _ (hp.opens h.opens) hc)).bind ?_
      rintro ⟨out, w1⟩ - ⟨rfl, hstep, hd, hsize⟩
      exact ih ⟨hp.opens h.opens, htable, by omega, by omega, fun _ => hstep, hd, hsize⟩ hc

theorem compLoop_of_end {src : List Byte} {e : Endian} {ovl : Bool} {fuel : Nat} {c : CompState}
    (h : src.length ≤ c.cur) : compLoop src e ovl fuel c = c := by
  cases fuel with
  | zero => rfl
  | succ fuel => rw [compLoop, if_pos h]

/-- The main loop of the compressor covers the whole source. -/
theorem compLoop_cur {src : List Byte} {e : Endian} {ovl : Bool} (fuel : Nat) {c : CompState} (ht : c.TableBelow)
    (hin : c.cur ≤ src.length) (hf : src.length ≤ c.cur + fuel) : (compLoop src e ovl fuel c).cur = src.length := by
  induction fuel generalizing c with
  | zero => exact Nat.le_antisymm hin hf
  | succ fuel ih =>
    unfold compLoop
    split_ifs with hend
    · omega
    · obtain ⟨hmoves, hle, ht'⟩ := compToken_advances (src := src) (e := e) (ovl := ovl) ht (by omega)
      exact ih ht' hle (by omega)

end

/-! ### The whole stream -/

/-- The stream of `b` carries every state of its compression. -/
theorem compressBytes_carries (b : List Byte) (e : Endian) (ovl : Bool) :
    Carries e (compressBytes b e ovl) (compLoop b e ovl b.length (compInit b e)) :=
  compFinish_carries ((compLoop_precedes b.length (compInit_tableBelow b e)).opens (compInit_open b e))

theorem compInit_carries (b : List Byte) (e : Endian) (ovl : Bool) :
    Carries e (compressBytes b e ovl) (compInit b e) :=
  (compLoop_precedes b.length (compInit_tableBelow b e)).carries _ (compInit_open b e) (compressBytes_carries b e ovl)

/-- A stream has at least a header, a seed literal and a control word (30_encoding R104). -/
theorem seven_le_length_compressBytes (b : List Byte) (e : Endian) (ovl : Bool) : 7 ≤ (compressBytes b e ovl).length := by
  simpa [compInit, length_put32] using (compInit_carries b e ovl).length_le

/-- How many bytes of the stream of `b` the decoder needs (R202): no control word is read for one byte. -/
def neededBytes (b : List Byte) (e : Endian) (ovl : Bool) : Nat :=
  if b.length = 1 then 5 else (compressBytes b e ovl).length

/-- The decoder's header finds the length and the seed literal that the compressor put out (R174, R190). -/
theorem decHeader_follows {j : DecJob} {b : List Byte} {ovl : Bool} {cap : Nat}
    (hj : j.Follows (compressBytes b j.e ovl) b.length) (h1 : 1 ≤ b.length) (hlt : b.length < 2 ^ 32)
    (hcap : b.length ≤ cap) (h4 : 4 ≤ j.src.length) :
    OkOrCut j (compressBytes b j.e ovl)
      (fun r => r = (byteAt b 0, { s := 5, d := 0, win := 0, cnt := 0, acc := 1, size := b.length }) ∧ 5 ≤ j.src.length)
      (decHeader j cap) := by
  have hlen := seven_le_length_compressBytes b j.e ovl
  have hout : (compInit b j.e).out = put32 b.length j.e ++ ([byteAt b 0] ++ [0#8, 0#8]) := List.append_assoc _ _ _
  have hsrc : ∀ i < 5, i < j.src.length → byteAt j.src i = byteAt (compInit b j.e).out i := fun i hi hin => by
    rw [hj.agrees i hin (by omega), (compInit_carries b j.e ovl).byteAt_eq (by simp [hout, length_put32]; omega) (.inl hi)]
  have hsize : get32 j.src 0 j.e = b.length := by
    rw [get32_congr (l' := put32 b.length j.e) (i' := 0) j.e fun k hk => ?_, get32_put32 hlt]
    rw [Nat.zero_add, hsrc k (by omega) (by omega), hout, byteAt_append_left (by rw [length_put32]; exact hk)]
  rw [hj.served.decHeader h4, hsize, if_neg (by omega), if_neg (by omega)]
  by_cases h5 : 5 ≤ j.src.length
  · rw [hj.served.getByte (by simp only; omega)]
    refine ⟨?_, h5⟩
    have hseed : byteAt j.src 4 = byteAt b 0 := by
      rw [hsrc 4 (by omega) h5, hout, byteAt_append_right (by rw [length_put32])]
      simp [length_put32, byteAt]
    simp only [hseed]
  · rw [getByte_underrun (by simp only; omega)]
    exact ⟨by omega, 4, h4, rfl⟩

/-- The writing phase gives the bytes back and stops right after the last byte it needs (R175, R202). -/
theorem decWrite_follows {j : DecJob} {b : List Byte} {ovl : Bool}
    (hj : j.Follows (compressBytes b j.e ovl) b.length) (h1 : 1 ≤ b.length) (hlt : b.length < 2 ^ 32)
    (h5 : 5 ≤ j.src.length) :
    OkOrCut j (compressBytes b j.e ovl)
      (fun r => r.1 = b ∧ r.2.size = b.length ∧ r.2.s = neededBytes b j.e ovl ∧ r.2.s ≤ j.src.length)
      (decWrite j (byteAt b 0) { s := 5, d := 0, win := 0, cnt := 0, acc := 1, size := b.length }) := by
  have hcur : (compLoop b j.e ovl b.length (compInit b j.e)).cur = b.length :=
    compLoop_cur b.length (compInit_tableBelow b j.e) h1 (Nat.le_add_left _ _)
  have hstart : BetweenTokens j (compressBytes b j.e ovl) b (compInit b j.e)
      { s := 5, d := 1, win := 0, cnt := 0, acc := 1, size := b.length } :=
    { opens := compInit_open b j.e
      table := compInit_tableBelow b j.e
      pastSeed := Nat.le_refl 1
      first := fun _ => ⟨rfl, rfl, by simp [compInit, length_put32], rfl, h5⟩
      later := fun h => absurd h (Nat.lt_irrefl 1)
      d := rfl
      size := rfl }
  have hseed : [byteAt b 0] = b.take (compInit b j.e).cur := by
    cases b with
    | nil => exact absurd h1 (Nat.not_succ_le_zero 0)
    | cons x l => rfl
  have hwrite : j.access j.lDst .write = .ok () := hj.served.access (i := 0) h1 .write
  rw [decWrite, hwrite, hseed]
  refine (decLoop_follows hj hlt b.length hstart (compressBytes_carries b j.e ovl)).mono ?_
  rintro ⟨out, w⟩ - ⟨rfl, hend⟩
  refine ⟨by rw [hcur, List.take_length], hend.size, ?_⟩
  rw [neededBytes]
  split_ifs with hone
  · rw [compLoop_of_end (Nat.le_of_eq hone)] at hend
    have hfetch := hend.first rfl
    exact ⟨hfetch.pos, hfetch.inside⟩
  · have hstep := hend.later (by omega)
    exact ⟨hstep.pos.trans (length_patch _ _ _).symm, hstep.inside⟩

/-- A ready state whose source is the stream of `b`, followed by more or cut short, follows that stream. -/
theorem State.Ready.follows {s : State} {b : List Byte} {stream : List Byte} {e : Endian} (h : s.Ready .codec)
    (hcap : b.length ≤ s.dcap)
    (hsrc : ∀ i < s.slen, i < stream.length → byteAt s.srcBytes i = byteAt stream i) :
    (s.decJob e).Follows stream b.length :=
  { served := (h.decJob_served e).mono hcap
    agrees := fun i hi hin => hsrc i (by simpa [State.decJob] using hi) hin }

/-- What a decompression of the stream of `b`, followed by more or cut short, comes to: `b` from the needed bytes of the
stream, or `SRC_UNDERRUN` inside a source that is shorter than the stream. -/
theorem decompressBody_follows {s : State} {b : List Byte} {e : Endian} {ovl : Bool} (h : s.Ready .codec)
    (h1 : 1 ≤ b.length) (hlt : b.length < 2 ^ 32) (hcap : b.length ≤ s.dcap) (h4 : 4 ≤ s.slen)
    (hsrc : ∀ i < s.slen, i < (compressBytes b e ovl).length →
      byteAt s.srcBytes i = byteAt (compressBytes b e ovl) i) :
    (neededBytes b e ovl ≤ s.slen ∧ ∃ work, decompressBody s e = .done b b.length (neededBytes b e ovl) work) ∨
    (s.slen < (compressBytes b e ovl).length ∧
      ∃ info ≤ s.slen, ∃ dirty, decompressBody s e = .stopped (.error .srcUnderrun info) dirty) := by
  have hj : (s.decJob e).Follows (compressBytes b e ovl) b.length := h.follows hcap hsrc
  have hlen : (s.decJob e).src.length = s.slen := length_srcBytes s
  have hheader := decHeader_follows (ovl := ovl) hj h1 hlt hcap (by rw [hlen]; exact h4)
  cases hh : decHeader (s.decJob e) s.dcap with
  | error st =>
    rw [hh] at hheader
    obtain ⟨hcut, o, ho, rfl⟩ := hheader
    exact .inr ⟨hlen ▸ hcut, o, hlen ▸ ho, false, decompressBody_of_header_error hh⟩
  | ok r =>
    rw [hh] at hheader
    obtain ⟨rfl, h5⟩ := hheader
    have hwrite := decWrite_follows (ovl := ovl) hj h1 hlt h5
    cases hw : decWrite (s.decJob e) (byteAt b 0)
        { s := 5, d := 0, win := 0, cnt := 0, acc := 1, size := b.length } with
    | error st =>
      rw [hw] at hwrite
      obtain ⟨hcut, o, ho, rfl⟩ := hwrite
      exact .inr ⟨hlen ▸ hcut, o, hlen ▸ ho, true, decompressBody_of_write_error hh hw⟩
    | ok r =>
      rw [hw] at hwrite
      obtain ⟨out, w⟩ := r
      obtain ⟨rfl, hz, hs, hin⟩ := hwrite
      simp only at hz hs hin
      refine .inl ⟨by rw [← hlen]; exact hs ▸ hin, { s.work with dec := w }, ?_⟩
      rw [decompressBody_of_write_ok hh hw, hz, hs]
      rfl

/-- Settles O52: a source that holds the whole stream is not cut short. -/
theorem decompressInvertsCompress : Obligations.DecompressInvertsCompress := by
  intro s b tail e ovl ovl' h1 hlt h hsrc hcap
  have hlen : s.slen = (compressBytes b e ovl).length + tail.length := by
    rw [← length_srcBytes, hsrc, List.length_append]
  have h7 := seven_le_length_compressBytes b e ovl
  rcases decompressBody_follows (ovl := ovl) h h1 hlt hcap (by omega)
    (fun i _ hi => by rw [hsrc, byteAt_append_left hi]) with ⟨-, work, hbody⟩ | ⟨hcut, -⟩
  · obtain ⟨t, ht, hsucc, -, hmem, -⟩ := exec_stores (i := .decompress e ovl') h (decompressChecks_none (by omega)) hbody
    exact ⟨t, ht, hsucc, hmem⟩
  · omega

/-- A stream cut short before a byte that the decoder needs ends with `SRC_UNDERRUN` inside the source (R177). -/
theorem exec_decompress_cut {s : State} {b : List Byte} {e : Endian} {ovl : Bool} (ovl' : Bool) (h : s.Ready .codec)
    (h1 : 1 ≤ b.length) (hlt : b.length < 2 ^ 32) (hsrc : s.srcBytes = (compressBytes b e ovl).take s.slen)
    (hcut : s.slen < neededBytes b e ovl) (hcap : b.length ≤ s.dcap) :
    ∃ t info, exec (.decompress e ovl') s = .next t ∧ t.Failed .srcUnderrun info ∧ info ≤ s.slen ∧
      sameOutside s.mem t.mem ⟨s.dst, s.dcap⟩ := by
  by_cases h4 : 4 ≤ s.slen
  · rcases decompressBody_follows (ovl := ovl) h h1 hlt hcap h4 (fun i hi _ => by rw [hsrc, byteAt_take hi]) with
      ⟨hle, -⟩ | ⟨-, info, hinfo, dirty, hbody⟩
    · omega
    · cases dirty with
      | false =>
        obtain ⟨t, ht, hfail, hmem⟩ := exec_rejects (i := .decompress e ovl') h (decompressChecks_none h4) hbody
        exact ⟨t, info, ht, hfail, hinfo, sameOutside_of_eq hmem _⟩
      | true =>
        obtain ⟨t, ht, hfail, hout⟩ := exec_stops (i := .decompress e ovl') h (decompressChecks_none h4) hbody
        exact ⟨t, info, ht, hfail, hinfo, hout⟩
  · obtain ⟨t, ht, hfail, hmem⟩ := exec_ownCheck (i := .decompress e ovl') h.notRaced h.regions
      (if_pos (Nat.not_le.1 h4))
    exact ⟨t, 0, ht, hfail, Nat.zero_le _, sameOutside_of_eq hmem _⟩

/-- A control word past the end of the source is `SRC_UNDERRUN` (R172). -/
theorem getBit_underrun {j : DecJob} {w : DecState} (h0 : w.cnt = 0) (hs : j.src.length < w.s + 2) :
    getBit j w = .error (.error .srcUnderrun w.s) := by
  rw [getBit, fetchWindow, if_neg (by omega), if_pos hs]
  rfl

/-- A match that starts before the output or runs past the decompressed length is `BAD_MATCH` (R178 (a), (b)). -/
theorem decMatch_badMatch {j : DecJob} {w w1 w2 w3 : DecState} {out : List Byte} {v1 v2 : Nat} {lo : Byte}
    (h1 : dictLd j w = .ok (v1, w1)) (h2 : dictLd j w1 = .ok (v2, w2)) (h3 : getByte j w2 = .ok (lo, w3))
    (hbad : w.d < (v2 - 2) * 256 + lo.toNat + 1 ∨ w.size < w.d + (v1 + 2)) :
    decMatch j w out = .error (.error .badMatch w.d) := by
  obtain ⟨hd1, hz1⟩ := dictLoop_ok h1
  obtain ⟨hd2, hz2⟩ := dictLoop_ok h2
  obtain ⟨-, -, hw3⟩ := getByte_ok h3
  simp only at hd1 hz1
  have hd3 : w3.d = w.d := by rw [hw3, hd2, hd1]
  have hz3 : w3.size = w.size := by rw [hw3, hz2, hz1]
  have hrefused : w3.d < lo.toNat + 1 + (v2 - 2) * 2 ^ 8 ∨ w3.size < w3.d + (v1 + 2) := by omega
  simp only [decMatch, h1, h2, h3, bind, Except.bind]
  rw [if_pos hrefused, hd3]

/-- Settles O6: the errors of the primitives, the end that each of them gives the command, and the stream cut short. -/
theorem decompressExecutionErrors : Obligations.DecompressExecutionErrors :=
  ⟨fun _ _ => getBit_underrun, fun _ _ => getByte_underrun, fun _ _ _ => dictLoop_badMatch,
    fun _ _ _ _ _ _ _ _ _ => decMatch_badMatch,
    fun _ _ _ _ _ _ _ h h4 hheader hwrite =>
      exec_stops h (decompressChecks_none h4) (decompressBody_of_write_error hheader hwrite),
    fun _ _ _ _ ovl' h1 hlt h hsrc hcut hcap => exec_decompress_cut ovl' h h1 hlt hsrc hcut hcap⟩

end Sys2Proof.Machine
end

section
/-! 48_host_procedures R233, R237: the UTF-8 codec. The decoder reads the bytes of one character back, whatever follows
them, so the round trip of a text is an induction over its characters. -/

namespace Sys2Proof.Machine

/-! ### The bytes of a character -/

theorem toNat_natToByte {n : Nat} (h : n < 256) : (natToByte n).toNat = n := by
  rw [natToByte, BitVec.toNat_ofNat, Nat.mod_eq_of_lt h]

theorem continuation_natToByte {k : Nat} (h : k < 64) : continuation (natToByte (0x80 + k)) = some k := by
  rw [continuation, toNat_natToByte (by omega), if_pos (by omega), Nat.add_sub_cancel_left]

theorem scalarFrom_toNat {low : Nat} {c : Char} (h : low ≤ c.toNat) : scalarFrom low c.toNat = some c := by
  rw [scalarFrom, if_pos ⟨h, c.valid⟩, Char.ofNat_toNat]

theorem length_utf8Char_pos (c : Char) : 1 ≤ (utf8Char c).length := by
  simp only [utf8Char]
  split_ifs <;> exact Nat.succ_pos _

/-! ### Reading one character

One lemma per length: a lead byte with the high bits and continuation bytes with six bits each. -/

theorem utf8Next_oneByte {c : Char} (h : c.toNat < 0x80) (rest : List Byte) :
    utf8Next (natToByte c.toNat :: rest) = some (c, rest) := by
  simp only [utf8Next, toNat_natToByte (show c.toNat < 256 by omega)]
  rw [if_pos h, Char.ofNat_toNat]

theorem utf8Next_twoBytes {c : Char} {k k1 : Nat} (hk : k < 32) (h1 : k1 < 64) (hc : k * 64 + k1 = c.toNat)
    (hlow : 0x80 ≤ c.toNat) (rest : List Byte) :
    utf8Next (natToByte (0xC0 + k) :: natToByte (0x80 + k1) :: rest) = some (c, rest) := by
  simp only [utf8Next, toNat_natToByte (show 0xC0 + k < 256 by omega)]
  rw [if_neg (by omega), if_pos (by omega)]
  simp [continuation_natToByte h1, hc, scalarFrom_toNat hlow]

theorem utf8Next_threeBytes {c : Char} {k k1 k2 : Nat} (hk : k < 16) (h1 : k1 < 64) (h2 : k2 < 64)
    (hc : k * 4096 + k1 * 64 + k2 = c.toNat) (hlow : 0x800 ≤ c.toNat) (rest : List Byte) :
    utf8Next (natToByte (0xE0 + k) :: natToByte (0x80 + k1) :: natToByte (0x80 + k2) :: rest) = some (c, rest) := by
  simp only [utf8Next, toNat_natToByte (show 0xE0 + k < 256 by omega)]
  rw [if_neg (by omega), if_neg (by omega), if_pos (by omega)]
  simp [continuation_natToByte h1, continuation_natToByte h2, hc, scalarFrom_toNat hlow]

theorem utf8Next_fourBytes {c : Char} {k k1 k2 k3 : Nat} (hk : k < 8) (h1 : k1 < 64) (h2 : k2 < 64) (h3 : k3 < 64)
    (hc : k * 262144 + k1 * 4096 + k2 * 64 + k3 = c.toNat) (hlow : 0x10000 ≤ c.toNat) (rest : List Byte) :
    utf8Next (natToByte (0xF0 + k) :: natToByte (0x80 + k1) :: natToByte (0x80 + k2) :: natToByte (0x80 + k3) :: rest) =
      some (c, rest) := by
  simp only [utf8Next, toNat_natToByte (show 0xF0 + k < 256 by omega)]
  rw [if_neg (by omega), if_neg (by omega), if_neg (by omega), if_pos (by omega)]
  simp [continuation_natToByte h1, continuation_natToByte h2, continuation_natToByte h3, hc, scalarFrom_toNat hlow]

/-- UTF-8 is a prefix code: the decoder reads a character's bytes and stops at their end. -/
theorem utf8Next_utf8Char (c : Char) (rest : List Byte) : utf8Next (utf8Char c ++ rest) = some (c, rest) := by
  have hmax : c.toNat < 0x110000 := Nat.lt_succ_of_le c.toNat_le_max
  simp only [utf8Char]
  split_ifs with h1 h2 h3
  · exact utf8Next_oneByte h1 rest
  · exact utf8Next_twoBytes (by omega) (by omega) (by omega) (by omega) rest
  · exact utf8Next_threeBytes (by omega) (by omega) (by omega) (by omega) (by omega) rest
  · exact utf8Next_fourBytes (by omega) (by omega) (by omega) (by omega) (by omega) (by omega) rest

/-! ### Reading a text -/

theorem utf8Loop_succ {bytes rest : List Byte} {c : Char} (fuel : Nat) (h : utf8Next bytes = some (c, rest)) :
    utf8Loop (fuel + 1) bytes = (utf8Loop fuel rest).map (c :: ·) := by
  cases bytes with
  | nil => cases h
  | cons b bs => rw [utf8Loop, h, Option.map_eq_bind]; rfl

/-- Any fuel that covers the bytes is enough, since each character takes at least one. -/
theorem utf8Loop_utf8Encode (t : List Char) (fuel : Nat) (h : (utf8Encode t).length ≤ fuel) :
    utf8Loop fuel (utf8Encode t) = some t := by
  induction t generalizing fuel with
  | nil => rw [utf8Encode, List.flatMap_nil, utf8Loop]
  | cons c t ih =>
    have hsplit : utf8Encode (c :: t) = utf8Char c ++ utf8Encode t := List.flatMap_cons
    have hpos := length_utf8Char_pos c
    rw [hsplit, List.length_append] at h
    cases fuel with
    | zero => omega
    | succ fuel => rw [hsplit, utf8Loop_succ fuel (utf8Next_utf8Char c _), ih fuel (by omega), Option.map_some]

/-- Settles O60: the decoder's fuel is the number of bytes. -/
theorem textCodecRoundTrip : Obligations.TextCodecRoundTrip :=
  fun t => utf8Loop_utf8Encode t _ (Nat.le_refl _)

end Sys2Proof.Machine
end

section
/-! 60_exceptions: an idle block (R275), the interrupt at a completion (R266), what no command changes (R255, R256), and the
bus error of a cipher command (R254), where every stop of its accesses is a bus error that names its own address (R73). -/

namespace Sys2Proof.Machine

/-! ### The block's own step -/

theorem State.engineStep_idle {s : State} (hp : s.phase = .idle) : s.engineStep = .next s := by
  simp [State.engineStep, hp]

/-- Settles O19: with no input pending the step is the block's own. -/
theorem idleBlockDoesNothing : Obligations.IdleBlockDoesNothing :=
  fun _ hp hi => (step_noInput hi).trans (State.engineStep_idle hp)

/-- Settles O23: the shared shape of the commands keeps them. -/
theorem commandKeepsOperandsAndLatches : Obligations.CommandKeepsOperandsAndLatches :=
  fun _ _ _ => exec_operands

theorem State.engineStep_irqEn {s t : State} (h : s.engineStep = .next t) : t.irqEn = s.irqEn := by
  rcases State.engineStep_cases h with ⟨-, rfl⟩ | ⟨-, rfl | ⟨i, hx⟩⟩
  · rfl
  · rfl
  · exact (exec_operands hx).irqEn

/-- A completion sets `DONE` or `ERR`, so the interrupt is left to `IRQ_EN` (10_state R58). -/
theorem State.Completed.irq {t : State} (h : t.Completed) : t.irq = t.irqEn := by
  simp [State.irq, h.oneFlag]

/-- Settles O22: the step completes a command, and no command changes `IRQ_EN`. -/
theorem interruptRisesAtCompletion : Obligations.InterruptRisesAtCompletion := by
  intro s t hb hi hs
  rw [step_noInput hi] at hs
  exact (State.engineStep_completed hb hs).irq.trans (State.engineStep_irqEn hs)

/-! ### Bus errors -/

theorem busStop_error_or_stall {cfg : Params} {a : Nat} {k : AccessKind} {st : Stop} (h : busStop cfg a k = some st) :
    st = .error .busError a ∨ st = .stall := by
  unfold busStop at h
  split at h
  · cases h
  · split at h
    · exact .inl (Option.some.inj h).symm
    · exact .inr (Option.some.inj h).symm

/-- On a bus that answers every access, a free choice among accesses some of which it refuses is the bus error of a refused
one (60_exceptions R254). -/
theorem anyStop_busError {cfg : Params} {l : List (Nat × AccessKind)} (t : Nat)
    (hans : ∀ a k, busStop cfg a k ≠ some .stall) (h : ∃ x ∈ l, busStop cfg x.1 x.2 ≠ none) :
    ∃ x ∈ l, busStop cfg x.1 x.2 ≠ none ∧ anyStop cfg t l = some (.error .busError x.1) := by
  obtain ⟨y, hy, hne⟩ := h
  cases ha : anyStop cfg t l with
  | none => exact absurd ((anyStop_eq_none cfg t l).1 ha y hy) hne
  | some st =>
    obtain ⟨x, hx, hst⟩ := anyStop_some ha
    rcases busStop_error_or_stall hst with rfl | rfl
    · exact ⟨x, hx, by simp [hst], rfl⟩
    · exact absurd hst (hans _ _)

/-- An error completion that is not raced, before or after the first destination write, as a host sees it (20_memory R78). -/
theorem State.complete_error {s : State} {dest : Bool} (code : ErrCode) (info : Nat) (dirty : Bool)
    (hr : s.raced = false) : ∃ t, s.complete dest (.stopped (.error code info) dirty) = .next t ∧ t.Failed code info ∧
      sameOutside s.mem t.mem ⟨s.dst, s.dcap⟩ := by
  cases dirty with
  | false => exact ⟨_, State.complete_clean code info hr, s.fail_failed code info, sameOutside_of_eq rfl _⟩
  | true =>
    exact ⟨s.scramble.fail code info, by simp [State.complete, hr], State.fail_failed _ _ _, s.scramble_sameOutside⟩

/-! ### A cipher command on a bus that refuses some of its accesses (R254) -/

theorem slen_pos_of_mem_cipherAccesses {s : State} {x : Nat × AccessKind} (h : x ∈ cipherAccesses s) : 0 < s.slen := by
  rcases List.mem_append.1 h with h | h <;> obtain ⟨-, hle, hlt⟩ := mem_accesses.1 h <;> omega

/-- A cipher command with block function `f`, past its checks, ends with the bus error of one of its refused accesses. -/
theorem State.runCommand_cipher_busError {s : State} (d : Bool) (f : BitVec 64 → BitVec 64 → BitVec 64)
    (hr : s.raced = false) (hreg : s.regionError .cipher = none) (hm : s.regionNotMemory .cipher = false)
    (h8 : s.slen % 8 = 0) (hc : s.slen ≤ s.dcap) (hans : ∀ a k, busStop s.cfg a k ≠ some .stall)
    (h : ∃ x ∈ cipherAccesses s, busStop s.cfg x.1 x.2 ≠ none) :
    ∃ t, ∃ x ∈ cipherAccesses s, s.runCommand .cipher (cipherChecks s d) (cipherBody s f) = .next t ∧
      busStop s.cfg x.1 x.2 ≠ none ∧ t.Failed .busError x.1 ∧ sameOutside s.mem t.mem ⟨s.dst, s.dcap⟩ := by
  obtain ⟨x, hx, hne, hstop⟩ := anyStop_busError s.draws hans h
  have hchecks : cipherChecks s d = none := by
    rw [cipherChecks_of_multiple d h8 fun _ => slen_pos_of_mem_cipherAccesses hx, if_neg (Nat.not_lt.2 hc)]
  have hbody : cipherBody s f = .stopped (.error .busError x.1) (cipherMayHaveWritten s) := by
    simp only [cipherBody, hstop]
  obtain ⟨t, ht, hfail, hout⟩ := State.complete_error .busError x.1 (cipherMayHaveWritten s) hr
  refine ⟨t, x, hx, ?_, hne, hfail, hout⟩
  rw [hchecks, hbody, State.runCommand_ready _ hreg hm, ht]

/-- Settles O40: both commands are the one shape with their block function. -/
theorem cipherBusErrorNamesOneFaultingAccess : Obligations.CipherBusErrorNamesOneFaultingAccess := by
  intro i s le ovl hi hr hreg hm h8 hc hans h
  rw [exec_eq_runCommand]
  simp only [List.mem_cons, List.not_mem_nil, or_false] at hi
  rcases hi with rfl | rfl
  · exact State.runCommand_cipher_busError false desEncryptBlock hr hreg hm h8 hc hans h
  · exact State.runCommand_cipher_busError true desDecryptBlock hr hreg hm h8 hc hans h

end Sys2Proof.Machine
end

section
/-! 70_reset_and_hazards: the reset input, asserted, held and released (R280, R282), and a command that makes an access the
bus never answers (R293). -/

namespace Sys2Proof.Machine

/-! ### The reset input (R280) -/

/-- While reset is held a store on the slave port changes nothing, whatever it reaches (log 17). -/
theorem State.storePort_held (s : State) (hr : s.resetHeld = true) (addr : Word) (width : Nat) (v : Word) :
    s.storePort addr width v = s := if_pos hr

/-- While reset is held a load on the slave port reads a free value, whatever it reaches (log 17). -/
theorem State.loadPort_held (s : State) (hr : s.resetHeld = true) (addr : Word) (width : Nat) :
    s.loadPort addr width = { s with rdata := Config.freeWord s.draws 0, draws := s.draws + 1 } := by
  rw [State.loadPort, hr]
  cases regOfAccess s.cfg addr width <;> rfl

/-- After the release of reset every register but `ID` reads 0 (10_state R59). -/
theorem State.readReg_releaseReset (s : State) {r : Reg} (h : r ≠ .id) : s.releaseReset.readReg r = 0 :=
  s.abandon.readReg_resetRegs h

/-- Settles O3: either edge of reset is the soft reset of the state without this input, with the reset input at its new
level. -/
theorem resetInputAssertedHeldReleased : Obligations.ResetInputAssertedHeldReleased := by
  intro s addr width v rest
  have hinputs : ({ s with inputs := rest } : State).softReset.inputs = rest := State.softReset_inputs _
  have hcfg : ({ s with inputs := rest } : State).softReset.cfg = s.cfg := State.softReset_cfg _
  obtain ⟨hidle, hout⟩ := State.softReset_mem { s with inputs := rest }
  refine ⟨fun hi => ?assert, fun hr hi => ?write, fun hr hi => ?read, fun hi => ?release⟩
  case assert => exact ⟨_, step_input hi, hinputs, rfl, rfl, hcfg, fun _ => ⟨rfl, rfl, rfl⟩, hidle, hout⟩
  case write =>
    rw [step_input hi]
    exact congrArg _ (State.storePort_held { s with inputs := rest } hr addr width v)
  case read =>
    rw [step_input hi]
    exact ⟨_, congrArg _ (State.loadPort_held { s with inputs := rest } hr addr width)⟩
  case release =>
    exact ⟨_, step_input hi, hinputs, rfl, rfl, rfl, fun _ => State.readReg_releaseReset _, rfl, hcfg, hidle, hout⟩

/-! ### Accesses that the bus never answers (R293) -/

/-- The bus serves an access or never answers it: it answers none with an error. -/
def NoBusErrors (cfg : Params) : Prop := ∀ a k, busStop cfg a k = none ∨ busStop cfg a k = some .stall

section
variable {cfg : Params} {l : List (Nat × AccessKind)}

/-- Without bus errors an access that is not served stalls. -/
theorem NoBusErrors.eq_stall (hbus : NoBusErrors cfg) {a : Nat} {k : AccessKind} {st : Stop}
    (h : busStop cfg a k = some st) : st = .stall := by
  rcases hbus a k with hn | hs
  · exact absurd (hn.symm.trans h) nofun
  · exact Option.some.inj (h.symm.trans hs)

theorem NoBusErrors.firstStop_eq_stall (hbus : NoBusErrors cfg) (h : ∃ x ∈ l, busStop cfg x.1 x.2 ≠ none) :
    firstStop cfg l = some .stall := by
  obtain ⟨x, hx, hne⟩ := h
  obtain ⟨st, hst⟩ := Option.ne_none_iff_exists'.1 fun hn => hne ((firstStop_eq_none cfg l).1 hn x hx)
  obtain ⟨y, -, hy⟩ := firstStop_some hst
  rw [hst, hbus.eq_stall hy]

theorem NoBusErrors.anyStop_eq_stall (hbus : NoBusErrors cfg) (t : Nat)
    (h : ∃ x ∈ l, busStop cfg x.1 x.2 ≠ none) : anyStop cfg t l = some .stall := by
  obtain ⟨x, hx, hne⟩ := h
  obtain ⟨st, hst⟩ := Option.ne_none_iff_exists'.1 fun hn => hne ((anyStop_eq_none cfg t l).1 hn x hx)
  obtain ⟨y, -, hy⟩ := anyStop_some hst
  rw [hst, hbus.eq_stall hy]

theorem NoBusErrors.valueStop_eq_stall (hbus : NoBusErrors cfg) (t : Nat) (e : Endian) {a n : Nat}
    (h : ∃ x ∈ accesses .read a n, busStop cfg x.1 x.2 ≠ none) : valueStop cfg t e a n = some .stall := by
  cases e with
  | big => exact hbus.firstStop_eq_stall h
  | little => exact hbus.anyStop_eq_stall t h

end

/-- The sixteen writes of `DIGEST` come after its reads, so it stalls wherever the unanswered access lies. -/
theorem digestBody_eq_stall {s : State} (hbus : NoBusErrors s.cfg)
    (h : ∃ x ∈ accesses .read s.src s.slen ++ accesses .write s.dst digestLen, busStop s.cfg x.1 x.2 ≠ none) :
    ∃ dirty, digestBody s = .stopped .stall dirty := by
  by_cases hread : ∃ x ∈ accesses .read s.src s.slen, busStop s.cfg x.1 x.2 ≠ none
  · exact ⟨false, by simp only [digestBody, hbus.anyStop_eq_stall s.draws hread]⟩
  · have hserved : anyStop s.cfg s.draws (accesses .read s.src s.slen) = none :=
      (anyStop_eq_none _ _ _).2 fun x hx => by_contra fun hne => hread ⟨x, hx, hne⟩
    obtain ⟨x, hx, hne⟩ := h
    have hwrite : ∃ x ∈ accesses .write s.dst digestLen, busStop s.cfg x.1 x.2 ≠ none :=
      ⟨x, (List.mem_append.1 hx).resolve_left fun hr => hread ⟨x, hr, hne⟩, hne⟩
    exact ⟨true, by simp only [digestBody, hserved, hbus.anyStop_eq_stall s.draws hwrite]⟩

/-- The execution of a command one of whose certain accesses is not served stalls, on a bus without errors. -/
theorem bodyOf_eq_stall {i : Instr} {s : State} (hbus : NoBusErrors s.cfg)
    (h : ∃ x ∈ certainAccesses i s, busStop s.cfg x.1 x.2 ≠ none) : ∃ dirty, bodyOf s i = .stopped .stall dirty := by
  cases i with
  | desDecrypt | desEncrypt =>
    have hstop : anyStop s.cfg s.draws (cipherAccesses s) = some .stall := hbus.anyStop_eq_stall _ h
    exact ⟨cipherMayHaveWritten s, by simp only [bodyOf, cipherBody, hstop]⟩
  | verify =>
    have hstop : anyStop s.cfg s.draws (accesses .read s.src s.slen) = some .stall := hbus.anyStop_eq_stall _ h
    exact ⟨false, by simp only [bodyOf, verifyBody, hstop]⟩
  | verifyAc1350 le => exact ⟨false, by simp only [bodyOf, ac1350Body, hbus.valueStop_eq_stall s.draws le h]⟩
  | digest => exact digestBody_eq_stall hbus h
  | decompress le =>
    have hheader : decHeader (s.decJob le) s.dcap = .error .stall := by
      simp only [decHeader, State.decJob, hbus.valueStop_eq_stall s.draws le h]
    exact ⟨false, decompressBody_of_header_error hheader⟩
  | compress =>
    have hstop : firstStop s.cfg (accesses .read s.src s.slen) = some .stall := hbus.firstStop_eq_stall h
    exact ⟨true, by simp only [bodyOf, compressBody, hstop]⟩

/-- Settles O33: the command comes to its completion, and its execution stalls. -/
theorem unansweredAccessStalls : Obligations.UnansweredAccessStalls := by
  intro i s hreg hown hmem hbus ⟨x, hx, hstall⟩
  obtain ⟨dirty, hbody⟩ := bodyOf_eq_stall hbus ⟨x, hx, by simp [hstall]⟩
  rw [exec_eq_runCommand, hown, hbody, State.runCommand_ready _ hreg hmem]
  rfl

end Sys2Proof.Machine
end
